-- ==== Sys2Proof/Word.lean ====
section
/-! DEFINITION. The two widths of the flash command sequencer (00_scope.md R8): a byte is 8 bits, a word is 16. -/

namespace Sys2Proof

/-- A byte (R8): bit 0 is its least significant bit. -/
abbrev Byte := BitVec 8

/-- A word (R8): the wire protocol's address and count fields are 16 bits wide. -/
abbrev Word := BitVec 16

end Sys2Proof
end

