-- ==== Sys2Proof/Config.lean ====
section
/-! DEFINITION. The configuration record (00_scope.md R6), the moves of the agents (10_state.md R15) and the free
values: what the spec leaves open has no body here, so no proof can see what it is. -/

namespace Sys2Proof

/-- `LEAVE_SCHEDULE_POINT` (R6, D9): when the leave command arms the short delay. -/
inductive LeavePoint where
  | onDispatch
  | onFramed
deriving DecidableEq, Repr

/-- `IRQ_AFTER_HANDOFF` (R6, D18): what the jump leaves in `IRQ_EN`. -/
inductive IrqAfter where
  | disabled
  | restored
deriving DecidableEq, Repr

/-- The configuration record `Cfg` of R6. `BOUNDARY` and `BUF_BYTES` are derived from it (`Cfg.boundary`,
`Cfg.bufBytes` in Machine/Flags.lean). It stands in the state and no step changes it, so a statement about every
state quantifies over every configuration (log 3). -/
structure Cfg where
  /-- `FLASH_BYTES`: total program-memory size in bytes. -/
  flashBytes : Nat
  /-- `BOOT_BYTES`: reserved bootloader size in bytes. -/
  bootBytes : Nat
  /-- `PAGE_BYTES`: bytes per flash page. -/
  pageBytes : Nat
  /-- `SIG[0]`. -/
  sig0 : Byte
  /-- `SIG[1]`. -/
  sig1 : Byte
  /-- `SIG[2]`. -/
  sig2 : Byte
  /-- `SYNC_RETRIES`: terminator poll budget, in poll steps. -/
  syncRetries : Nat
  /-- `INACT_BITS`: width of the inactivity counter. -/
  inactBits : Nat
  /-- `LEAVE_DELAY`: idle iterations between the leave command and the handoff attempt. -/
  leaveDelay : Nat
  /-- `ADDR_BITS`: width of `LOAD_ADDR`. -/
  addrBits : Nat
  /-- `CMD_GET_SYNC`: the get-sync command byte. -/
  cmdGetSync : Byte
  /-- `CMD_LEAVE`: the leave-bootloader command byte. -/
  cmdLeave : Byte
  /-- `LEAVE_SCHEDULE_POINT`. -/
  leavePoint : LeavePoint
  /-- `IRQ_AFTER_HANDOFF`. -/
  irqAfter : IrqAfter
  /-- `IRQ_EN0`: global interrupt enable on entry to the bootloader. -/
  irqEn0 : Bool
deriving DecidableEq, Repr

/-- One move of one agent (R15): the sequencer's step, the flash controller's completion step (R124, R126), the host
delivering one byte (R38), or a full device reset (R161), which is no agent's but can come from outside. -/
inductive Turn where
  | sequencer
  | flash
  | host (b : Byte)
  | reset
deriving DecidableEq, Repr, Inhabited

/-- `draw byte` (R10): the k-th drawn byte, any value 0..255, under no law. DESIGN CHOICE, log 2 (safe). -/
opaque Config.drawByte : Nat → Byte

/-- The k-th block of moves that the agenda does not name, any finite number of them in any order: the spec gives the
agents no order (R15, D10) and the flash controller no bound (D27). The flash controller moves after each block
(`State.freeSchedule`, R177). DESIGN CHOICE, log 1 (safe). -/
opaque Config.freeTurns : Nat → List Turn

/-- The device signature of the configuration that `State.reset` starts from: `SIG[k]` is OPEN (R6, 91 N3). DESIGN
CHOICE, log 3 (safe). -/
opaque Config.signature : Nat → Byte

/-- The configuration CFG-A of 95_test_vectors.md section 0: a test configuration of the spec, not the hardware's
value. `State.reset` starts from it. DESIGN CHOICE, log 3 (unsafe). -/
def Config.cfgA : Cfg where
  flashBytes := 0x8000
  bootBytes := 0x1000
  pageBytes := 0x80
  sig0 := Config.signature 0
  sig1 := Config.signature 1
  sig2 := Config.signature 2
  syncRetries := 3
  inactBits := 16
  leaveDelay := 0x10
  addrBits := 16
  cmdGetSync := 0x30
  cmdLeave := 0x51
  leavePoint := .onDispatch
  irqAfter := .disabled
  irqEn0 := true

end Sys2Proof
end

