-- ==== Sys2Proof/Syntax.lean ====
section
/-! DEFINITION. The instructions: the host commands of 41_commands.md, one constructor per row of opcode_table.json.
An instruction is the command byte with its `PLEN` payload bytes (30_encoding.md R64, R66, R67); the page data of
PROG_PAGE and the terminator follow it on the stream and are no part of it (40_dispatcher.md R86). -/

namespace Sys2Proof

/-- A host command with its payload fields (R67). Payload bytes the spec ignores are kept as operands, so that an
instruction says every byte of its encoding. -/
inductive Instr where
  /-- GET_PARAMETER (R97): the parameter id. -/
  | getParameter (id : Byte)
  /-- SET_DEVICE (R98): its 20 ignored payload bytes. -/
  | setDevice (ignored : List Byte)
  /-- SET_DEVICE_EXT (R99): its 5 ignored payload bytes. -/
  | setDeviceExt (ignored : List Byte)
  /-- UNIVERSAL (R100): sub-opcode, an ignored byte, the `IDENT` offset, an ignored byte. -/
  | universal (subop ignored1 offset ignored3 : Byte)
  /-- LOAD_ADDRESS (R101): the word address. -/
  | loadAddress (word : Word)
  /-- PROG_PAGE (R102): an ignored byte and the byte count. -/
  | progPage (ignored : Byte) (count : Word)
  /-- READ_PAGE (R104): an ignored byte and the byte count. -/
  | readPage (ignored : Byte) (count : Word)
  /-- READ_SIGN (R105). -/
  | readSign
  /-- GET_SYNC (R108). -/
  | getSync
  /-- LEAVE (R107). -/
  | leave
  /-- UNRECOGNIZED (R106): any command byte no other row names. -/
  | unrecognized (cmd : Byte)
deriving DecidableEq, Repr

end Sys2Proof
end

