-- ==== Sys2Proof/Decode.lean ====
section
/-! DEFINITION. The Command Table, the decoder and the encoder (30_encoding.md), and the spec's frame notation. -/

namespace Sys2Proof

/-- Command byte `A` (R66; pairing PRESUMED by the spec, D1, log 11). -/
def opGetParameter : Byte := 0x41
/-- Command byte `B` (R66, D1, log 11). -/
def opSetDevice : Byte := 0x42
/-- Command byte `E` (R66, D1, log 11). -/
def opSetDeviceExt : Byte := 0x45
/-- Command byte `U` (R66, D1, 90 C4, log 11). -/
def opLoadAddress : Byte := 0x55
/-- Command byte `V` (R66, D1, 90 C4, log 11). -/
def opUniversal : Byte := 0x56
/-- Command byte `d` (R66, D1, log 11). -/
def opProgPage : Byte := 0x64
/-- Command byte `t` (R66, D1, log 11). -/
def opReadPage : Byte := 0x74
/-- Command byte `u` (R66, D1, log 11). -/
def opReadSign : Byte := 0x75

/-- The terminator (R96). -/
def terminator : Byte := 0x20
/-- The in-sync byte (R96). -/
def inSync : Byte := 0x14
/-- The ok byte (R96). -/
def okByte : Byte := 0x10
/-- The read-signature sub-opcode of UNIVERSAL (R72). -/
def subReadSignature : Byte := 0x30

/-- The Command Table (R34, R66) without its sentinel: (command byte, payload length) pairs in order. -/
def commandTable : List (Byte × Nat) :=
  [(opGetParameter, 1), (opSetDevice, 20), (opSetDeviceExt, 5), (opLoadAddress, 2),
   (opUniversal, 4), (opProgPage, 3), (opReadPage, 3), (opReadSign, 0)]

/-- The first row of a table that names byte `b`; with none, the sentinel's length 0 (R66). -/
def tableLength (b : Byte) : List (Byte × Nat) → Nat
  | [] => 0
  | (c, n) :: rows => if c = b then n else tableLength b rows

/-- `PayloadLen(c)` (R66): 0 for every byte not in the table. -/
def payloadLen (b : Byte) : Nat := tableLength b commandTable

/-- The eight command-table bytes (R66). -/
def tableBytes : List Byte := commandTable.map Prod.fst

/-- The clause of R7 on the two parameter command bytes: distinct from each other, from 0x00 and from the table. -/
def Cfg.commandBytesOk (c : Cfg) : Bool :=
  c.cmdGetSync != c.cmdLeave && c.cmdGetSync != 0 && c.cmdLeave != 0
    && !tableBytes.contains c.cmdGetSync && !tableBytes.contains c.cmdLeave

/-- Byte `b` belongs to a row of the opcode table other than UNRECOGNIZED (R66, R75). -/
def assigned (c : Cfg) (b : Byte) : Bool :=
  tableBytes.contains b || b == c.cmdGetSync || b == c.cmdLeave

/-- Bits 7..0 of a word (`lo(w)` of R77). -/
def loByte (w : Word) : Byte := BitVec.ofNat 8 (w.toNat % 256)

/-- Bits 15..8 of a word (`hi(w)` of R77). -/
def hiByte (w : Word) : Byte := BitVec.ofNat 8 (w.toNat / 256)

/-- `zext_16(lo) + 256 * zext_16(hi)` (R69, R70). -/
def wordOf (lo hi : Byte) : Word := BitVec.ofNat 16 (lo.toNat + 256 * hi.toNat)

/-- Payload byte `P[i]` (R67). -/
def payloadByte (p : List Byte) (i : Nat) : Byte := p.getD i 0

/-- The instruction that command byte `b` with payload `p` stands for (R66, R67, R69 to R72, R75): every byte decodes
(R65). -/
def instrOf (c : Cfg) (b : Byte) (p : List Byte) : Instr :=
  if b = opGetParameter then .getParameter (payloadByte p 0)
  else if b = opSetDevice then .setDevice p
  else if b = opSetDeviceExt then .setDeviceExt p
  else if b = opLoadAddress then .loadAddress (wordOf (payloadByte p 0) (payloadByte p 1))
  else if b = opUniversal then
    .universal (payloadByte p 0) (payloadByte p 1) (payloadByte p 2) (payloadByte p 3)
  else if b = opProgPage then .progPage (payloadByte p 0) (wordOf (payloadByte p 2) (payloadByte p 1))
  else if b = opReadPage then .readPage (payloadByte p 0) (wordOf (payloadByte p 2) (payloadByte p 1))
  else if b = opReadSign then .readSign
  else if b = c.cmdGetSync then .getSync
  else if b = c.cmdLeave then .leave
  else .unrecognized b

/-- Why a byte sequence is not (yet) an instruction. No command byte is a reason (R75). -/
inductive DecodeError where
  /-- There is no byte at all. -/
  | noCommandByte
  /-- The payload of `cmd` is not complete (R64). -/
  | shortPayload (cmd : Byte)
deriving DecidableEq, Repr

/-- The decoder: the instruction at the head of a byte sequence and the bytes after it (R64, R74). -/
def decode (c : Cfg) : List Byte → Except DecodeError (Instr × List Byte)
  | [] => .error .noCommandByte
  | b :: rest =>
    if rest.length < payloadLen b then .error (.shortPayload b)
    else .ok (instrOf c b (rest.take (payloadLen b)), rest.drop (payloadLen b))

/-- The encoder: the command byte and the payload of an instruction (R66, R67, R77). -/
def encode (c : Cfg) : Instr → List Byte
  | .getParameter id => [opGetParameter, id]
  | .setDevice p => opSetDevice :: p
  | .setDeviceExt p => opSetDeviceExt :: p
  | .universal subop ignored1 offset ignored3 => [opUniversal, subop, ignored1, offset, ignored3]
  | .loadAddress w => [opLoadAddress, loByte w, hiByte w]
  | .progPage x n => [opProgPage, x, hiByte n, loByte n]
  | .readPage x n => [opReadPage, x, hiByte n, loByte n]
  | .readSign => [opReadSign]
  | .getSync => [c.cmdGetSync]
  | .leave => [c.cmdLeave]
  | .unrecognized b => [b]

/-- A whole request frame (R64): the encoded instruction, PROG_PAGE's page data, the terminator. -/
def requestFrame (c : Cfg) (i : Instr) (data : List Byte) : List Byte :=
  encode c i ++ data ++ [terminator]

/-- The length of the page data that follows an instruction on the stream (R64). -/
def dataLength : Instr → Nat
  | .progPage _ n => n.toNat
  | _ => 0

/-- The length of a request frame (R74). -/
def frameLength (c : Cfg) (i : Instr) : Nat := (encode c i).length + dataLength i + 1

/-- The longest instruction: SET_DEVICE with its 20 payload bytes (R66). -/
def longestInstr : Nat := 21

/-- The bytes of an instruction whose bits are `w`, the first byte in bits 7..0: as the stream carries them, zeros
above `nbits`, up to the longest instruction. -/
def tableWordBytes (nbits w : Nat) : List Byte :=
  (List.range longestInstr).map fun k => BitVec.ofNat 8 (w % 2 ^ nbits / 256 ^ k)

/-- The decoder on the bits of an opcode-table row, with the default command bytes (D2, D3). -/
def decodeTableWord (nbits w : Nat) : Option Instr :=
  match decode Config.cfgA (tableWordBytes nbits w) with
  | .ok (i, _) => some i
  | .error _ => none

/-! The pseudo-statements of R78, each as the request it expands to. -/

/-- `READ_SIG_BYTE k` (R78). -/
def pseudoReadSigByte (k : Byte) : Instr := .universal subReadSignature 0 k 0
/-- `HW_VER` (R78). -/
def pseudoHwVer : Instr := .getParameter 0x80
/-- `SW_MAJOR` (R78). -/
def pseudoSwMajor : Instr := .getParameter 0x81
/-- `SW_MINOR` (R78). -/
def pseudoSwMinor : Instr := .getParameter 0x82

/-- `WRITE_PAGE w, d0,...,d(n-1)` (R78): the frames of LOAD_ADDRESS and PROG_PAGE. -/
def pseudoWritePage (c : Cfg) (w : Word) (data : List Byte) : List Byte :=
  requestFrame c (.loadAddress w) [] ++
    requestFrame c (.progPage 0 (BitVec.ofNat 16 data.length)) data

/-- `READ_BACK w, n` (R78): the frames of LOAD_ADDRESS and READ_PAGE. -/
def pseudoReadBack (c : Cfg) (w n : Word) : List Byte :=
  requestFrame c (.loadAddress w) [] ++ requestFrame c (.readPage 0 n) []

end Sys2Proof
end

