-- ==== Sys2Proof/WellFormed.lean ====
section
/-! DEFINITION. Which instructions stand for a request of the Command Table (30_encoding.md R66, R67, R75). -/

namespace Sys2Proof

/-- An instruction is well formed when its ignored payload has the format's length (R67) and an UNRECOGNIZED byte is
one that no other row names (R75). -/
def Instr.wf (c : Cfg) : Instr → Bool
  | .setDevice p => p.length == 20
  | .setDeviceExt p => p.length == 5
  | .unrecognized b => !assigned c b
  | .getParameter _ => true
  | .universal _ _ _ _ => true
  | .loadAddress _ => true
  | .progPage _ _ => true
  | .readPage _ _ => true
  | .readSign => true
  | .getSync => true
  | .leave => true

end Sys2Proof
end

