-- ==== Sys2Proof/Machine/State.lean ====
section
/-! DEFINITION. The architectural state (10_state.md), as plain data, and the entry state of R40. -/

namespace Sys2Proof.Machine

/-- `MODE` (R16, R151): the Handoff Controller's state. -/
inductive Mode where
  | armed
  | handoff
deriving DecidableEq, Repr

/-- The steps of `PHASE = HO_SEQ` (R133 to R137), in order; each names the step that comes next. -/
inductive HoStage where
  /-- `LED_EN <- 0` (R134). -/
  | ledOff
  /-- `XPORT_ATTACHED <- 0` (R134). -/
  | detach
  /-- `IRQ_SAVE <- IRQ_EN; IRQ_EN <- 0` (R135). -/
  | irqOff
  /-- `VTSEL <- USER` (R136). -/
  | relocate
  /-- The jump (R137). -/
  | jump
deriving DecidableEq, Repr

/-- `PHASE` (R17). A phase of many steps carries how far it has come: the spec gives its steps one at a time and names
no register for the place reached (DESIGN CHOICE, log 9, safe). -/
inductive Phase where
  /-- Main loop (R80). -/
  | idle
  /-- Receiving the payload (R84); `got` bytes are received. -/
  | rxPayload (got : Nat)
  /-- Executing `CMD` (R85). -/
  | exec
  /-- Receiving page data (R115); `got` bytes are received. -/
  | pgRx (got : Nat)
  /-- Busy-wait for erase completion (R117). -/
  | pgWaitErase
  /-- Filling the page buffer (R118); `done` words are filled. -/
  | pgFill (done : Nat)
  /-- Busy-wait for write completion (R120). -/
  | pgWaitWrite
  /-- Polling for the terminator (R87). -/
  | waitTerm
  /-- Sending the framed response (R89); `sent` bytes are sent. -/
  | tx (sent : Nat)
  /-- Firmware-present check (R131). -/
  | hoCheck
  /-- The handoff sequence (R133). -/
  | hoSeq (stage : HoStage)
  /-- Terminal: user firmware runs (R138). -/
  | user
deriving DecidableEq, Repr

/-- `FC_OP` (R32): the operation the flash controller has under way, with its page base. -/
inductive FcOp where
  | none
  | erase (page : Nat)
  | write (page : Nat)
deriving DecidableEq, Repr

/-- `RESP` (R27): what `TX` sends between the in-sync and the ok byte. -/
inductive Resp where
  | none
  | const (k n : Nat)
  | byte (v : Byte)
  | buffer (n : Nat)
deriving DecidableEq, Repr

/-- `VTSEL` (R35): the region whose interrupt vector table the CPU uses. -/
inductive VtSel where
  | boot
  | user
deriving DecidableEq, Repr

/-- An item of the device-to-host stream `TXS` (R38): a byte, or the mark `Release()` appends. -/
inductive TxItem where
  | byte (b : Byte)
  | release
deriving DecidableEq, Repr

/-- An event of the trace, with the values it records (R142). -/
inductive Event where
  | frameTimeout (cmd : Byte)
  | frameMismatch (cmd got : Byte)
  | writeProtected (loadAddr : Nat) (byteCount : Word)
  | noFirmware
  | detach
  | relocated
  | jump (target : Nat)
deriving DecidableEq, Repr

/-- The reasons of `FAULT` (R145), and one of the model's own. A step raises one by setting the state's `fault`
(`raise`, Machine/Ops.lean); the sequencer's next move then stops with it (log 6). -/
inductive Fault where
  /-- Raised by PROG_PAGE and READ_PAGE on a count or address outside the host contract (R103, R104). Safe. -/
  | hostContract
  /-- Raised by an FC operation started while one is outstanding (R128). Safe. -/
  | fcBusy
  /-- Raised by `FlashRead` of the user region while `RWW_RD = 0` (R45). Safe. -/
  | rwwRead
  /-- Raised by the relocation when `IRQ_EN = 1` (R136). Safe. -/
  | relocIrq
  /-- Raised by any read of an unwritten cell or register (R18, R21, R145; 92 D20, 93 U11). Safe. -/
  | unwrittenRead
  /-- Never raised by a rule; reserved (R145, R160). Safe. -/
  | hwFatal
  /-- The model's own (log 7): an access to a cell of `BUF`, `PAGEBUF` or `FLASH` that does not exist, which no rule
  makes; answered by the receive phases, `Fill` and the FC's completion in states no run reaches. Safe. -/
  | noSuchCell
deriving DecidableEq, Repr

/-- Why the model has no meaning for a step (R12). -/
inductive Refusal where
  /-- Answered by `exec` for an instruction that has no meaning in the model. Safe. -/
  | notModelled (mnemonic : String)
  /-- Answered by `step` when the configuration breaks R7 (R12, U17). Safe. -/
  | illegalConfig
  /-- Answered by `step` once `PHASE = USER`: the run of the block is over and the user firmware's execution is
  outside every source (R4 (f), R138, R179, U29; log 8). Safe. -/
  | userFirmware
deriving DecidableEq, Repr

/-- Bytes held by index, in one form: indices strictly rising, each listed once. An index not listed is unwritten. -/
abbrev Store := List Host.Cell

/-- Program memory, in the form of `Store` with no entry equal to what an unlisted address reads as. -/
abbrev Memory := List Host.Cell

/-- The state of the machine (10_state.md). `none` in an `Option` register is the spec's own value "unwritten"
("no value" for `pc`), which the table of R40 gives on entry and whose read is a fault (R18, R21, R145; log 5). -/
structure State where
  /-- The configuration of the run (R6). -/
  cfg : Cfg
  /-- `MODE` (R16). -/
  mode : Mode
  /-- `PHASE` (R17). -/
  phase : Phase
  /-- The CPU's `pc`; no value before the jump (R18). -/
  pc : Option Nat
  /-- `CMD` (R19). -/
  cmd : Option Byte
  /-- `PLEN` (R20). -/
  plen : Option Nat
  /-- `BUF` (R21). -/
  buf : Store
  /-- `LOAD_ADDR` (R22), below `2^ADDR_BITS`. -/
  loadAddr : Nat
  /-- `INACT` (R23), below `2^INACT_BITS`. -/
  inact : Nat
  /-- `TRIES` (R24). -/
  tries : Option Nat
  /-- `BYTE_COUNT` (R25). -/
  byteCount : Option Word
  /-- `PROT` (R26). -/
  prot : Option Bool
  /-- `RESP` (R27). -/
  resp : Option Resp
  /-- `LEAVE_REQ` (R28). -/
  leaveReq : Bool
  /-- `FLASH` (R29). -/
  flash : Memory
  /-- `PAGEBUF` (R30). -/
  pageBuf : Store
  /-- `FAULT` (R31). -/
  fault : Option Fault
  /-- `FC_OP` (R32). -/
  fcOp : FcOp
  /-- `RWW_RD` (R32): the user region is readable. -/
  rwwRd : Bool
  /-- `VTSEL` (R35). -/
  vtsel : VtSel
  /-- `IRQ_EN` (R36). -/
  irqEn : Bool
  /-- `IRQ_SAVE` (R36). -/
  irqSave : Option Bool
  /-- `LED_EN` (R37). -/
  ledEn : Bool
  /-- `XPORT_ATTACHED` (R37). -/
  xportAttached : Bool
  /-- `RXQ` (R38), oldest byte first. -/
  rxq : List Byte
  /-- `TXS` (R38), oldest item first. -/
  txs : List TxItem
  /-- The event trace (R142), oldest event first. -/
  events : List Event
  /-- The model's own: the moves that come next, first one first (log 1). -/
  agenda : List Turn
  /-- The model's own: how many free blocks of moves were begun (log 1). -/
  turns : Nat
  /-- The model's own: how many drawn bytes were used up (log 2). -/
  draws : Nat
deriving DecidableEq, Repr

/-- The entry state (R40, R161) of configuration `c` with the program-memory contents `flash`, the launch input of
D35. -/
def State.launch (c : Cfg) (flash : Memory) : State where
  cfg := c
  mode := .armed
  phase := .idle
  pc := none
  cmd := none
  plen := none
  buf := []
  loadAddr := 0
  inact := 0
  tries := none
  byteCount := none
  prot := none
  resp := none
  leaveReq := false
  flash := flash
  pageBuf := []
  fault := none
  fcOp := .none
  rwwRd := true
  vtsel := .boot
  irqEn := c.irqEn0
  irqSave := none
  ledEn := true
  xportAttached := true
  rxq := []
  txs := []
  events := []
  agenda := []
  turns := 0
  draws := 0

/-- The machine right after reset: the entry state (R40) of the configuration CFG-A (log 3) with nothing listed in
program memory (log 4). -/
def State.reset : State := State.launch Config.cfgA []

end Sys2Proof.Machine
end

