-- ==== Sys2Proof/Machine/Flags.lean ====
section
/-! DEFINITION. What is computed from the state or the configuration and never stored: the derived parameters (R6),
the check on a configuration (R7), page arithmetic and protection (20_memory.md), and the status the sequencer tests
(FC_BUSY, the hold points). The block has no condition codes (41_commands.md). -/

namespace Sys2Proof

/-- `BOUNDARY` (R6, R43): the first byte address of the protected region. -/
def Cfg.boundary (c : Cfg) : Nat := c.flashBytes - c.bootBytes

/-- `BUF_BYTES` (R6): the capacity of the session buffer. -/
def Cfg.bufBytes (c : Cfg) : Nat := max 20 c.pageBytes

/-- `n` is a power of two from `2` up to `2^bits` (R7). -/
def powerOfTwo (bits n : Nat) : Bool := (List.range bits).any fun k => n == 2 ^ (k + 1)

/-- The constraints of R7, with the ranges R6 gives `SYNC_RETRIES` and `LEAVE_DELAY`. `BUF_BYTES` meets its bounds by
its definition. `PAGE_BYTES <= FLASH_BYTES <= 2^ADDR_BITS`, so the exponent of a page size is at most `ADDR_BITS`. -/
def Cfg.legal (c : Cfg) : Bool :=
  powerOfTwo c.addrBits c.pageBytes
    && c.flashBytes % c.pageBytes == 0 && c.bootBytes % c.pageBytes == 0
    && decide (0 < c.bootBytes) && decide (c.bootBytes < c.flashBytes)
    && decide (c.flashBytes ≤ 2 ^ c.addrBits)
    && c.commandBytesOk
    && decide (1 ≤ c.syncRetries)
    && decide (1 ≤ c.leaveDelay) && decide (c.leaveDelay < 2 ^ c.inactBits)

/-- `PageOff(a)` (R44). -/
def Cfg.pageOff (c : Cfg) (a : Nat) : Nat := a % c.pageBytes

/-- `PageBase(a)` (R44). -/
def Cfg.pageBase (c : Cfg) (a : Nat) : Nat := a - a % c.pageBytes

/-- `Protected(a)` (R46): the page of `a` is not entirely below the boundary. -/
def Cfg.isProtected (c : Cfg) (a : Nat) : Bool := !decide (c.pageBase a + c.pageBytes ≤ c.boundary)

namespace Machine

/-- `FC_BUSY` (R32). -/
def State.fcBusy (s : State) : Bool := s.fcOp != .none

/-- The hold points of R146. -/
inductive HoldPoint where
  /-- `H_RX_PAYLOAD`: lifted by the host delivering a byte. -/
  | rxPayload
  /-- `H_RX_DATA`: lifted by the host delivering a byte. -/
  | rxData
  /-- `H_FC_ERASE`: lifted by the FC's erase completion. -/
  | fcErase
  /-- `H_FC_WRITE`: lifted by the FC's write completion. -/
  | fcWrite
deriving DecidableEq, Repr

/-- The hold point the sequencer stands at, if any (R146): it waits for a byte of a payload or of page data that is
still missing, or for the flash controller. -/
def State.holdPoint (s : State) : Option HoldPoint :=
  match s.phase with
  | .rxPayload got => if s.rxq = [] ∧ got < s.plen.getD 0 then some .rxPayload else none
  | .pgRx got => if s.rxq = [] ∧ got < (s.byteCount.getD 0).toNat then some .rxData else none
  | .pgWaitErase => if s.fcBusy then some .fcErase else none
  | .pgWaitWrite => if s.fcBusy then some .fcWrite else none
  | _ => none

/-- The sequencer has steps in this mode and phase: the dispatcher, the engine and the firmware check run only while
`MODE = ARMED` (40_dispatcher.md, R79), the handoff sequence only after `MODE = HANDOFF` (R133), and nothing runs in
`USER` (R138). -/
def State.sequencerRuns (s : State) : Bool :=
  match s.phase with
  | .hoSeq _ => s.mode == .handoff
  | .user => false
  | _ => s.mode == .armed

/-- The `code` of an event (R142). -/
def Event.code : Event → Nat
  | .frameTimeout _ => 1
  | .frameMismatch _ _ => 2
  | .writeProtected _ _ => 3
  | .noFirmware => 4
  | .detach => 5
  | .relocated => 6
  | .jump _ => 7

/-- Where the CPU takes interrupt vectors from (R56, R140; D19, log 21). -/
def State.vectorBase (s : State) : Nat :=
  match s.vtsel with
  | .boot => s.cfg.boundary
  | .user => 0

end Machine
end Sys2Proof
end

