-- ==== Sys2Proof/Machine/Ops.lean ====
section
/-! DEFINITION. The named operations over memory, buffers, streams and registers (00_scope.md R10, R11; 20_memory.md):
every access of a step goes through them. Raising a fault is the one shared operation `raise`. -/

namespace Sys2Proof.Machine

/-- What a step or a part of one answers (R12). -/
abbrev Out := Host.Outcome State Fault Refusal

/-! Stores: `BUF`, `PAGEBUF` and the cells of `FLASH`. -/

/-- The byte at index `a`, or `none` when it is unwritten. -/
def Store.read? : Store → Nat → Option Byte
  | [], _ => none
  | (k, b) :: m, a => if k = a then some b else Store.read? m a

/-- The store with byte `b` at index `a`. -/
def Store.put (a : Nat) (b : Byte) : Store → Store
  | [] => [(a, b)]
  | (k, v) :: m =>
    if a < k then (a, b) :: (k, v) :: m
    else if a = k then (a, b) :: m
    else (k, v) :: Store.put a b m

/-- The store with index `a` unwritten. -/
def Store.drop (a : Nat) (m : Store) : Store := m.filter fun x => x.1 != a

/-- The one form of a store: indices strictly rising. -/
def Store.sorted : Store → Bool
  | [] => true
  | (k, _) :: m => m.all (fun x => decide (k < x.1)) && Store.sorted m

/-- Every index of a store is below `n`. -/
def Store.below (n : Nat) (m : Store) : Bool := m.all fun x => decide (x.1 < n)

/-- What an unlisted byte of program memory reads as: the erased pattern (R124). DESIGN CHOICE, log 4 (unsafe). -/
def Memory.unlisted : Byte := 0xFF

/-- `FLASH[a]`. -/
def Memory.read (m : Memory) (a : Nat) : Byte := (Store.read? m a).getD Memory.unlisted

/-- `FLASH[a] <- b`, keeping the canonical form. -/
def Memory.write (a : Nat) (b : Byte) (m : Memory) : Memory :=
  if b = Memory.unlisted then Store.drop a m else Store.put a b m

/-- The canonical form of program memory: addresses strictly rising, no entry equal to what an unlisted address reads
as. -/
def Memory.wf (m : Memory) : Bool := Store.sorted m && m.all fun x => x.2 != Memory.unlisted

/-- `FLASH[p + o] <- f o` for every `o` below `n`. -/
def Memory.fill (p : Nat) (f : Nat → Byte) : Nat → Memory → Memory
  | 0, m => m
  | n + 1, m => Memory.write (p + n) (f n) (Memory.fill p f n m)

/-! Faults, events and the streams. -/

/-- The state with `FAULT` set (R31). -/
def State.faulted (r : Fault) (s : State) : State := { s with fault := some r }

/-- `raise Fault(r)` (R10, R31, R145): sets the sticky fault and ends the step; every effect made so far stands. -/
def raise (r : Fault) (s : State) : Out := .next (s.faulted r)

/-- `emit Ev` (R10, R142). -/
def State.emit (e : Event) (s : State) : State := { s with events := s.events ++ [e] }

/-- `Send(b)` (R11, R38). -/
def State.send (b : Byte) (s : State) : State := { s with txs := s.txs ++ [.byte b] }

/-- `Release()` (R11, R38). -/
def State.release (s : State) : State := { s with txs := s.txs ++ [.release] }

/-- The state after the byte at the head of `RXQ` is consumed; the rest of the queue is `q` (R38). -/
def State.consumed (q : List Byte) (s : State) : State := { s with rxq := q }

/-- The byte `draw byte` gives next (R10; log 2). -/
def State.drawn (s : State) : Byte := Config.drawByte s.draws

/-- The state after `n` bytes are drawn. -/
def State.afterDraws (n : Nat) (s : State) : State := { s with draws := s.draws + n }

/-- `TRIES <- 0; PHASE <- WAIT_TERM` (R85). -/
def State.toWaitTerm (s : State) : State := { s with tries := some 0, phase := .waitTerm }

/-! Reads and writes of the storage spaces (R42). -/

/-- `BUF[i] <- b` (R21); `none` when the buffer has no such cell. -/
def State.putBuf (i : Nat) (b : Byte) (s : State) : Option State :=
  if i < s.cfg.bufBytes then some { s with buf := Store.put i b s.buf } else none

/-- `BUF[i]` (R21); `none` when the cell is unwritten. -/
def State.bufAt (s : State) (i : Nat) : Option Byte := Store.read? s.buf i

/-- `BUF[i..i+n-1]`; `none` when one of the cells is unwritten. -/
def State.bufBytes (s : State) : Nat → Nat → Option (List Byte)
  | _, 0 => some []
  | i, n + 1 =>
    match s.bufAt i, s.bufBytes (i + 1) n with
    | some b, some bs => some (b :: bs)
    | _, _ => none

/-- `FlashRead(a)` (R45): a drawn byte at or above `FLASH_BYTES`, a fault in the user region while `RWW_RD = 0`, else
`FLASH[a]`. -/
def flashRead (a : Nat) (s : State) : Except Fault (Byte × State) :=
  if s.cfg.flashBytes ≤ a then .ok (s.drawn, s.afterDraws 1)
  else if a < s.cfg.boundary ∧ s.rwwRd = false then .error .rwwRead
  else .ok (Memory.read s.flash a, s)

/-! The moves of the agents that are not the sequencer. -/

/-- The moves that follow an empty agenda: a free block, then the flash controller's move. So in every unending run the
flash controller moves again and again, at no bounded distance: its completion steps are weakly fair (R177, D27). The
host and the sequencer have no such law. Log 1, log 27. -/
def State.freeSchedule (s : State) : List Turn := Config.freeTurns s.turns ++ [.flash]

/-- Whose move comes next: the agenda's head, or the free schedule's when the agenda is empty (R15; log 1). -/
def State.nextTurn (s : State) : Turn :=
  match s.agenda with
  | t :: _ => t
  | [] => s.freeSchedule.headD .flash

/-- The state once the next move is taken; what is left of a free schedule becomes the agenda (log 1). -/
def State.afterTurn (s : State) : State :=
  match s.agenda with
  | _ :: ts => { s with agenda := ts }
  | [] => { s with agenda := s.freeSchedule.tail, turns := s.turns + 1 }

/-- The host delivers a byte (R38): it can append to `RXQ` only while `XPORT_ATTACHED = 1` (R134). -/
def hostDeliver (b : Byte) (s : State) : State :=
  if s.xportAttached then { s with rxq := s.rxq ++ [b] } else s

/-- The moves by which a host delivers a sequence of bytes (R77 `RAW`). -/
def hostMoves (bytes : List Byte) : List Turn := bytes.map .host

/-- A full device reset (R161): the entry state of R40, `FLASH` and the configuration kept. The model's own fields are
kept too: they belong to the world outside the block. -/
def deviceReset (s : State) : State :=
  { State.launch s.cfg s.flash with agenda := s.agenda, turns := s.turns, draws := s.draws }

end Sys2Proof.Machine
end

