-- ==== Sys2Proof/Machine/Operands.lean ====
section
/-! DEFINITION. The operand forms of the commands: the constant store (10_state.md R33), the parameter mapping of
GET_PARAMETER (41_commands.md R97), byte and word addresses (30_encoding.md R69), the host contract (R103), the
response descriptors (10_state.md R27), and the fetch of the instruction at `PHASE = EXEC` (40_dispatcher.md R85). -/

namespace Sys2Proof.Machine

/-- `IDENT[k]` for `k < 8` (R33). -/
def identByte (c : Cfg) : Nat → Byte
  | 0 => c.sig0
  | 1 => c.sig1
  | 2 => c.sig2
  | 3 => 0x02
  | 4 => 0x01
  | 5 => 0x10
  | 6 => 0x03
  | _ => 0x00

/-- A read of `IDENT[k]` (R33): a drawn byte for `k >= 8` (D17; log 2). -/
def identRead (k : Nat) (s : State) : Byte × State :=
  if k < 8 then (identByte s.cfg k, s) else (s.drawn, s.afterDraws 1)

/-- The `IDENT` offset that parameter `id` selects (R97, with the 8-bit subtraction of D4; log 14). -/
def paramOffset (id : Byte) : Nat :=
  let idx := (id - 0x80).toNat
  (if idx > 2 then if id = 0x98 then 3 else 4 else idx) + 3

/-- The byte address of a word address (R69, R101; modulus D5, log 15). -/
def byteAddress (c : Cfg) (w : Word) : Nat := 2 * w.toNat % 2 ^ c.addrBits

/-- Byte address `j` bytes after `a`, in the width of `LOAD_ADDR` (R104; D5, log 15). -/
def addressAfter (c : Cfg) (a j : Nat) : Nat := (a + j) % 2 ^ c.addrBits

/-- READ_PAGE breaks the host contract (R104; D7, log 17). -/
def readContractBroken (c : Cfg) (count : Word) : Bool := decide (c.pageBytes < count.toNat)

/-- PROG_PAGE breaks the host contract (R103; D7, log 17). -/
def progContractBroken (c : Cfg) (count : Word) (addr : Nat) : Bool :=
  decide (c.pageBytes < count.toNat) || count.toNat % 2 != 0 || addr % 2 != 0

/-- How many bytes a response descriptor stands for (R27, R89). -/
def Resp.length : Resp → Nat
  | .none => 0
  | .const _ n => n
  | .byte _ => 1
  | .buffer n => n

/-- Byte `j` of the response payload (R89); a read of an unwritten cell of `BUF` faults (R21, R145). `NONE` has no
byte, and no step asks for one. -/
def respByte (r : Resp) (j : Nat) (s : State) : Except Fault (Byte × State) :=
  match r with
  | .none => .ok (s.drawn, s.afterDraws 1)
  | .const k _ => .ok (identRead (k + j) s)
  | .byte v => .ok (v, s)
  | .buffer _ =>
    match s.bufAt j with
    | some b => .ok (b, s)
    | none => .error .unwrittenRead

/-- `BUF` with the payload bytes `p` from index `i` on. -/
def payloadInto (i : Nat) : List Byte → Store → Store
  | [], m => m
  | b :: p, m => payloadInto (i + 1) p (Store.put i b m)

/-- The cells of `BUF` that the rule of command byte `b` reads (R97 to R104): UNIVERSAL reads its offset only for the
read-signature sub-opcode (R100), and an ignored payload byte is never read (R67). -/
def State.operandCells (s : State) (b : Byte) : List Nat :=
  if b = opGetParameter then [0]
  else if b = opLoadAddress then [0, 1]
  else if b = opUniversal then if s.bufAt 0 = some subReadSignature then [0, 2] else [0]
  else if b = opProgPage ∨ b = opReadPage then [1, 2]
  else []

/-- `BUF[0..n-1]` as a payload; an unwritten cell, which only an operand that the
command does not read can be, stands as 0 (log 18). -/
def State.payload (s : State) (n : Nat) : List Byte := (List.range n).map fun i => (s.bufAt i).getD 0

/-- The command under execution (R85): `CMD` and the payload it has in `BUF[0..PLEN-1]`, decoded (R66, R67). Reading an
unwritten `CMD`, or an unwritten cell that the command's rule reads, faults (R21, R145; 93 U11). -/
def fetch (s : State) : Except Fault Instr :=
  match s.cmd with
  | none => .error .unwrittenRead
  | some b =>
    if (s.operandCells b).all fun i => (s.bufAt i).isSome then .ok (instrOf s.cfg b (s.payload (payloadLen b)))
    else .error .unwrittenRead

end Sys2Proof.Machine
end

