-- ==== Sys2Proof/Machine/Commands.lean ====
section
/-! DEFINITION. The commands that answer from the constant store or with no payload (41_commands.md R97 to R100, R105
to R108). Each ends with `TRIES <- 0; PHASE <- WAIT_TERM` (R85). -/

namespace Sys2Proof.Machine

/-- The end of a command: `RESP <- r`, then the terminator wait (R85). -/
def answer (r : Resp) (s : State) : Out := .next { s with resp := some r }.toWaitTerm

/-- GET_PARAMETER (R97). -/
def execGetParameter (id : Byte) (s : State) : Out :=
  match identRead (paramOffset id) s with
  | (v, s1) => answer (.byte v) s1

/-- SET_DEVICE (R98): the payload is discarded. -/
def execSetDevice (_ignored : List Byte) (s : State) : Out := answer .none s

/-- SET_DEVICE_EXT (R99): the payload is discarded. -/
def execSetDeviceExt (_ignored : List Byte) (s : State) : Out := answer .none s

/-- UNIVERSAL (R100): one `IDENT` byte for the read-signature sub-opcode, else no payload effect (R76). -/
def execUniversal (subop _ignored1 offset _ignored3 : Byte) (s : State) : Out :=
  if subop = subReadSignature then
    match identRead offset.toNat s with
    | (v, s1) => answer (.byte v) s1
  else answer .none s

/-- READ_SIGN (R105): the first three bytes of the Identity/Version Block. -/
def execReadSign (s : State) : Out := answer (.const 0 3) s

/-- GET_SYNC (R108): as UNRECOGNIZED. -/
def execGetSync (s : State) : Out := answer .none s

/-- LEAVE (R107): arms the short delay, now or once the exchange is framed (D9, log 16). -/
def execLeave (s : State) : Out :=
  match s.cfg.leavePoint with
  | .onDispatch => answer .none { s with inact := s.cfg.leaveDelay }
  | .onFramed => answer .none { s with leaveReq := true }

/-- UNRECOGNIZED (R106): no effect. -/
def execUnrecognized (_cmd : Byte) (s : State) : Out := answer .none s

end Sys2Proof.Machine
end

