-- ==== Sys2Proof/Machine/FlashController.lean ====
section
/-! DEFINITION. The flash controller (42_flash_engine.md section 2): the operations the engine starts, and the
completion steps of the FC agent. -/

namespace Sys2Proof.Machine

/-- Go on with `k` when no FC operation is outstanding, else raise `FC_BUSY` (R128). -/
def whenFcIdle (s : State) (k : State → Out) : Out :=
  if s.fcBusy then raise .fcBusy s else k s

/-- `EraseStart(p)` (R122). -/
def eraseStart (p : Nat) (s : State) (k : State → Out) : Out :=
  whenFcIdle s fun s => k { s with fcOp := .erase p, rwwRd := false }

/-- `Fill(a, w)` (R123): low byte at the even offset. An odd `a` is outside the operation's precondition (log 7). -/
def fillWord (a : Nat) (w : Word) (s : State) (k : State → Out) : Out :=
  whenFcIdle s fun s =>
    if a % 2 = 0 then
      k { s with
        pageBuf := Store.put (s.cfg.pageOff a + 1) (hiByte w)
          (Store.put (s.cfg.pageOff a) (loByte w) s.pageBuf) }
    else .fault .noSuchCell

/-- `CommitStart(p)` (R125). -/
def commitStart (p : Nat) (s : State) (k : State → Out) : Out :=
  whenFcIdle s fun s => k { s with fcOp := .write p, rwwRd := false }

/-- `EnableRead()` (R127, R63). -/
def enableRead (s : State) (k : State → Out) : Out :=
  whenFcIdle s fun s => k { s with rwwRd := true }

/-- What a commit stores at offset `o` of the page (R126): the page buffer's byte, a drawn one where it is unwritten
(D15; log 2). -/
def committedByte (s : State) (o : Nat) : Byte :=
  (Store.read? s.pageBuf o).getD (Config.drawByte (s.draws + o))

/-- The state after erase completion of page `p` (R124). -/
def eraseCompleted (p : Nat) (s : State) : State :=
  { s with flash := Memory.fill p (fun _ => 0xFF) s.cfg.pageBytes s.flash, fcOp := .none }

/-- The state after write completion of page `p` (R126). One draw is set aside for each byte of the page. -/
def writeCompleted (p : Nat) (s : State) : State :=
  { s with
    flash := Memory.fill p (committedByte s) s.cfg.pageBytes s.flash
    pageBuf := []
    fcOp := .none
    draws := s.draws + s.cfg.pageBytes }

/-- The move of the FC agent (R124, R126): it completes the operation under way; with none under way it does nothing.
A page that is not all inside program memory has no cells to write (log 7). -/
def flashMove (s : State) : Out :=
  match s.fcOp with
  | .none => .next s
  | .erase p =>
    if p + s.cfg.pageBytes ≤ s.cfg.flashBytes then .next (eraseCompleted p s) else .fault .noSuchCell
  | .write p =>
    if p + s.cfg.pageBytes ≤ s.cfg.flashBytes then .next (writeCompleted p s) else .fault .noSuchCell

end Sys2Proof.Machine
end

