-- ==== Sys2Proof/Machine/Engine.lean ====
section
/-! DEFINITION. The Flash Programming Engine (42_flash_engine.md section 1): its start, which PROG_PAGE runs, and its
sequencer steps `PG_RX`, `PG_WAIT_ERASE`, `PG_FILL` and `PG_WAIT_WRITE`. -/

namespace Sys2Proof.Machine

/-- The engine's start (R112 to R114): the protection decision from `LOAD_ADDR` alone, then the erase unless the page
is protected, then the page-data receive. -/
def engineStart (s : State) : Out :=
  let prot := s.cfg.isProtected s.loadAddr
  let s1 := { s with prot := some prot }
  if prot then .next { s1 with phase := .pgRx 0 }
  else eraseStart (s.cfg.pageBase s.loadAddr) s1 fun s2 => .next { s2 with phase := .pgRx 0 }

/-- The end of the page-data receive (R115, R116): a protected page stops here, silently but for the event. -/
def pageReceived (count : Word) (s : State) : Out :=
  match s.prot with
  | none => raise .unwrittenRead s
  | some true => .next (s.emit (.writeProtected s.loadAddr count)).toWaitTerm
  | some false => .next { s with phase := .pgWaitErase }

/-- The step at `PG_RX` (R115): one byte of page data, received whether or not the page is protected; it holds while
none is there. -/
def stepPgRx (got : Nat) (s : State) : Out :=
  match s.byteCount with
  | none => raise .unwrittenRead s
  | some count =>
    if got < count.toNat then
      match s.rxq with
      | [] => .next s
      | b :: q =>
        match (s.consumed q).putBuf got b with
        | some s1 => .next { s1 with phase := .pgRx (got + 1) }
        | none => .fault .noSuchCell
    else pageReceived count s

/-- The step at `PG_WAIT_ERASE` (R117): it holds while the FC is busy. -/
def stepPgWaitErase (s : State) : Out :=
  if s.fcBusy then .next s else .next { s with phase := .pgFill 0 }

/-- The step at `PG_FILL` (R118, R119): word `done` of the page data, or the commit after the last one. -/
def stepPgFill (done : Nat) (s : State) : Out :=
  match s.byteCount with
  | none => raise .unwrittenRead s
  | some count =>
    if done < count.toNat / 2 then
      match s.bufAt (2 * done), s.bufAt (2 * done + 1) with
      | some lo, some hi =>
        fillWord (s.loadAddr + 2 * done) (wordOf lo hi) s fun s1 =>
          .next { s1 with phase := .pgFill (done + 1) }
      | _, _ => raise .unwrittenRead s
    else commitStart (s.cfg.pageBase s.loadAddr) s fun s1 => .next { s1 with phase := .pgWaitWrite }

/-- The step at `PG_WAIT_WRITE` (R120, R121): it holds while the FC is busy, then enables reading and returns. -/
def stepPgWaitWrite (s : State) : Out :=
  if s.fcBusy then .next s else enableRead s fun s1 => .next s1.toWaitTerm

end Sys2Proof.Machine
end

