-- ==== Sys2Proof/Machine/PageCommands.lean ====
section
/-! DEFINITION. The commands that use `LOAD_ADDR` (41_commands.md R101 to R104). -/

namespace Sys2Proof.Machine

/-- LOAD_ADDRESS (R101). -/
def execLoadAddress (word : Word) (s : State) : Out :=
  answer .none { s with loadAddr := byteAddress s.cfg word }

/-- `BUF[j] <- FlashRead((base + j) mod 2^ADDR_BITS)` for the `n` indices from `j` on, in order (R104): the state
reached, and the fault that ended the reads if one did. -/
def readIntoBuf (base : Nat) : Nat → Nat → State → Option Fault × State
  | 0, _, s => (none, s)
  | n + 1, j, s =>
    match flashRead (addressAfter s.cfg base j) s with
    | .error f => (some f, s)
    | .ok (b, s1) => readIntoBuf base n (j + 1) { s1 with buf := Store.put j b s1.buf }

/-- READ_PAGE (R104): `BYTE_COUNT` is taken from the payload before the reads overwrite it (R172). -/
def execReadPage (_ignored : Byte) (count : Word) (s : State) : Out :=
  let s1 := { s with byteCount := some count }
  if readContractBroken s.cfg count then raise .hostContract s1
  else
    match readIntoBuf s.loadAddr count.toNat 0 s1 with
    | (some f, s2) => raise f s2
    | (none, s2) =>
      answer (.buffer count.toNat)
        { s2 with loadAddr := addressAfter s.cfg s.loadAddr count.toNat }

/-- PROG_PAGE (R102, R103): the host-contract check before any receive or flash effect, then the engine. The page data
follows on the stream. -/
def execProgPage (_ignored : Byte) (count : Word) (s : State) : Out :=
  let s1 := { s with byteCount := some count }
  if progContractBroken s.cfg count s.loadAddr then raise .hostContract s1
  else engineStart { s1 with resp := some .none }

end Sys2Proof.Machine
end

