-- ==== Sys2Proof/Machine/Dispatch.lean ====
section
/-! DEFINITION. The dispatch at `PHASE = EXEC` (40_dispatcher.md R85): one arm per command. -/

namespace Sys2Proof.Machine

def exec (i : Instr) (s : State) : Host.Outcome State Fault Refusal :=
  match i with
  | .getParameter id => Sys2Proof.Machine.execGetParameter id s
  | .setDevice ignored => Sys2Proof.Machine.execSetDevice ignored s
  | .setDeviceExt ignored => Sys2Proof.Machine.execSetDeviceExt ignored s
  | .universal subop ignored1 offset ignored3 => Sys2Proof.Machine.execUniversal subop ignored1 offset ignored3 s
  | .loadAddress word => Sys2Proof.Machine.execLoadAddress word s
  | .progPage ignored count => Sys2Proof.Machine.execProgPage ignored count s
  | .readPage ignored count => Sys2Proof.Machine.execReadPage ignored count s
  | .readSign => Sys2Proof.Machine.execReadSign s
  | .getSync => Sys2Proof.Machine.execGetSync s
  | .leave => Sys2Proof.Machine.execLeave s
  | .unrecognized cmd => Sys2Proof.Machine.execUnrecognized cmd s

end Sys2Proof.Machine
end

