-- ==== Sys2Proof/Machine/Dispatcher.lean ====
section
/-! DEFINITION. The Protocol Dispatcher's sequencer steps outside the commands (40_dispatcher.md): `IDLE`,
`RX_PAYLOAD`, `WAIT_TERM` and `TX`. -/

namespace Sys2Proof.Machine

/-- The command poll and the lookup (R82, R83): byte `b` starts an exchange. -/
def commandPoll (b : Byte) (s : State) : State :=
  { s with inact := 0, cmd := some b, plen := some (payloadLen b), phase := .rxPayload 0 }

/-- `INACT` after one decrement (R81): modulo `2^INACT_BITS` (D8, log 16). -/
def inactDecremented (s : State) : Nat := (s.inact + 2 ^ s.cfg.inactBits - 1) % 2 ^ s.cfg.inactBits

/-- The idle iteration (R81): decrement, then test. -/
def idleIteration (s : State) : State :=
  { s with
    inact := inactDecremented s
    phase := if inactDecremented s = 0 then .hoCheck else .idle }

/-- The step at `IDLE` (R80). -/
def stepIdle (s : State) : Out :=
  match s.rxq with
  | b :: q => .next (commandPoll b (s.consumed q))
  | [] => .next (idleIteration s)

/-- The step at `RX_PAYLOAD` (R84): one payload byte; it holds while none is there. -/
def stepRxPayload (got : Nat) (s : State) : Out :=
  match s.plen with
  | none => raise .unwrittenRead s
  | some n =>
    if got < n then
      match s.rxq with
      | [] => .next s
      | b :: q =>
        match (s.consumed q).putBuf got b with
        | some s1 => .next { s1 with phase := .rxPayload (got + 1) }
        | none => .fault .noSuchCell
    else .next { s with phase := .exec }

/-- `EndBroken` (R87, R88): the exchange ends with no response. -/
def endBroken (s : State) : State :=
  { s with
    leaveReq := if s.cfg.leavePoint = .onFramed then false else s.leaveReq
    phase := .idle }

/-- The terminator poll returned `b` (R87). A mismatched byte stays consumed (D11, log 19). -/
def terminatorByte (b : Byte) (s : State) : Out :=
  if b = terminator then .next { s with phase := .tx 0 }
  else
    match s.cmd with
    | none => raise .unwrittenRead s
    | some c => .next (endBroken (s.emit (.frameMismatch c b)))

/-- The terminator poll returned nothing (R87): `t` empty polls were made before it. -/
def terminatorEmpty (t : Nat) (s : State) : Out :=
  let s1 := { s with tries := some (t + 1) }
  if t + 1 = s.cfg.syncRetries then
    match s.cmd with
    | none => raise .unwrittenRead s1
    | some c => .next (endBroken (s1.emit (.frameTimeout c)))
  else .next s1

/-- The step at `WAIT_TERM` (R87). -/
def stepWaitTerm (s : State) : Out :=
  match s.rxq with
  | b :: q => terminatorByte b (s.consumed q)
  | [] =>
    match s.tries with
    | none => raise .unwrittenRead s
    | some t => terminatorEmpty t s

/-- The end of the response (R89): the ok byte, the release mark, the leave request consumed under `ON_FRAMED`. -/
def responseEnd (s : State) : State :=
  let s1 := (s.send okByte).release
  if s.cfg.leavePoint = .onFramed ∧ s.leaveReq = true then
    { s1 with inact := s.cfg.leaveDelay, leaveReq := false, phase := .idle }
  else { s1 with phase := .idle }

/-- The step at `TX` (R89): the in-sync byte first, then the response payload byte by byte, then the end. -/
def stepTx (sent : Nat) (s : State) : Out :=
  match sent with
  | 0 => .next { s.send inSync with phase := .tx 1 }
  | j + 1 =>
    match s.resp with
    | none => raise .unwrittenRead s
    | some r =>
      if j < r.length then
        match respByte r j s with
        | .ok (b, s1) => .next { s1.send b with phase := .tx (j + 2) }
        | .error f => raise f s
      else .next (responseEnd s)

end Sys2Proof.Machine
end

