-- ==== Sys2Proof/Machine/Handoff.lean ====
section
/-! DEFINITION. The Handoff Controller (43_handoff.md): the firmware-present check and the handoff sequence. -/

namespace Sys2Proof.Machine

/-- The erased byte (R50, R124). -/
def erasedByte : Byte := 0xFF

/-- The first instruction word of the user region is erased (R50, R131). -/
def wordErased (b0 b1 : Byte) : Bool := b0 == erasedByte && b1 == erasedByte

/-- Abort (R132): stay `ARMED`, record the event, go back to the main loop. -/
def handoffAbort (s : State) : State := { s.emit .noFirmware with phase := .idle }

/-- Enter (R133): the one transition `ARMED -> HANDOFF` (R16). -/
def handoffEnter (s : State) : State := { s with mode := .handoff, phase := .hoSeq .ledOff }

/-- The step at `HO_CHECK` (R131). -/
def stepHoCheck (s : State) : Out :=
  match flashRead 0 s with
  | .error f => raise f s
  | .ok (b0, s1) =>
    match flashRead 1 s1 with
    | .error f => raise f s1
    | .ok (b1, s2) => .next (if wordErased b0 b1 then handoffAbort s2 else handoffEnter s2)

/-- The first shutdown step (R134): the idle indicator outputs off. -/
def handoffLedOff (s : State) : Out := .next { s with ledEn := false, phase := .hoSeq .detach }

/-- The second shutdown step (R134): detach from the transport. -/
def handoffDetach (s : State) : Out :=
  .next { s.emit .detach with xportAttached := false, phase := .hoSeq .irqOff }

/-- Interrupts off (R135). -/
def handoffIrqOff (s : State) : Out :=
  .next { s with irqSave := some s.irqEn, irqEn := false, phase := .hoSeq .relocate }

/-- The vector table relocation, one atomic step (R136). -/
def handoffRelocate (s : State) : Out :=
  if s.irqEn then raise .relocIrq s
  else .next { s.emit .relocated with vtsel := .user, phase := .hoSeq .jump }

/-- The jump to byte address 0 of the user region, with `IRQ_EN` as given (R137, R56). -/
def jumpWithIrq (irq : Bool) (s : State) : Out :=
  .next { s.emit (.jump 0) with irqEn := irq, pc := some 0, phase := .user }

/-- The jump step (R137): `IRQ_EN` is disabled, or restored under `IRQ_AFTER_HANDOFF = RESTORED` (D18, log 20). -/
def handoffJump (s : State) : Out :=
  match s.cfg.irqAfter with
  | .disabled => jumpWithIrq false s
  | .restored =>
    match s.irqSave with
    | none => raise .unwrittenRead s
    | some saved => jumpWithIrq saved s

/-- The step at `HO_SEQ` (R133): the five steps in their order, with no poll between them. -/
def stepHoSeq (stage : HoStage) (s : State) : Out :=
  match stage with
  | .ledOff => handoffLedOff s
  | .detach => handoffDetach s
  | .irqOff => handoffIrqOff s
  | .relocate => handoffRelocate s
  | .jump => handoffJump s

end Sys2Proof.Machine
end

