-- ==== Sys2Proof/Machine/Sequencer.lean ====
section
/-! DEFINITION. The moves of the agents (10_state.md R15, R17): the step each phase defines, and one move of the agent
whose turn it is. -/

namespace Sys2Proof.Machine

/-- The sequencer's step at `PHASE = EXEC` (R85): fetch the command and execute it. -/
def stepExec (s : State) : Out :=
  match fetch s with
  | .error f => raise f s
  | .ok i => exec i s

/-- The step each phase defines (R17). -/
def stepPhase (s : State) : Out :=
  match s.phase with
  | .idle => stepIdle s
  | .rxPayload got => stepRxPayload got s
  | .exec => stepExec s
  | .pgRx got => stepPgRx got s
  | .pgWaitErase => stepPgWaitErase s
  | .pgFill done => stepPgFill done s
  | .pgWaitWrite => stepPgWaitWrite s
  | .waitTerm => stepWaitTerm s
  | .tx sent => stepTx sent s
  | .hoCheck => stepHoCheck s
  | .hoSeq stage => stepHoSeq stage s
  | .user => .next s

/-- The sequencer's move: it takes no further step once `FAULT` is set (R31) and has steps only in the modes and phases
of `State.sequencerRuns`. -/
def sequencerMove (s : State) : Out :=
  match s.fault with
  | some f => .fault f
  | none => if s.sequencerRuns then stepPhase s else .next s

/-- The move of one agent, or a device reset (R15, R161). Once `PHASE = USER` the run of the block is over (R179), and
only a reset brings it back (R139). -/
def move (t : Turn) (s : State) : Out :=
  match t with
  | .reset => .next (deviceReset s)
  | .sequencer => if s.phase = .user then .refused .userFirmware else sequencerMove s
  | .flash => if s.phase = .user then .refused .userFirmware else flashMove s
  | .host b => if s.phase = .user then .refused .userFirmware else .next (hostDeliver b s)

end Sys2Proof.Machine
end

