-- ==== Sys2Proof/Machine/Step.lean ====
section
/-! DEFINITION. One step of the machine (00_scope.md R5, R12): one move of the agent whose turn it is. -/

namespace Sys2Proof.Machine

/-- One step: refused when the configuration breaks R7 (R12), else the move whose turn it is. -/
def step (s : State) : Host.Outcome State Fault Refusal :=
  if s.cfg.legal then move s.nextTurn s.afterTurn else .refused .illegalConfig

/-- The state in which the very next step executes the instruction whose bits are `w`: its command byte in `CMD`, its
payload in `BUF[0..PLEN-1]`, the sequencer at `PHASE = EXEC`, able to step and next to move (log 22). -/
def State.withFetchWord (s : State) (nbits w : Nat) : State :=
  let bytes := tableWordBytes nbits w
  let cmd := payloadByte bytes 0
  { s with
    mode := .armed
    phase := .exec
    cmd := some cmd
    plen := some (payloadLen cmd)
    buf := payloadInto 0 ((bytes.drop 1).take (payloadLen cmd)) s.buf
    fault := none
    agenda := .sequencer :: s.agenda }

end Sys2Proof.Machine
end

