-- ==== Sys2Proof/Safety.lean ====
section
/-! DEFINITION. What claims about runs are stated in: the invariant of the machine, what a response sends, and when
the sequencer is next to move. -/

namespace Sys2Proof.Machine

/-- The configuration is legal, no fault is set, the sequencer moves next, and `rest` is the agenda after it. -/
def SequencerNext (s : State) (rest : List Turn) : Prop :=
  s.cfg.legal = true ∧ s.fault = none ∧ s.agenda = .sequencer :: rest

/-- The next `k` moves are the sequencer's and no host byte arrives between them (the premise `HOST_PROMPT` of R178 for
bytes already in `RXQ`); `rest` is the agenda after them. -/
def SequencerRunsFor (k : Nat) (s : State) (rest : List Turn) : Prop :=
  s.cfg.legal = true ∧ s.fault = none ∧ s.agenda = List.replicate k .sequencer ++ rest

/-- `BUF[0..n-1]` is written. -/
def BufWritten (s : State) (n : Nat) : Prop := ∀ j, j < n → (s.bufAt j).isSome = true

/-- No FC operation is outstanding, the user region is readable and the page buffer is unwritten (R30, R62). -/
def FcQuiet (s : State) : Prop := s.fcOp = .none ∧ s.rwwRd = true ∧ s.pageBuf = []

/-- The stored bytes have their one form and lie inside their spaces (R42). -/
def StorageOk (s : State) : Prop :=
  Memory.wf s.flash = true ∧ Store.below s.cfg.flashBytes s.flash = true
    ∧ Store.sorted s.buf = true ∧ Store.below s.cfg.bufBytes s.buf = true
    ∧ Store.sorted s.pageBuf = true ∧ Store.below s.cfg.pageBytes s.pageBuf = true

/-- `LOAD_ADDR` and `INACT` are within their widths (R22, R23). -/
def WidthsOk (s : State) : Prop := s.loadAddr < 2 ^ s.cfg.addrBits ∧ s.inact < 2 ^ s.cfg.inactBits

/-- The bytes that response descriptor `r` stands for in state `s` (R89), when all of them are there to be read. -/
def responsePayload (s : State) : Resp → Option (List Byte)
  | .none => some []
  | .byte v => some [v]
  | .const k n => if k + n ≤ 8 then some ((List.range n).map fun j => identByte s.cfg (k + j)) else none
  | .buffer n => s.bufBytes 0 n

/-- `RESP` is written and every byte it stands for can be read. -/
def RespOk (s : State) : Prop := ∃ r, s.resp = some r ∧ (responsePayload s r).isSome = true

/-- What the engine's phases rest on: the count and the address passed the host-contract check (R111). -/
def EngineOk (s : State) (count : Word) : Prop :=
  s.byteCount = some count ∧ count.toNat ≤ s.cfg.pageBytes ∧ count.toNat % 2 = 0 ∧ s.loadAddr % 2 = 0
    ∧ s.resp = some .none ∧ s.cmd.isSome = true ∧ s.prot = some (s.cfg.isProtected s.loadAddr)

/-- The engine works on an unprotected page, with the user region unreadable (R113, R114, R122). -/
def PageOpen (s : State) : Prop := s.cfg.isProtected s.loadAddr = false ∧ s.rwwRd = false

/-- The page buffer holds the first `n` received bytes at their page offsets and nothing else (R118, R123). -/
def PageFilled (s : State) (n : Nat) : Prop :=
  (∀ j, j < n → Store.read? s.pageBuf (s.cfg.pageOff (s.loadAddr + j)) = s.bufAt j)
    ∧ ∀ o, (∀ j, j < n → s.cfg.pageOff (s.loadAddr + j) ≠ o) → Store.read? s.pageBuf o = none

/-- Program memory holds the first `n` received bytes in the page of `LOAD_ADDR` (R48, R121). -/
def PageStored (s : State) (n : Nat) : Prop :=
  ∀ j, j < n →
    some (Memory.read s.flash (s.cfg.pageBase s.loadAddr + s.cfg.pageOff (s.loadAddr + j))) = s.bufAt j

/-- What holds in each phase of what the exchange, the engine and the flash controller have done so far. -/
def PhaseOk (s : State) : Prop :=
  match s.phase with
  | .idle => FcQuiet s
  | .rxPayload got =>
    FcQuiet s ∧ ∃ b, s.cmd = some b ∧ s.plen = some (payloadLen b) ∧ got ≤ payloadLen b ∧ BufWritten s got
  | .exec => FcQuiet s ∧ ∃ b, s.cmd = some b ∧ BufWritten s (payloadLen b)
  | .pgRx got =>
    ∃ count, EngineOk s count ∧ got ≤ count.toNat ∧ BufWritten s got ∧ s.pageBuf = []
      ∧ ((s.cfg.isProtected s.loadAddr = true ∧ s.fcOp = .none ∧ s.rwwRd = true)
        ∨ (PageOpen s ∧ (s.fcOp = .none ∨ s.fcOp = .erase (s.cfg.pageBase s.loadAddr))))
  | .pgWaitErase =>
    ∃ count, EngineOk s count ∧ BufWritten s count.toNat ∧ PageOpen s ∧ s.pageBuf = []
      ∧ (s.fcOp = .none ∨ s.fcOp = .erase (s.cfg.pageBase s.loadAddr))
  | .pgFill done =>
    ∃ count, EngineOk s count ∧ BufWritten s count.toNat ∧ PageOpen s ∧ s.fcOp = .none
      ∧ done ≤ count.toNat / 2 ∧ PageFilled s (2 * done)
  | .pgWaitWrite =>
    ∃ count, EngineOk s count ∧ BufWritten s count.toNat ∧ PageOpen s
      ∧ ((s.fcOp = .write (s.cfg.pageBase s.loadAddr) ∧ PageFilled s count.toNat)
        ∨ (s.fcOp = .none ∧ s.pageBuf = [] ∧ PageStored s count.toNat))
  | .waitTerm =>
    FcQuiet s ∧ s.cmd.isSome = true ∧ RespOk s ∧ ∃ t, s.tries = some t ∧ t < s.cfg.syncRetries
  | .tx sent => FcQuiet s ∧ ∃ r, s.resp = some r ∧ (responsePayload s r).isSome = true ∧ sent ≤ r.length + 1
  | .hoCheck => FcQuiet s
  | .hoSeq _ => FcQuiet s
  | .user => FcQuiet s

/-- `IRQ_EN` after the jump (R137). -/
def irqAfterJump (c : Cfg) : Bool :=
  match c.irqAfter with
  | .disabled => false
  | .restored => c.irqEn0

/-- What holds in each phase of the mode, the vector table switch, the interrupt enable, the outputs and the `pc`: all
at their entry values until the handoff sequence changes them in its order (R133 to R137, R141). -/
def HandoffOk (s : State) : Prop :=
  match s.phase with
  | .hoSeq .ledOff =>
    s.mode = .handoff ∧ s.vtsel = .boot ∧ s.ledEn = true ∧ s.xportAttached = true
      ∧ s.irqEn = s.cfg.irqEn0 ∧ s.irqSave = none ∧ s.pc = none
  | .hoSeq .detach =>
    s.mode = .handoff ∧ s.vtsel = .boot ∧ s.ledEn = false ∧ s.xportAttached = true
      ∧ s.irqEn = s.cfg.irqEn0 ∧ s.irqSave = none ∧ s.pc = none
  | .hoSeq .irqOff =>
    s.mode = .handoff ∧ s.vtsel = .boot ∧ s.ledEn = false ∧ s.xportAttached = false
      ∧ s.irqEn = s.cfg.irqEn0 ∧ s.irqSave = none ∧ s.pc = none
  | .hoSeq .relocate =>
    s.mode = .handoff ∧ s.vtsel = .boot ∧ s.ledEn = false ∧ s.xportAttached = false
      ∧ s.irqEn = false ∧ s.irqSave = some s.cfg.irqEn0 ∧ s.pc = none
  | .hoSeq .jump =>
    s.mode = .handoff ∧ s.vtsel = .user ∧ s.ledEn = false ∧ s.xportAttached = false
      ∧ s.irqEn = false ∧ s.irqSave = some s.cfg.irqEn0 ∧ s.pc = none
  | .user =>
    s.mode = .handoff ∧ s.vtsel = .user ∧ s.ledEn = false ∧ s.xportAttached = false
      ∧ s.irqEn = irqAfterJump s.cfg ∧ s.irqSave = some s.cfg.irqEn0 ∧ s.pc = some 0
  | _ =>
    s.mode = .armed ∧ s.vtsel = .boot ∧ s.ledEn = true ∧ s.xportAttached = true
      ∧ s.irqEn = s.cfg.irqEn0 ∧ s.irqSave = none ∧ s.pc = none

/-- The only fault a run can raise is the host's breach of contract, by a command under execution (R145). -/
def FaultOk (s : State) : Prop := s.fault = none ∨ (s.fault = some .hostContract ∧ s.phase = .exec)

/-- The invariant of the machine: it holds in every entry state (R40, R164) and every step keeps it. -/
def Inv (s : State) : Prop :=
  s.cfg.legal = true ∧ StorageOk s ∧ WidthsOk s ∧ PhaseOk s ∧ HandoffOk s ∧ FaultOk s

/-! Runs. -/

/-- `k` steps, stopping at the first fault or refusal. -/
def runFor : Nat → State → Out
  | 0, s => .next s
  | k + 1, s =>
    match step s with
    | .next t => runFor k t
    | .fault f => .fault f
    | .refused r => .refused r

/-- The items a framed response appends to `TXS` (R73): in-sync, the payload, ok, the release mark. -/
def framed (payload : List Byte) : List TxItem :=
  .byte inSync :: payload.map .byte ++ [.byte okByte, .release]

/-- What a command needs of the state to be executed without leaving the host contract (R104); PROG_PAGE, whose
exchange has the engine's phases in it, is not one of these. -/
def AnswersAtOnce (s : State) : Instr → Prop
  | .readPage _ count => count.toNat ≤ s.cfg.pageBytes ∧ s.rwwRd = true
  | .progPage _ _ => False
  | _ => True

/-- The response payload of a command (R97 to R108, E2): exactly these bytes, where the spec gives their values. -/
def ResponseBytes (s : State) : Instr → List Byte → Prop
  | .getParameter id, ps => ps = [identByte s.cfg (paramOffset id)]
  | .universal subop _ offset _, ps =>
    if subop = subReadSignature then ∃ v, ps = [v] ∧ (offset.toNat < 8 → v = identByte s.cfg offset.toNat)
    else ps = []
  | .readPage _ count, ps =>
    ps.length = count.toNat ∧ ∀ j, j < count.toNat →
      addressAfter s.cfg s.loadAddr j < s.cfg.flashBytes →
        ps[j]? = some (Memory.read s.flash (addressAfter s.cfg s.loadAddr j))
  | .readSign, ps => ps = [s.cfg.sig0, s.cfg.sig1, s.cfg.sig2]
  | _, ps => ps = []

/-- The number of bytes in a command's response payload (E2). -/
def responseLength : Instr → Nat
  | .getParameter _ => 1
  | .universal subop _ _ _ => if subop = subReadSignature then 1 else 0
  | .readPage _ count => count.toNat
  | .readSign => 3
  | _ => 0

/-- `LOAD_ADDR` after the exchange of a command (R101, R104, E3). -/
def loadAddrAfter (s : State) : Instr → Nat
  | .loadAddress w => byteAddress s.cfg w
  | .readPage _ count => addressAfter s.cfg s.loadAddr count.toNat
  | _ => s.loadAddr

/-- `INACT` after the exchange of a command (R82, R89, R107): 0 from the command poll, or the short delay when the
command is LEAVE or consumes a request still pending under `ON_FRAMED`. -/
def inactAfter (s : State) (i : Instr) : Nat :=
  if i = .leave ∨ (s.cfg.leavePoint = .onFramed ∧ s.leaveReq = true) then s.cfg.leaveDelay else 0

/-- The sequencer moves of an exchange: the command poll and one move a payload byte, the end of the receive, the
execution, the terminator poll, and one move a response byte. -/
def exchangeMoves (c : Cfg) (i : Instr) : Nat := (encode c i).length + responseLength i + 5

end Sys2Proof.Machine
end

