-- ==== Sys2Proof/Certificates/Slice0/Obligations.lean ====
section
/-! DEFINITION. The statements for the provers, from the numbered rules of spec/. Each is about one step, one command
or one run of moves, from every state its hypotheses admit. Where a statement rests on a decision the spec marks as its
own (D<n>) or on an entry of the assumption log, its docstring says so. -/

open Sys2Proof Sys2Proof.Machine

/-! Encoding. -/

/-- Decoding the encoding of any well-formed command, at every operand value, gives that command back and leaves the
following bytes (30_encoding.md sections 1 and 2; field layouts by D1, D6). -/
def Obligations.DecodeOfEncode : Prop :=
  ∀ (c : Cfg) (i : Instr) (rest : List Byte), c.commandBytesOk = true → i.wf c = true →
    decode c (encode c i ++ rest) = .ok (i, rest)

/-- What decodes is the encoding of a well-formed command, whatever the configuration: no bit of a frame is dropped
and no frame is read as a neighbour's (30_encoding.md sections 1, 2 and 5). -/
def Obligations.EncodeOfDecode : Prop :=
  ∀ (c : Cfg) (bytes rest : List Byte) (i : Instr), decode c bytes = .ok (i, rest) →
    i.wf c = true ∧ encode c i ++ rest = bytes

/-- R65: every one of the 256 command bytes decodes, as soon as its payload is there. -/
def Obligations.EveryCommandByteDecodes : Prop :=
  ∀ (c : Cfg) (b : Byte) (rest : List Byte), payloadLen b ≤ rest.length →
    ∃ i, decode c (b :: rest) = .ok (i, rest.drop (payloadLen b))

/-- Frames of the spec's tables, byte by byte, at least one for each command, stand for the commands the spec says (30_encoding.md sections 1 and 6,
95_test_vectors.md sections 1 to 3; command bytes by D1 to D3). -/
def Obligations.SpecFramesDecode : Prop :=
  decode Config.cfgA [0x41, 0x80, 0x20] = .ok (.getParameter 0x80, [0x20])
    ∧ decode Config.cfgA [0x42, 1, 2, 3, 4, 5, 6, 7, 8, 9, 10, 11, 12, 13, 14, 15, 16, 17, 18, 19, 20, 0x20]
        = .ok (.setDevice [1, 2, 3, 4, 5, 6, 7, 8, 9, 10, 11, 12, 13, 14, 15, 16, 17, 18, 19, 20], [0x20])
    ∧ decode Config.cfgA [0x45, 1, 2, 3, 4, 5, 0x20] = .ok (.setDeviceExt [1, 2, 3, 4, 5], [0x20])
    ∧ decode Config.cfgA [0x55, 0x10, 0x00, 0x20] = .ok (.loadAddress 0x0010, [0x20])
    ∧ decode Config.cfgA [0x56, 0x30, 0xFF, 0x02, 0xFF, 0x20] = .ok (.universal 0x30 0xFF 2 0xFF, [0x20])
    ∧ decode Config.cfgA [0x64, 0x00, 0x01, 0x02, 0xAA, 0xBB] = .ok (.progPage 0 0x0102, [0xAA, 0xBB])
    ∧ decode Config.cfgA [0x74, 0x5A, 0x00, 0x04, 0x20] = .ok (.readPage 0x5A 4, [0x20])
    ∧ decode Config.cfgA [0x75, 0x20] = .ok (.readSign, [0x20])
    ∧ decode Config.cfgA [0x30, 0x20] = .ok (.getSync, [0x20])
    ∧ decode Config.cfgA [0x51, 0x20] = .ok (.leave, [0x20])
    ∧ decode Config.cfgA [0x20, 0x20] = .ok (.unrecognized 0x20, [0x20])
    ∧ decode Config.cfgA [0x41] = .error (.shortPayload 0x41)

/-! The commands. -/

/-- GET_PARAMETER: the byte it answers for each id (41_commands.md, E9; ids below 0x80 by D4, log 14), and nothing
else changes. -/
def Obligations.GetParameterResult : Prop :=
  ∀ (id : Byte) (s : State),
    exec (.getParameter id) s = .next { s with
      resp := some (.byte (if id = 0x80 then 0x02 else if id = 0x81 then 0x01 else if id = 0x82 then 0x10
        else if id = 0x98 then 0x03 else 0x00))
      tries := some 0
      phase := .waitTerm }

/-- R98: SET_DEVICE discards its 20 payload bytes; every payload gives the same result. -/
def Obligations.SetDeviceDiscardsPayload : Prop :=
  ∀ (c : Cfg) (p : List Byte) (s : State),
    encode c (.setDevice p) = 0x42 :: p ∧ ((Instr.setDevice p).wf c = true ↔ p.length = 20)
      ∧ exec (.setDevice p) s = .next { s with resp := some .none, tries := some 0, phase := .waitTerm }

/-- R99: SET_DEVICE_EXT discards its 5 payload bytes; every payload gives the same result. -/
def Obligations.SetDeviceExtDiscardsPayload : Prop :=
  ∀ (c : Cfg) (p : List Byte) (s : State),
    encode c (.setDeviceExt p) = 0x45 :: p ∧ ((Instr.setDeviceExt p).wf c = true ↔ p.length = 5)
      ∧ exec (.setDeviceExt p) s = .next { s with resp := some .none, tries := some 0, phase := .waitTerm }

/-- UNIVERSAL: the read-signature sub-opcode answers the `IDENT` byte at its offset, a drawn byte beyond the block
(D17, log 2: any value, so only that there is one is stated); every other sub-opcode has no payload effect. -/
def Obligations.UniversalResult : Prop :=
  ∀ (subop x1 offset x3 : Byte) (s : State),
    (subop ≠ 0x30 → exec (.universal subop x1 offset x3) s
        = .next { s with resp := some .none, tries := some 0, phase := .waitTerm })
    ∧ (subop = 0x30 → offset.toNat < 8 → exec (.universal subop x1 offset x3) s
        = .next { s with
            resp := some (.byte (identByte s.cfg offset.toNat)), tries := some 0, phase := .waitTerm })
    ∧ (subop = 0x30 → 8 ≤ offset.toNat → ∃ v d, exec (.universal subop x1 offset x3) s
        = .next { s with resp := some (.byte v), tries := some 0, phase := .waitTerm, draws := d })

/-- LOAD_ADDRESS: `LOAD_ADDR` becomes the word address doubled, in its width (D5, log 15); it is even whenever the
width is not zero, and nothing but the response changes beside it. -/
def Obligations.LoadAddressResult : Prop :=
  ∀ (w : Word) (s : State),
    exec (.loadAddress w) s = .next { s with
      loadAddr := 2 * w.toNat % 2 ^ s.cfg.addrBits, resp := some .none, tries := some 0, phase := .waitTerm }
    ∧ (1 ≤ s.cfg.addrBits → 2 * w.toNat % 2 ^ s.cfg.addrBits % 2 = 0)

/-- R105: READ_SIGN answers the first three bytes of the Identity/Version Block. -/
def Obligations.ReadSignResult : Prop :=
  ∀ s : State,
    exec .readSign s = .next { s with resp := some (.const 0 3), tries := some 0, phase := .waitTerm }
    ∧ responsePayload s (.const 0 3) = some [s.cfg.sig0, s.cfg.sig1, s.cfg.sig2]

/-- UNRECOGNIZED and GET_SYNC have no effect but the empty response (41_commands.md; that GET_SYNC is the sentinel's is
the spec's own inference, D2). -/
def Obligations.SentinelCommandsNoEffect : Prop :=
  ∀ (b : Byte) (s : State),
    exec (.unrecognized b) s = .next { s with resp := some .none, tries := some 0, phase := .waitTerm }
    ∧ exec .getSync s = .next { s with resp := some .none, tries := some 0, phase := .waitTerm }

/-- LEAVE loads the short delay at execution, or under `ON_FRAMED` sets the request the framed response consumes
(41_commands.md; mechanism and point by D9, log 16). -/
def Obligations.LeaveResult : Prop :=
  ∀ s : State,
    (s.cfg.leavePoint = .onDispatch → exec .leave s = .next { s with
      inact := s.cfg.leaveDelay, resp := some .none, tries := some 0, phase := .waitTerm })
    ∧ (s.cfg.leavePoint = .onFramed → exec .leave s = .next { s with
      leaveReq := true, resp := some .none, tries := some 0, phase := .waitTerm })

/-- READ_PAGE within the contract, with the user region readable: the bytes of program memory from `LOAD_ADDR` on are
in `BUF[0..count-1]`, the rest of `BUF` is as before, `LOAD_ADDR` is advanced, and nothing else changes but the
counter of drawn bytes (41_commands.md, E3; widths by D5, bytes at or above `FLASH_BYTES` drawn by D17, log 2). -/
def Obligations.ReadPageResult : Prop :=
  ∀ (x : Byte) (count : Word) (s : State), count.toNat ≤ s.cfg.pageBytes → s.rwwRd = true →
    ∃ buf d, exec (.readPage x count) s = .next { s with
        byteCount := some count, buf := buf, draws := d
        loadAddr := (s.loadAddr + count.toNat) % 2 ^ s.cfg.addrBits
        resp := some (.buffer count.toNat), tries := some 0, phase := .waitTerm }
      ∧ (∀ j, j < count.toNat → ∃ b, Store.read? buf j = some b
          ∧ ((s.loadAddr + j) % 2 ^ s.cfg.addrBits < s.cfg.flashBytes →
              b = Memory.read s.flash ((s.loadAddr + j) % 2 ^ s.cfg.addrBits)))
      ∧ ∀ j, count.toNat ≤ j → Store.read? buf j = Store.read? s.buf j

/-- PROG_PAGE within the contract on an unprotected page starts the erase of that page and goes on to the page data at
once (42_flash_engine.md section 1; `RWW_RD` by D16, the contract by D7). -/
def Obligations.ProgPageStartsErase : Prop :=
  ∀ (x : Byte) (count : Word) (s : State),
    count.toNat ≤ s.cfg.pageBytes → count.toNat % 2 = 0 → s.loadAddr % 2 = 0 →
    s.cfg.isProtected s.loadAddr = false → s.fcOp = .none →
    exec (.progPage x count) s = .next { s with
      byteCount := some count, resp := some .none, prot := some false
      fcOp := .erase (s.loadAddr - s.loadAddr % s.cfg.pageBytes), rwwRd := false, phase := .pgRx 0 }

/-- PROG_PAGE within the contract on a protected page starts no flash operation and still goes on to the page data
(42_flash_engine.md section 1; the contract by D7). -/
def Obligations.ProgPageProtectedStartsNothing : Prop :=
  ∀ (x : Byte) (count : Word) (s : State),
    count.toNat ≤ s.cfg.pageBytes → count.toNat % 2 = 0 → s.loadAddr % 2 = 0 →
    s.cfg.isProtected s.loadAddr = true →
    exec (.progPage x count) s = .next { s with
      byteCount := some count, resp := some .none, prot := some true, phase := .pgRx 0 }

/-- A page command outside the host contract raises `HOST_CONTRACT` before any receive, read or flash effect: only
`BYTE_COUNT` and the sticky fault are written (41_commands.md; the fault is decision D7, log 17; that raising it answers a
next state is log 6). -/
def Obligations.HostContractBreachFaults : Prop :=
  ∀ (x : Byte) (count : Word) (s : State),
    (s.cfg.pageBytes < count.toNat ∨ count.toNat % 2 ≠ 0 ∨ s.loadAddr % 2 ≠ 0 →
      exec (.progPage x count) s = .next { s with byteCount := some count, fault := some .hostContract })
    ∧ (s.cfg.pageBytes < count.toNat →
      exec (.readPage x count) s = .next { s with byteCount := some count, fault := some .hostContract })

/-- The frame of every command's execution: what its "State written" line in 41_commands.md does not name is
unchanged. No command's execution writes a byte of program memory or of the page buffer, sends or takes a byte, records
an event or touches the mode, the vector switch, the interrupt enable or the outputs. -/
def Obligations.CommandFrame : Prop :=
  ∀ (i : Instr) (s t : State), exec i s = .next t →
    (t.cfg = s.cfg ∧ t.mode = s.mode ∧ t.pc = s.pc ∧ t.cmd = s.cmd ∧ t.plen = s.plen
      ∧ (∀ a, Memory.read t.flash a = Memory.read s.flash a)
      ∧ (∀ o, Store.read? t.pageBuf o = Store.read? s.pageBuf o)
      ∧ t.vtsel = s.vtsel ∧ t.irqEn = s.irqEn ∧ t.irqSave = s.irqSave ∧ t.ledEn = s.ledEn
      ∧ t.xportAttached = s.xportAttached ∧ t.rxq = s.rxq ∧ t.txs = s.txs ∧ t.events = s.events
      ∧ t.agenda = s.agenda ∧ t.turns = s.turns)
    ∧ ((∀ w, i ≠ .loadAddress w) → (∀ x n, i ≠ .readPage x n) → t.loadAddr = s.loadAddr)
    ∧ (i ≠ .leave → t.inact = s.inact ∧ t.leaveReq = s.leaveReq)
    ∧ ((∀ x n, i ≠ .progPage x n) → t.prot = s.prot ∧ t.fcOp = s.fcOp ∧ t.rwwRd = s.rwwRd)
    ∧ ((∀ x n, i ≠ .progPage x n) → (∀ x n, i ≠ .readPage x n) →
        t.byteCount = s.byteCount ∧ t.fault = s.fault)
    ∧ (∀ j, (∀ x n, i = .readPage x n → n.toNat ≤ j) → t.bufAt j = s.bufAt j)

/-! A step at `EXEC`, and the dispatcher's steps. -/

/-- A step runs the decoded instruction: at `PHASE = EXEC`, with the command byte and its payload in `CMD` and `BUF`
decoding to `i`, the sequencer's step is `exec i` at the state with its move taken off the agenda (40_dispatcher.md
section 3; agenda: log 1). -/
def Obligations.StepRunsDecoded : Prop :=
  ∀ (s : State) (ag : List Turn) (b : Byte) (p : List Byte) (i : Instr),
    SequencerNext s ag → s.mode = .armed → s.phase = .exec → s.cmd = some b →
    s.bufBytes 0 (payloadLen b) = some p → decode s.cfg (b :: p) = .ok (i, []) → i.wf s.cfg = true →
    step s = exec i { s with agenda := ag }

/-- R82, R83: a byte polled in `IDLE` is a command byte whatever its value: `INACT` is cleared, `CMD` takes the byte,
`PLEN` its payload length, which is 0 for a byte the Command Table does not list. -/
def Obligations.PolledByteStartsExchange : Prop :=
  ∀ (s : State) (ag : List Turn) (b : Byte) (q : List Byte),
    SequencerNext s ag → s.mode = .armed → s.phase = .idle → s.rxq = b :: q →
    step s = .next { s with
      agenda := ag, rxq := q, inact := 0, cmd := some b, plen := some (payloadLen b), phase := .rxPayload 0 }
    ∧ (b ∉ [0x41, 0x42, 0x45, 0x55, 0x56, 0x64, 0x74, 0x75] → payloadLen b = 0)

/-- An empty poll in `IDLE` decrements `INACT`, wrapping from 0 to its maximum, and enters the firmware check exactly
when the result is 0 (40_dispatcher.md section 1; order and wrap by C3, D8, log 16). -/
def Obligations.IdleIterationCountsDown : Prop :=
  ∀ (s : State) (ag : List Turn),
    SequencerNext s ag → s.mode = .armed → s.phase = .idle → s.rxq = [] → s.inact < 2 ^ s.cfg.inactBits →
    step s = .next { s with
      agenda := ag
      inact := if s.inact = 0 then 2 ^ s.cfg.inactBits - 1 else s.inact - 1
      phase := if s.inact = 1 then .hoCheck else .idle }

/-- The timeout period: with a silent host the firmware check comes after exactly `INACT` idle iterations, after
`2^INACT_BITS` of them when `INACT` is 0, and not before (40_dispatcher.md section 1, E7; D8, log 16). -/
def Obligations.IdleTimeoutPeriod : Prop :=
  ∀ (s : State) (ag : List Turn) (n : Nat),
    n = (if s.inact = 0 then 2 ^ s.cfg.inactBits else s.inact) → s.inact < 2 ^ s.cfg.inactBits →
    SequencerRunsFor n s ag → s.mode = .armed → s.phase = .idle → s.rxq = [] →
    runFor n s = .next { s with agenda := ag, inact := 0, phase := .hoCheck }
    ∧ ∀ k, k < n → ∃ t, runFor k s = .next t ∧ t.phase = .idle

/-- The payload receive takes one byte a step into the next cell of `BUF`, holds while none is there, and moves to
`EXEC` when the payload is complete, at once when it is empty (40_dispatcher.md section 2; a hold as a move that changes
nothing is log 10, the end of the receive as a move of its own is log 9). -/
def Obligations.PayloadReceiveStep : Prop :=
  ∀ (s : State) (ag : List Turn) (got n : Nat),
    SequencerNext s ag → s.mode = .armed → s.phase = .rxPayload got → s.plen = some n → n ≤ 20 →
    (got < n → s.rxq = [] → step s = .next { s with agenda := ag })
    ∧ (∀ b q, got < n → s.rxq = b :: q → step s = .next { s with
        agenda := ag, rxq := q, buf := Store.put got b s.buf, phase := .rxPayload (got + 1) })
    ∧ (n ≤ got → step s = .next { s with agenda := ag, phase := .exec })

/-- A whole payload waiting in `RXQ` ends up in `BUF[0..PLEN-1]`, in order, and the rest of `BUF` keeps its contents
(40_dispatcher.md section 2; the number of moves is log 9). -/
def Obligations.PayloadReceiveRun : Prop :=
  ∀ (s : State) (ag : List Turn) (p rest : List Byte),
    SequencerRunsFor (p.length + 1) s ag → s.mode = .armed → s.phase = .rxPayload 0 →
    s.plen = some p.length → p.length ≤ 20 → s.rxq = p ++ rest →
    ∃ t, runFor (p.length + 1) s = .next t
      ∧ t = { s with agenda := ag, rxq := rest, phase := .exec, buf := t.buf }
      ∧ t.bufBytes 0 p.length = some p ∧ ∀ j, p.length ≤ j → t.bufAt j = s.bufAt j

/-- The terminator poll: the terminator starts the response; any other byte is consumed, recorded and ends the exchange
with nothing sent; an empty poll counts and the `SYNC_RETRIES`-th ends the exchange (40_dispatcher.md section 4; D10,
D11, log 19). -/
def Obligations.TerminatorPoll : Prop :=
  ∀ (s : State) (ag : List Turn) (c : Byte) (n : Nat),
    SequencerNext s ag → s.mode = .armed → s.phase = .waitTerm → s.cmd = some c → s.tries = some n →
    (∀ q, s.rxq = 0x20 :: q → step s = .next { s with agenda := ag, rxq := q, phase := .tx 0 })
    ∧ (∀ b q, s.rxq = b :: q → b ≠ 0x20 → step s = .next { s with
        agenda := ag, rxq := q, events := s.events ++ [.frameMismatch c b], phase := .idle
        leaveReq := if s.cfg.leavePoint = .onFramed then false else s.leaveReq })
    ∧ (s.rxq = [] → n + 1 ≠ s.cfg.syncRetries → step s = .next { s with
        agenda := ag, tries := some (n + 1) })
    ∧ (s.rxq = [] → n + 1 = s.cfg.syncRetries → step s = .next { s with
        agenda := ag, tries := some (n + 1), events := s.events ++ [.frameTimeout c], phase := .idle
        leaveReq := if s.cfg.leavePoint = .onFramed then false else s.leaveReq })

/-- With no byte from the host, the terminator wait ends after exactly `SYNC_RETRIES` polls: the timeout is recorded,
nothing is sent, and every effect of the command stands (40_dispatcher.md section 4; D10, D12). -/
def Obligations.TerminatorTimeoutRun : Prop :=
  ∀ (s : State) (ag : List Turn) (c : Byte),
    SequencerRunsFor s.cfg.syncRetries s ag → s.mode = .armed → s.phase = .waitTerm → s.cmd = some c →
    s.tries = some 0 → s.rxq = [] →
    runFor s.cfg.syncRetries s = .next { s with
      agenda := ag, tries := some s.cfg.syncRetries, events := s.events ++ [.frameTimeout c], phase := .idle
      leaveReq := if s.cfg.leavePoint = .onFramed then false else s.leaveReq }

/-- Once the terminator matched, exactly in-sync, the payload of `RESP`, ok and the release mark are sent, one byte a
step, and the exchange ends in `IDLE`; under `ON_FRAMED` a pending `LEAVE_REQ` is consumed there and loads `LEAVE_DELAY`
into `INACT`; nothing else changes (30_encoding.md section 3, 40_dispatcher.md section 5; `LEAVE_REQ` by D9, log 16). An
exchange whose terminator did not match, or did not arrive within its polls, ends in `IDLE` with no byte sent (the polls
by D10, log 19). -/
def Obligations.ResponseFrame : Prop :=
  ∀ (s : State) (ag : List Turn),
    (∀ (r : Resp) (ps : List Byte),
      SequencerRunsFor (ps.length + 2) s ag → s.mode = .armed → s.phase = .tx 0 → s.resp = some r →
      responsePayload s r = some ps →
      runFor (ps.length + 2) s = .next { s with
        agenda := ag, txs := s.txs ++ framed ps, phase := .idle
        inact := if s.cfg.leavePoint = .onFramed ∧ s.leaveReq = true then s.cfg.leaveDelay else s.inact
        leaveReq := if s.cfg.leavePoint = .onFramed then false else s.leaveReq })
    ∧ (∀ (b c : Byte) (q : List Byte),
      SequencerNext s ag → s.mode = .armed → s.phase = .waitTerm → s.cmd = some c →
      s.rxq = b :: q → b ≠ terminator → ∃ t, step s = .next t ∧ t.txs = s.txs ∧ t.phase = .idle)
    ∧ (∀ c : Byte,
      SequencerRunsFor s.cfg.syncRetries s ag → s.mode = .armed → s.phase = .waitTerm → s.cmd = some c →
      s.tries = some 0 → s.rxq = [] →
      ∃ t, runFor s.cfg.syncRetries s = .next t ∧ t.txs = s.txs ∧ t.phase = .idle)

/-- One whole exchange under `HOST_PROMPT`: a command whose frame waits in `RXQ` is polled, received, executed and
answered with exactly its documented bytes; the frame and nothing else is consumed, no event is recorded, no byte of
program memory changes; `LOAD_ADDR` is what the command makes it, and `INACT` is 0, or `LEAVE_DELAY` when the exchange
armed the delay (40_dispatcher.md section 5, E1, E2, E3; R178 as premise; the delay by D9, log 16; the number of moves by
log 9). PROG_PAGE has statements of its own. -/
def Obligations.ExchangeAnswered : Prop :=
  ∀ (s : State) (ag : List Turn) (i : Instr) (rest : List Byte),
    i.wf s.cfg = true → AnswersAtOnce s i → SequencerRunsFor (exchangeMoves s.cfg i) s ag →
    s.mode = .armed → s.phase = .idle → s.rxq = requestFrame s.cfg i [] ++ rest →
    ∃ t ps, runFor (exchangeMoves s.cfg i) s = .next t ∧ ResponseBytes s i ps
      ∧ t.txs = s.txs ++ framed ps ∧ t.rxq = rest ∧ t.phase = .idle ∧ t.mode = .armed ∧ t.fault = none
      ∧ t.events = s.events ∧ t.flash = s.flash ∧ t.agenda = ag ∧ t.loadAddr = loadAddrAfter s i
      ∧ t.inact = inactAfter s i ∧ t.leaveReq = (if s.cfg.leavePoint = .onFramed then false else s.leaveReq)

/-- No byte is sent outside `PHASE = TX`, whoever moves, from any state (40_dispatcher.md section 5); a device reset
empties the stream. -/
def Obligations.SendsOnlyInTx : Prop :=
  ∀ s t : State, step s = .next t → (∀ n, s.phase ≠ .tx n) → s.nextTurn ≠ .reset → t.txs = s.txs

/-- `INACT` changes only by an idle poll, by LEAVE at execution under `ON_DISPATCH`, or by the end of a framed response
under `ON_FRAMED` with `LEAVE_REQ` set (40_dispatcher.md section 5, the spec's own inference), and by a device reset. -/
def Obligations.InactChangesOnlyHere : Prop :=
  ∀ s t : State, step s = .next t → t.inact ≠ s.inact →
    s.nextTurn = .reset ∨ (s.nextTurn = .sequencer ∧ (s.phase = .idle
      ∨ (s.phase = .exec ∧ fetch s = .ok .leave ∧ s.cfg.leavePoint = .onDispatch)
      ∨ ((∃ n, s.phase = .tx n) ∧ s.cfg.leavePoint = .onFramed ∧ s.leaveReq = true ∧ t.phase = .idle)))

/-! The Flash Programming Engine and the flash controller. -/

/-- The page data is received whether or not the page is protected, one byte a step into the next cell of `BUF`, holding
while none is there; afterwards the engine stops on a protected page and waits for the erase on another
(42_flash_engine.md section 1; a hold as a move that changes nothing is log 10, the end of the receive as a move of its
own is log 9). -/
def Obligations.PageDataReceive : Prop :=
  ∀ (s : State) (ag : List Turn) (got : Nat) (count : Word) (prot : Bool),
    SequencerNext s ag → s.mode = .armed → s.phase = .pgRx got → s.byteCount = some count →
    s.prot = some prot → count.toNat ≤ s.cfg.pageBytes →
    (got < count.toNat → s.rxq = [] → step s = .next { s with agenda := ag })
    ∧ (∀ b q, got < count.toNat → s.rxq = b :: q → step s = .next { s with
        agenda := ag, rxq := q, buf := Store.put got b s.buf, phase := .pgRx (got + 1) })
    ∧ (count.toNat ≤ got → prot = false → step s = .next { s with agenda := ag, phase := .pgWaitErase })
    ∧ (count.toNat ≤ got → prot = true → ∃ t, step s = .next t ∧ t.phase = .waitTerm ∧ t.tries = some 0)

/-- R116: on a protected page the engine records the event and returns, with no other effect: no flash operation, and
`FLASH`, `PAGEBUF`, `FC_OP`, `RWW_RD` unchanged. -/
def Obligations.ProtectedStop : Prop :=
  ∀ (s : State) (ag : List Turn) (got : Nat) (count : Word),
    SequencerNext s ag → s.mode = .armed → s.phase = .pgRx got → s.byteCount = some count →
    s.prot = some true → count.toNat ≤ got →
    step s = .next { s with
      agenda := ag, events := s.events ++ [.writeProtected s.loadAddr count]
      tries := some 0, phase := .waitTerm }

/-- The erase wait holds while the flash controller is busy and goes on to the fill when it is not (42_flash_engine.md
section 1; a hold as a move that changes nothing is log 10). -/
def Obligations.EraseWait : Prop :=
  ∀ (s : State) (ag : List Turn),
    SequencerNext s ag → s.mode = .armed → s.phase = .pgWaitErase →
    (s.fcOp ≠ .none → step s = .next { s with agenda := ag })
    ∧ (s.fcOp = .none → step s = .next { s with agenda := ag, phase := .pgFill 0 })

/-- The fill puts word `d` of the page data at its page offset, low byte at the even offset, and changes no other byte
of the page buffer; after the last word the commit of the page of `LOAD_ADDR` starts (42_flash_engine.md section 1;
packing and wrap by D14, log 24; the commit as a move of its own is log 9). -/
def Obligations.FillThenCommit : Prop :=
  ∀ (s : State) (ag : List Turn) (d : Nat) (count : Word),
    SequencerNext s ag → s.mode = .armed → s.phase = .pgFill d → s.byteCount = some count →
    s.fcOp = .none → s.loadAddr % 2 = 0 →
    (∀ lo hi, d < count.toNat / 2 → s.bufAt (2 * d) = some lo → s.bufAt (2 * d + 1) = some hi →
      ∃ t, step s = .next t
        ∧ t = { s with agenda := ag, pageBuf := t.pageBuf, phase := .pgFill (d + 1) }
        ∧ Store.read? t.pageBuf ((s.loadAddr + 2 * d) % s.cfg.pageBytes) = some lo
        ∧ Store.read? t.pageBuf ((s.loadAddr + 2 * d) % s.cfg.pageBytes + 1) = some hi
        ∧ ∀ o, o ≠ (s.loadAddr + 2 * d) % s.cfg.pageBytes →
            o ≠ (s.loadAddr + 2 * d) % s.cfg.pageBytes + 1 →
            Store.read? t.pageBuf o = Store.read? s.pageBuf o)
    ∧ (count.toNat / 2 ≤ d → step s = .next { s with
        agenda := ag, fcOp := .write (s.loadAddr - s.loadAddr % s.cfg.pageBytes), rwwRd := false
        phase := .pgWaitWrite })

/-- The write wait holds while the flash controller is busy; then reading is enabled and the terminator wait begins
(42_flash_engine.md section 1, rules R120 and R121; a hold as a move that changes nothing is log 10). -/
def Obligations.WriteWaitThenReturn : Prop :=
  ∀ (s : State) (ag : List Turn),
    SequencerNext s ag → s.mode = .armed → s.phase = .pgWaitWrite →
    (s.fcOp ≠ .none → step s = .next { s with agenda := ag })
    ∧ (s.fcOp = .none → step s = .next { s with
        agenda := ag, rwwRd := true, tries := some 0, phase := .waitTerm })

/-- What starting a commit and enabling reading do to the state, and the fault of either while an operation is
outstanding (42_flash_engine.md section 2; `RWW_RD` by D16, log 25; that raising a fault answers a next state with it set
is log 6). Program memory is unchanged by both. -/
def Obligations.CommitAndEnableRead : Prop :=
  ∀ (p : Nat) (s : State),
    (s.fcOp = .none → commitStart p s .next = .next { s with fcOp := .write p, rwwRd := false })
    ∧ (s.fcOp = .none → enableRead s .next = .next { s with rwwRd := true })
    ∧ (s.fcOp ≠ .none → commitStart p s .next = .next { s with fault := some .fcBusy }
        ∧ enableRead s .next = .next { s with fault := some .fcBusy })

/-- Starting an erase or filling a word while an operation is outstanding raises `FC_BUSY`; started in turn they do
what 42_flash_engine.md section 2 says (`RWW_RD` by D16, log 25; packing by D14, log 24; that raising a fault answers a
next state with it set is log 6). -/
def Obligations.EraseStartAndFill : Prop :=
  ∀ (p a : Nat) (w : Word) (s : State),
    (s.fcOp = .none → eraseStart p s .next = .next { s with fcOp := .erase p, rwwRd := false })
    ∧ (s.fcOp ≠ .none → eraseStart p s .next = .next { s with fault := some .fcBusy }
        ∧ fillWord a w s .next = .next { s with fault := some .fcBusy })
    ∧ (s.fcOp = .none → a % 2 = 0 → ∃ t, fillWord a w s .next = .next t
        ∧ t = { s with pageBuf := t.pageBuf }
        ∧ (∀ o, Store.read? t.pageBuf o =
            if o = a % s.cfg.pageBytes + 1 then some (hiByte w)
            else if o = a % s.cfg.pageBytes then some (loByte w) else Store.read? s.pageBuf o))

/-- R124: erase completion makes every byte of the page the erased pattern and leaves every other byte, then the flash
controller is idle. It is the flash controller's move and can come whenever that moves. -/
def Obligations.EraseCompletion : Prop :=
  ∀ (s : State) (p : Nat), s.cfg.legal = true → s.phase ≠ .user → s.nextTurn = .flash →
    s.fcOp = .erase p → p + s.cfg.pageBytes ≤ s.cfg.flashBytes →
    ∃ t, step s = .next t ∧ t = { s.afterTurn with flash := t.flash, fcOp := .none }
      ∧ ∀ a, Memory.read t.flash a
          = if p ≤ a ∧ a < p + s.cfg.pageBytes then 0xFF else Memory.read s.flash a

/-- Write completion copies the page buffer into the page and leaves every other byte; a byte of the page the buffer
does not hold gets some byte (D15, log 2: any value); then the page buffer is unwritten and the flash controller idle
(42_flash_engine.md section 2). -/
def Obligations.WriteCompletion : Prop :=
  ∀ (s : State) (p : Nat), s.cfg.legal = true → s.phase ≠ .user → s.nextTurn = .flash →
    s.fcOp = .write p → p + s.cfg.pageBytes ≤ s.cfg.flashBytes →
    ∃ t, step s = .next t
      ∧ t = { s.afterTurn with flash := t.flash, fcOp := .none, pageBuf := [], draws := t.draws }
      ∧ (∀ o b, o < s.cfg.pageBytes → Store.read? s.pageBuf o = some b →
          Memory.read t.flash (p + o) = b)
      ∧ ∀ a, (a < p ∨ p + s.cfg.pageBytes ≤ a) → Memory.read t.flash a = Memory.read s.flash a

/-- Program memory changes only by a move of the flash controller, from any state (10_state.md section 4; that a reset
keeps it is D35). -/
def Obligations.FlashChangesOnlyByController : Prop :=
  ∀ s t : State, step s = .next t → s.nextTurn ≠ .flash → t.flash = s.flash

/-- With a legal configuration the page test is the address test: an address is protected exactly when it is at or
above the boundary (20_memory.md section 3, the spec's own inference; geometry by D13). -/
def Obligations.ProtectedAtOrAboveBoundary : Prop :=
  ∀ (c : Cfg) (a : Nat), c.legal = true → (c.isProtected a = true ↔ c.flashBytes - c.bootBytes ≤ a)

/-- The protected region is never erased and never written, for all payload contents: no step of any agent changes a
byte at or above the boundary (20_memory.md section 6). The invariant rules out states in which the flash controller
already works on a protected page. -/
def Obligations.ProtectedRegionNeverChanges : Prop :=
  ∀ s t : State, Inv s → step s = .next t →
    ∀ a, s.cfg.flashBytes - s.cfg.bootBytes ≤ a → Memory.read t.flash a = Memory.read s.flash a

/-- When the engine returns, the page of `LOAD_ADDR` holds the received bytes exactly, at their offsets in the page,
and is readable (42_flash_engine.md section 1, E5; offsets past the end of the page by D14, log 24). -/
def Obligations.PageHoldsReceivedBytes : Prop :=
  ∀ s t : State, Inv s → s.phase = .pgWaitWrite → step s = .next t → t.phase = .waitTerm →
    ∃ n : Word, s.byteCount = some n ∧ t.rwwRd = true ∧ t.fcOp = .none
      ∧ (∀ j, j < n.toNat → t.bufAt j = some (Memory.read t.flash
          (t.loadAddr - t.loadAddr % t.cfg.pageBytes + (t.loadAddr + j) % t.cfg.pageBytes)))
      ∧ ∀ j, j < n.toNat → t.loadAddr % t.cfg.pageBytes = 0 →
          t.bufAt j = some (Memory.read t.flash (t.loadAddr + j))

/-- One whole PROG_PAGE exchange on a protected page under `HOST_PROMPT`: the data is consumed, the event recorded, the
standard response sent, and no byte of program memory changes (E4; 60_exceptions.md section 1; the contract by D7; the
number of moves is log 9). -/
def Obligations.ProtectedWriteExchange : Prop :=
  ∀ (s : State) (ag : List Turn) (x : Byte) (count : Word) (data rest : List Byte),
    data.length = count.toNat → count.toNat ≤ s.cfg.pageBytes → count.toNat % 2 = 0 → s.loadAddr % 2 = 0 →
    s.cfg.isProtected s.loadAddr = true → SequencerRunsFor (count.toNat + 10) s ag →
    s.mode = .armed → s.phase = .idle →
    s.rxq = requestFrame s.cfg (.progPage x count) data ++ rest →
    ∃ t, runFor (count.toNat + 10) s = .next t ∧ t.txs = s.txs ++ framed []
      ∧ t.events = s.events ++ [.writeProtected s.loadAddr count] ∧ t.flash = s.flash
      ∧ t.fcOp = s.fcOp ∧ t.rwwRd = s.rwwRd ∧ t.rxq = rest ∧ t.phase = .idle ∧ t.fault = none

/-- One whole PROG_PAGE exchange on an unprotected page under `HOST_PROMPT`, the flash controller completing each
operation once the engine waits for it: the standard response is sent, the page holds the received bytes, no byte
outside the page changes, and the region is readable again (E5; packing and wrap by D14, the contract by D7; the moves
are the model's agenda, log 1, and their number is log 9). -/
def Obligations.PageWriteExchange : Prop :=
  ∀ (s : State) (ag : List Turn) (x : Byte) (count : Word) (data rest : List Byte),
    Inv s → s.fault = none → data.length = count.toNat → count.toNat ≤ s.cfg.pageBytes →
    count.toNat % 2 = 0 → s.loadAddr % 2 = 0 → s.cfg.isProtected s.loadAddr = false →
    s.phase = .idle → s.rxq = requestFrame s.cfg (.progPage x count) data ++ rest →
    s.agenda = List.replicate (count.toNat + 7) .sequencer ++ .flash ::
      (List.replicate (count.toNat / 2 + 2) .sequencer ++ .flash :: (List.replicate 4 .sequencer ++ ag)) →
    ∃ t, runFor (count.toNat + count.toNat / 2 + 15) s = .next t ∧ t.txs = s.txs ++ framed []
      ∧ (∀ j, j < count.toNat → data[j]? = some (Memory.read t.flash
          (s.cfg.pageBase s.loadAddr + s.cfg.pageOff (s.loadAddr + j))))
      ∧ (∀ a, (a < s.cfg.pageBase s.loadAddr ∨ s.cfg.pageBase s.loadAddr + s.cfg.pageBytes ≤ a) →
          Memory.read t.flash a = Memory.read s.flash a)
      ∧ t.rwwRd = true ∧ t.fcOp = .none ∧ t.loadAddr = s.loadAddr ∧ t.rxq = rest ∧ t.phase = .idle
      ∧ t.fault = none ∧ t.events = s.events

/-- A read of program memory: the byte itself below `FLASH_BYTES`, but `RWW_READ` in the user region while it is
unreadable (D16), and some byte at or above `FLASH_BYTES` (D17, log 2); it writes no state of the spec's
(20_memory.md section 1). -/
def Obligations.FlashReadResult : Prop :=
  ∀ (a : Nat) (s : State),
    (a < s.cfg.flashBytes → (s.cfg.boundary ≤ a ∨ s.rwwRd = true) →
      flashRead a s = .ok (Memory.read s.flash a, s))
    ∧ (a < s.cfg.flashBytes → a < s.cfg.boundary → s.rwwRd = false → flashRead a s = .error .rwwRead)
    ∧ (s.cfg.flashBytes ≤ a → ∃ b d, flashRead a s = .ok (b, { s with draws := d }))

/-! The Handoff Controller. -/

/-- R131: the firmware-present check reads the first word of the user region; all-ones aborts the handoff with nothing
but the event, anything else enters it. -/
def Obligations.FirmwareCheck : Prop :=
  ∀ (s : State) (ag : List Turn),
    SequencerNext s ag → s.mode = .armed → s.phase = .hoCheck → s.rwwRd = true →
    (Memory.read s.flash 0 = 0xFF → Memory.read s.flash 1 = 0xFF → step s = .next { s with
      agenda := ag, events := s.events ++ [.noFirmware], phase := .idle })
    ∧ (Memory.read s.flash 0 ≠ 0xFF ∨ Memory.read s.flash 1 ≠ 0xFF → step s = .next { s with
      agenda := ag, mode := .handoff, phase := .hoSeq .ledOff })

/-- Interrupts are saved and switched off, then the vector table is relocated in one step; a relocation with interrupts
enabled raises `RELOC_IRQ` and moves no table (43_handoff.md section 3; relocation as one step by D19, log 21; that
raising a fault answers a next state with it set is log 6). -/
def Obligations.RelocationWithInterruptsOff : Prop :=
  ∀ (s : State) (ag : List Turn), SequencerNext s ag → s.mode = .handoff →
    (s.phase = .hoSeq .irqOff → step s = .next { s with
      agenda := ag, irqSave := some s.irqEn, irqEn := false, phase := .hoSeq .relocate })
    ∧ (s.phase = .hoSeq .relocate → s.irqEn = false → step s = .next { s with
      agenda := ag, vtsel := .user, events := s.events ++ [.relocated], phase := .hoSeq .jump })
    ∧ (s.phase = .hoSeq .relocate → s.irqEn = true → step s = .next { s with
      agenda := ag, fault := some .relocIrq })

/-- The handoff sequence runs its five steps in their order and ends with the jump, whatever bytes wait in `RXQ`
(43_handoff.md sections 3 and 4; `IRQ_EN` after the jump by D18, log 20; five moves by log 9). -/
def Obligations.HandoffRun : Prop :=
  ∀ (s : State) (ag : List Turn),
    SequencerRunsFor 5 s ag → s.mode = .handoff → s.phase = .hoSeq .ledOff →
    runFor 5 s = .next { s with
      agenda := ag, ledEn := false, xportAttached := false, irqSave := some s.irqEn
      irqEn := (match s.cfg.irqAfter with | .disabled => false | .restored => s.irqEn)
      vtsel := .user, pc := some 0, phase := .user
      events := s.events ++ [.detach, .relocated, .jump 0] }

/-- R139: no move of any agent sets `MODE` back to `ARMED` or `VTSEL` back to `BOOT`, from any state; a device reset
does, by re-establishing the entry state (what of program memory it keeps is not said here). -/
def Obligations.HandoffIrreversible : Prop :=
  ∀ s t : State, step s = .next t →
    (s.nextTurn ≠ .reset →
      (s.mode = .handoff → t.mode = .handoff) ∧ (s.vtsel = .user → t.vtsel = .user))
    ∧ (s.nextTurn = .reset → t.mode = .armed ∧ t.vtsel = .boot ∧ ∃ flash,
        t = { State.launch s.cfg flash with agenda := t.agenda, turns := t.turns, draws := t.draws })

/-- Only an idle iteration enters the firmware check, and only the check enters `HANDOFF` (43_handoff.md section 1, the
spec's own inference). -/
def Obligations.HandoffOnlyFromIdle : Prop :=
  ∀ s t : State, step s = .next t →
    (t.phase = .hoCheck → s.phase ≠ .hoCheck → s.nextTurn = .sequencer ∧ s.phase = .idle ∧ s.rxq = [])
    ∧ (t.mode = .handoff → s.mode = .armed → s.nextTurn = .sequencer ∧ s.phase = .hoCheck)

/-! The machine. -/

/-- A device reset leaves the entry state: each value of 10_state.md section 9, program memory and the configuration
kept (the values are the spec's decisions D15, D18, D20, D22, D29, D31, D35; log 13). -/
def Obligations.DeviceResetEntryState : Prop :=
  ∀ s : State, s.cfg.legal = true → s.nextTurn = .reset →
    ∃ t, step s = .next t ∧ t.mode = .armed ∧ t.phase = .idle ∧ t.pc = none ∧ t.cmd = none ∧ t.plen = none
      ∧ (∀ j, t.bufAt j = none) ∧ t.loadAddr = 0 ∧ t.inact = 0 ∧ t.tries = none ∧ t.byteCount = none
      ∧ t.prot = none ∧ t.resp = none ∧ t.leaveReq = false ∧ (∀ o, Store.read? t.pageBuf o = none)
      ∧ t.fault = none ∧ t.fcOp = .none ∧ t.rwwRd = true ∧ t.vtsel = .boot ∧ t.irqEn = s.cfg.irqEn0
      ∧ t.irqSave = none ∧ t.ledEn = true ∧ t.xportAttached = true ∧ t.rxq = [] ∧ t.txs = [] ∧ t.events = []
      ∧ t.cfg = s.cfg ∧ ∀ a, Memory.read t.flash a = Memory.read s.flash a

/-- The invariant holds in the entry state of every legal configuration with every program-memory contents
(70_reset_and_hazards.md sections 1 and 2). -/
def Obligations.EntryStateMeetsInv : Prop :=
  (∀ (c : Cfg) (flash : Memory), c.legal = true → Memory.wf flash = true →
      Store.below c.flashBytes flash = true → Inv (State.launch c flash))
    ∧ Inv State.reset

/-- Every step of every agent keeps the invariant (70_reset_and_hazards.md section 3; 20_memory.md sections 7 and 8). -/
def Obligations.StepKeepsInv : Prop :=
  ∀ s t : State, Inv s → step s = .next t → Inv t

/-- Where the invariant holds, the only fault is the host's breach of contract: no step is ever stopped by `FC_BUSY`,
`RWW_READ`, `RELOC_IRQ`, an unwritten read or a missing cell (60_exceptions.md section 2, the spec's own inferences). -/
def Obligations.OnlyHostContractFaults : Prop :=
  ∀ s : State, Inv s →
    (∀ f, step s = .fault f → f = .hostContract ∧ s.fault = some .hostContract)
    ∧ (∀ r, step s = .refused r → r = .userFirmware ∧ s.phase = .user)
    ∧ ∀ t, step s = .next t → t.fault = none ∨ t.fault = some .hostContract

/-- `FAULT` is sticky: no move clears it but a device reset, and the sequencer's move stops with it (10_state.md
section 4, decision D22; the stop is log 6). -/
def Obligations.FaultIsSticky : Prop :=
  ∀ (s : State) (f : Fault), s.fault = some f →
    (∀ t, step s = .next t → s.nextTurn ≠ .reset → t.fault = some f)
    ∧ (s.cfg.legal = true → s.phase ≠ .user → s.nextTurn = .sequencer → step s = .fault f)

/-- The hold points are where the sequencer waits: its move there changes nothing, and everywhere else where it runs
its move does not leave the state as it is (60_exceptions.md section 2; a hold as a move that changes nothing is
log 10). -/
def Obligations.HoldsExactlyAtHoldPoints : Prop :=
  ∀ (s : State) (ag : List Turn), SequencerNext s ag → s.sequencerRuns = true →
    (s.holdPoint ≠ none → step s = .next { s with agenda := ag })
    ∧ (s.holdPoint = none → step s ≠ .next { s with agenda := ag })

/-- The flash controller's completion steps are weakly fair (70_reset_and_hazards.md section 4, decision D27): from every
state the run comes to the flash controller's move after finitely many moves, unless it stops before; and an operation
under way in a state that meets the invariant is still under way when the move that completes it, or a device reset,
comes (the schedule: log 1, log 27). No bound is said of the time, and no fairness of the host. -/
def Obligations.FlashControllerFair : Prop :=
  (∀ s : State, ∃ n t, runFor n s = .next t ∧ (t.nextTurn = .flash ∨ ∀ u, step t ≠ .next u))
    ∧ ∀ s : State, Inv s → s.fcOp ≠ .none →
      ∃ n t u, runFor n s = .next t ∧ t.fcOp = s.fcOp ∧ (t.nextTurn = .flash ∨ t.nextTurn = .reset)
        ∧ step t = .next u ∧ u.fcOp = .none

/-- The host's delivery appends its byte to `RXQ` while the transport is attached and does nothing after the detach
(10_state.md section 7, 43_handoff.md section 3). -/
def Obligations.HostDelivery : Prop :=
  ∀ (s : State) (b : Byte), s.cfg.legal = true → s.phase ≠ .user → s.nextTurn = .host b →
    step s = .next { s.afterTurn with rxq := if s.xportAttached then s.rxq ++ [b] else s.rxq }

/-- A configuration that breaks R7 is refused (D13), and so is every move but a reset once the run of the block is over
(10_state.md, 70_reset_and_hazards.md section 4; that refusal is the model's choice, log 8). -/
def Obligations.RefusedSteps : Prop :=
  ∀ s : State,
    (s.cfg.legal = false → step s = .refused .illegalConfig)
    ∧ (s.cfg.legal = true → s.phase = .user → s.nextTurn ≠ .reset → step s = .refused .userFirmware)

/-- A legal configuration is exactly one that meets the constraints of R7 and the ranges of R6 (00_scope.md section 3;
the constraints are decision D13). -/
def Obligations.LegalConfigurations : Prop :=
  ∀ c : Cfg, c.legal = true ↔
    (∃ k, c.pageBytes = 2 ^ (k + 1)) ∧ c.pageBytes ∣ c.flashBytes ∧ c.pageBytes ∣ c.bootBytes
      ∧ 0 < c.bootBytes ∧ c.bootBytes < c.flashBytes ∧ c.flashBytes ≤ 2 ^ c.addrBits
      ∧ c.cmdGetSync ≠ c.cmdLeave ∧ c.cmdGetSync ∉ [0, 0x41, 0x42, 0x45, 0x55, 0x56, 0x64, 0x74, 0x75]
      ∧ c.cmdLeave ∉ [0, 0x41, 0x42, 0x45, 0x55, 0x56, 0x64, 0x74, 0x75]
      ∧ 1 ≤ c.syncRetries ∧ 1 ≤ c.leaveDelay ∧ c.leaveDelay < 2 ^ c.inactBits
end

