-- ==== Sys2Proof/Laws/PerInstr.lean ====
section
/-! SUPPORT. The family RoundTrip: for each instruction, decoding its encoding gives it back (30_encoding.md R64 to
R72). One lemma per constructor. -/

namespace Sys2Proof.Laws

/-- For every configuration whose command bytes are distinct, decoding the encoding of a well-formed instruction gives
that instruction and leaves the bytes after it. -/
def RoundTrip.Statement (i : Instr) : Prop :=
  ∀ (c : Cfg) (rest : List Byte), c.commandBytesOk = true → i.wf c = true →
    decode c (encode c i ++ rest) = .ok (i, rest)

theorem wordOf_bytes (w : Word) : wordOf (loByte w) (hiByte w) = w := by
  apply BitVec.eq_of_toNat_eq
  have := w.isLt
  simp only [wordOf, loByte, hiByte, BitVec.toNat_ofNat]
  omega

theorem loByte_wordOf (lo hi : Byte) : loByte (wordOf lo hi) = lo := by
  apply BitVec.eq_of_toNat_eq
  have := lo.isLt
  have := hi.isLt
  simp only [wordOf, loByte, BitVec.toNat_ofNat]
  omega

theorem hiByte_wordOf (lo hi : Byte) : hiByte (wordOf lo hi) = hi := by
  apply BitVec.eq_of_toNat_eq
  have := lo.isLt
  have := hi.isLt
  simp only [wordOf, hiByte, BitVec.toNat_ofNat]
  omega

theorem wordOf_toNat (lo hi : Byte) : (wordOf lo hi).toNat = lo.toNat + 256 * hi.toNat := by
  have := lo.isLt
  have := hi.isLt
  simp only [wordOf, BitVec.toNat_ofNat]
  omega

/-- A byte outside the Command Table has an empty payload (the sentinel, R66). -/
theorem payloadLen_of_not_table {b : Byte} (h : tableBytes.contains b = false) : payloadLen b = 0 := by
  simp [tableBytes, commandTable, payloadLen, tableLength] at h ⊢
  simp [Ne.symm, *, eq_comm]

theorem payloadLen_le (b : Byte) : payloadLen b ≤ 20 := by
  simp only [payloadLen, commandTable, tableLength]
  repeat' split
  all_goals omega

theorem not_table_of_legal {c : Cfg} (h : c.commandBytesOk = true) :
    tableBytes.contains c.cmdGetSync = false ∧ tableBytes.contains c.cmdLeave = false
      ∧ c.cmdGetSync ≠ c.cmdLeave := by
  simp only [Cfg.commandBytesOk, Bool.and_eq_true, bne_iff_ne, Bool.not_eq_true'] at h
  tauto

/-- A byte outside the Command Table decodes to GET_SYNC, LEAVE or UNRECOGNIZED (R66, R75). -/
theorem instrOf_of_not_table {b : Byte} (h : tableBytes.contains b = false) (c : Cfg) (p : List Byte) :
    instrOf c b p = if b = c.cmdGetSync then .getSync else if b = c.cmdLeave then .leave
      else .unrecognized b := by
  simp only [tableBytes, commandTable, List.map, List.contains_eq_mem, List.mem_cons, List.not_mem_nil,
    or_false, decide_eq_false_iff_not, not_or] at h
  simp [instrOf, h]

/-- Decoding a complete payload. -/
theorem decode_append {c : Cfg} {b : Byte} {p rest : List Byte} (h : p.length = payloadLen b) :
    decode c (b :: (p ++ rest)) = .ok (instrOf c b p, rest) := by
  simp [decode, ← h]

theorem RoundTrip.getParameter (id : Byte) : Statement (.getParameter id) := fun c _ _ _ =>
  decode_append (c := c) (b := opGetParameter) (p := [id]) rfl

theorem RoundTrip.setDevice (ignored : List Byte) : Statement (.setDevice ignored) := fun c _ _ hw =>
  decode_append (c := c) (b := opSetDevice) (p := ignored)
    (by simpa [Instr.wf, payloadLen, tableLength, commandTable, opGetParameter, opSetDevice] using hw)

theorem RoundTrip.setDeviceExt (ignored : List Byte) : Statement (.setDeviceExt ignored) := fun c _ _ hw =>
  decode_append (c := c) (b := opSetDeviceExt) (p := ignored)
    (by simpa [Instr.wf, payloadLen, tableLength, commandTable, opGetParameter, opSetDevice, opSetDeviceExt] using hw)

theorem RoundTrip.universal (subop ignored1 offset ignored3 : Byte) :
    Statement (.universal subop ignored1 offset ignored3) := fun c _ _ _ =>
  decode_append (c := c) (b := opUniversal) (p := [subop, ignored1, offset, ignored3]) rfl

theorem RoundTrip.loadAddress (word : Word) : Statement (.loadAddress word) := fun c rest _ _ => by
  have h := decode_append (c := c) (b := opLoadAddress) (p := [loByte word, hiByte word]) (rest := rest) rfl
  have e : instrOf c opLoadAddress [loByte word, hiByte word] = .loadAddress word := by
    conv_rhs => rw [← wordOf_bytes word]
    rfl
  rw [e] at h
  exact h

theorem RoundTrip.progPage (ignored : Byte) (count : Word) : Statement (.progPage ignored count) :=
    fun c rest _ _ => by
  have h := decode_append (c := c) (b := opProgPage) (p := [ignored, hiByte count, loByte count]) (rest := rest) rfl
  have e : instrOf c opProgPage [ignored, hiByte count, loByte count] = .progPage ignored count := by
    conv_rhs => rw [← wordOf_bytes count]
    rfl
  rw [e] at h
  exact h

theorem RoundTrip.readPage (ignored : Byte) (count : Word) : Statement (.readPage ignored count) :=
    fun c rest _ _ => by
  have h := decode_append (c := c) (b := opReadPage) (p := [ignored, hiByte count, loByte count]) (rest := rest) rfl
  have e : instrOf c opReadPage [ignored, hiByte count, loByte count] = .readPage ignored count := by
    conv_rhs => rw [← wordOf_bytes count]
    rfl
  rw [e] at h
  exact h

theorem RoundTrip.readSign : Statement .readSign := fun c _ _ _ =>
  decode_append (c := c) (b := opReadSign) (p := []) rfl

theorem RoundTrip.getSync : Statement .getSync := fun c rest hc _ => by
  have ht := (not_table_of_legal hc).1
  have h := decode_append (c := c) (b := c.cmdGetSync) (p := []) (rest := rest)
    (payloadLen_of_not_table ht).symm
  simpa [instrOf_of_not_table ht, encode] using h

theorem RoundTrip.leave : Statement .leave := fun c rest hc _ => by
  obtain ⟨-, ht, hne⟩ := not_table_of_legal hc
  have h := decode_append (c := c) (b := c.cmdLeave) (p := []) (rest := rest)
    (payloadLen_of_not_table ht).symm
  simpa [instrOf_of_not_table ht, hne.symm, encode] using h

theorem RoundTrip.unrecognized (cmd : Byte) : Statement (.unrecognized cmd) := fun c rest _ hw => by
  simp only [Instr.wf, assigned, Bool.not_eq_true', Bool.or_eq_false_iff, beq_eq_false_iff_ne] at hw
  obtain ⟨⟨ht, hs⟩, hl⟩ := hw
  have h := decode_append (c := c) (b := cmd) (p := []) (rest := rest) (payloadLen_of_not_table ht).symm
  simpa [instrOf_of_not_table ht, hs, hl, encode] using h

end Sys2Proof.Laws
end

