-- ==== Sys2Proof/Laws/State.lean ====
section
/-! SUPPORT. What each named update of the state leaves in each field, so that no later proof unfolds a record
update. -/

namespace Sys2Proof.Machine

/-! `State.faulted` -/

@[simp] theorem State.faulted_cfg (r : Fault) (s : State) : (s.faulted r).cfg = s.cfg := rfl
@[simp] theorem State.faulted_mode (r : Fault) (s : State) : (s.faulted r).mode = s.mode := rfl
@[simp] theorem State.faulted_phase (r : Fault) (s : State) : (s.faulted r).phase = s.phase := rfl
@[simp] theorem State.faulted_pc (r : Fault) (s : State) : (s.faulted r).pc = s.pc := rfl
@[simp] theorem State.faulted_cmd (r : Fault) (s : State) : (s.faulted r).cmd = s.cmd := rfl
@[simp] theorem State.faulted_plen (r : Fault) (s : State) : (s.faulted r).plen = s.plen := rfl
@[simp] theorem State.faulted_buf (r : Fault) (s : State) : (s.faulted r).buf = s.buf := rfl
@[simp] theorem State.faulted_loadAddr (r : Fault) (s : State) : (s.faulted r).loadAddr = s.loadAddr := rfl
@[simp] theorem State.faulted_inact (r : Fault) (s : State) : (s.faulted r).inact = s.inact := rfl
@[simp] theorem State.faulted_tries (r : Fault) (s : State) : (s.faulted r).tries = s.tries := rfl
@[simp] theorem State.faulted_byteCount (r : Fault) (s : State) : (s.faulted r).byteCount = s.byteCount := rfl
@[simp] theorem State.faulted_prot (r : Fault) (s : State) : (s.faulted r).prot = s.prot := rfl
@[simp] theorem State.faulted_resp (r : Fault) (s : State) : (s.faulted r).resp = s.resp := rfl
@[simp] theorem State.faulted_leaveReq (r : Fault) (s : State) : (s.faulted r).leaveReq = s.leaveReq := rfl
@[simp] theorem State.faulted_flash (r : Fault) (s : State) : (s.faulted r).flash = s.flash := rfl
@[simp] theorem State.faulted_pageBuf (r : Fault) (s : State) : (s.faulted r).pageBuf = s.pageBuf := rfl
@[simp] theorem State.faulted_fault (r : Fault) (s : State) : (s.faulted r).fault = some r := rfl
@[simp] theorem State.faulted_fcOp (r : Fault) (s : State) : (s.faulted r).fcOp = s.fcOp := rfl
@[simp] theorem State.faulted_rwwRd (r : Fault) (s : State) : (s.faulted r).rwwRd = s.rwwRd := rfl
@[simp] theorem State.faulted_vtsel (r : Fault) (s : State) : (s.faulted r).vtsel = s.vtsel := rfl
@[simp] theorem State.faulted_irqEn (r : Fault) (s : State) : (s.faulted r).irqEn = s.irqEn := rfl
@[simp] theorem State.faulted_irqSave (r : Fault) (s : State) : (s.faulted r).irqSave = s.irqSave := rfl
@[simp] theorem State.faulted_ledEn (r : Fault) (s : State) : (s.faulted r).ledEn = s.ledEn := rfl
@[simp] theorem State.faulted_xportAttached (r : Fault) (s : State) : (s.faulted r).xportAttached = s.xportAttached := rfl
@[simp] theorem State.faulted_rxq (r : Fault) (s : State) : (s.faulted r).rxq = s.rxq := rfl
@[simp] theorem State.faulted_txs (r : Fault) (s : State) : (s.faulted r).txs = s.txs := rfl
@[simp] theorem State.faulted_events (r : Fault) (s : State) : (s.faulted r).events = s.events := rfl
@[simp] theorem State.faulted_agenda (r : Fault) (s : State) : (s.faulted r).agenda = s.agenda := rfl
@[simp] theorem State.faulted_turns (r : Fault) (s : State) : (s.faulted r).turns = s.turns := rfl
@[simp] theorem State.faulted_draws (r : Fault) (s : State) : (s.faulted r).draws = s.draws := rfl

/-! `State.emit` -/

@[simp] theorem State.emit_cfg (e : Event) (s : State) : (s.emit e).cfg = s.cfg := rfl
@[simp] theorem State.emit_mode (e : Event) (s : State) : (s.emit e).mode = s.mode := rfl
@[simp] theorem State.emit_phase (e : Event) (s : State) : (s.emit e).phase = s.phase := rfl
@[simp] theorem State.emit_pc (e : Event) (s : State) : (s.emit e).pc = s.pc := rfl
@[simp] theorem State.emit_cmd (e : Event) (s : State) : (s.emit e).cmd = s.cmd := rfl
@[simp] theorem State.emit_plen (e : Event) (s : State) : (s.emit e).plen = s.plen := rfl
@[simp] theorem State.emit_buf (e : Event) (s : State) : (s.emit e).buf = s.buf := rfl
@[simp] theorem State.emit_loadAddr (e : Event) (s : State) : (s.emit e).loadAddr = s.loadAddr := rfl
@[simp] theorem State.emit_inact (e : Event) (s : State) : (s.emit e).inact = s.inact := rfl
@[simp] theorem State.emit_tries (e : Event) (s : State) : (s.emit e).tries = s.tries := rfl
@[simp] theorem State.emit_byteCount (e : Event) (s : State) : (s.emit e).byteCount = s.byteCount := rfl
@[simp] theorem State.emit_prot (e : Event) (s : State) : (s.emit e).prot = s.prot := rfl
@[simp] theorem State.emit_resp (e : Event) (s : State) : (s.emit e).resp = s.resp := rfl
@[simp] theorem State.emit_leaveReq (e : Event) (s : State) : (s.emit e).leaveReq = s.leaveReq := rfl
@[simp] theorem State.emit_flash (e : Event) (s : State) : (s.emit e).flash = s.flash := rfl
@[simp] theorem State.emit_pageBuf (e : Event) (s : State) : (s.emit e).pageBuf = s.pageBuf := rfl
@[simp] theorem State.emit_fault (e : Event) (s : State) : (s.emit e).fault = s.fault := rfl
@[simp] theorem State.emit_fcOp (e : Event) (s : State) : (s.emit e).fcOp = s.fcOp := rfl
@[simp] theorem State.emit_rwwRd (e : Event) (s : State) : (s.emit e).rwwRd = s.rwwRd := rfl
@[simp] theorem State.emit_vtsel (e : Event) (s : State) : (s.emit e).vtsel = s.vtsel := rfl
@[simp] theorem State.emit_irqEn (e : Event) (s : State) : (s.emit e).irqEn = s.irqEn := rfl
@[simp] theorem State.emit_irqSave (e : Event) (s : State) : (s.emit e).irqSave = s.irqSave := rfl
@[simp] theorem State.emit_ledEn (e : Event) (s : State) : (s.emit e).ledEn = s.ledEn := rfl
@[simp] theorem State.emit_xportAttached (e : Event) (s : State) : (s.emit e).xportAttached = s.xportAttached := rfl
@[simp] theorem State.emit_rxq (e : Event) (s : State) : (s.emit e).rxq = s.rxq := rfl
@[simp] theorem State.emit_txs (e : Event) (s : State) : (s.emit e).txs = s.txs := rfl
@[simp] theorem State.emit_events (e : Event) (s : State) : (s.emit e).events = s.events ++ [e] := rfl
@[simp] theorem State.emit_agenda (e : Event) (s : State) : (s.emit e).agenda = s.agenda := rfl
@[simp] theorem State.emit_turns (e : Event) (s : State) : (s.emit e).turns = s.turns := rfl
@[simp] theorem State.emit_draws (e : Event) (s : State) : (s.emit e).draws = s.draws := rfl

/-! `State.send` -/

@[simp] theorem State.send_cfg (b : Byte) (s : State) : (s.send b).cfg = s.cfg := rfl
@[simp] theorem State.send_mode (b : Byte) (s : State) : (s.send b).mode = s.mode := rfl
@[simp] theorem State.send_phase (b : Byte) (s : State) : (s.send b).phase = s.phase := rfl
@[simp] theorem State.send_pc (b : Byte) (s : State) : (s.send b).pc = s.pc := rfl
@[simp] theorem State.send_cmd (b : Byte) (s : State) : (s.send b).cmd = s.cmd := rfl
@[simp] theorem State.send_plen (b : Byte) (s : State) : (s.send b).plen = s.plen := rfl
@[simp] theorem State.send_buf (b : Byte) (s : State) : (s.send b).buf = s.buf := rfl
@[simp] theorem State.send_loadAddr (b : Byte) (s : State) : (s.send b).loadAddr = s.loadAddr := rfl
@[simp] theorem State.send_inact (b : Byte) (s : State) : (s.send b).inact = s.inact := rfl
@[simp] theorem State.send_tries (b : Byte) (s : State) : (s.send b).tries = s.tries := rfl
@[simp] theorem State.send_byteCount (b : Byte) (s : State) : (s.send b).byteCount = s.byteCount := rfl
@[simp] theorem State.send_prot (b : Byte) (s : State) : (s.send b).prot = s.prot := rfl
@[simp] theorem State.send_resp (b : Byte) (s : State) : (s.send b).resp = s.resp := rfl
@[simp] theorem State.send_leaveReq (b : Byte) (s : State) : (s.send b).leaveReq = s.leaveReq := rfl
@[simp] theorem State.send_flash (b : Byte) (s : State) : (s.send b).flash = s.flash := rfl
@[simp] theorem State.send_pageBuf (b : Byte) (s : State) : (s.send b).pageBuf = s.pageBuf := rfl
@[simp] theorem State.send_fault (b : Byte) (s : State) : (s.send b).fault = s.fault := rfl
@[simp] theorem State.send_fcOp (b : Byte) (s : State) : (s.send b).fcOp = s.fcOp := rfl
@[simp] theorem State.send_rwwRd (b : Byte) (s : State) : (s.send b).rwwRd = s.rwwRd := rfl
@[simp] theorem State.send_vtsel (b : Byte) (s : State) : (s.send b).vtsel = s.vtsel := rfl
@[simp] theorem State.send_irqEn (b : Byte) (s : State) : (s.send b).irqEn = s.irqEn := rfl
@[simp] theorem State.send_irqSave (b : Byte) (s : State) : (s.send b).irqSave = s.irqSave := rfl
@[simp] theorem State.send_ledEn (b : Byte) (s : State) : (s.send b).ledEn = s.ledEn := rfl
@[simp] theorem State.send_xportAttached (b : Byte) (s : State) : (s.send b).xportAttached = s.xportAttached := rfl
@[simp] theorem State.send_rxq (b : Byte) (s : State) : (s.send b).rxq = s.rxq := rfl
@[simp] theorem State.send_txs (b : Byte) (s : State) : (s.send b).txs = s.txs ++ [.byte b] := rfl
@[simp] theorem State.send_events (b : Byte) (s : State) : (s.send b).events = s.events := rfl
@[simp] theorem State.send_agenda (b : Byte) (s : State) : (s.send b).agenda = s.agenda := rfl
@[simp] theorem State.send_turns (b : Byte) (s : State) : (s.send b).turns = s.turns := rfl
@[simp] theorem State.send_draws (b : Byte) (s : State) : (s.send b).draws = s.draws := rfl

/-! `State.release` -/

@[simp] theorem State.release_cfg (s : State) : (s.release).cfg = s.cfg := rfl
@[simp] theorem State.release_mode (s : State) : (s.release).mode = s.mode := rfl
@[simp] theorem State.release_phase (s : State) : (s.release).phase = s.phase := rfl
@[simp] theorem State.release_pc (s : State) : (s.release).pc = s.pc := rfl
@[simp] theorem State.release_cmd (s : State) : (s.release).cmd = s.cmd := rfl
@[simp] theorem State.release_plen (s : State) : (s.release).plen = s.plen := rfl
@[simp] theorem State.release_buf (s : State) : (s.release).buf = s.buf := rfl
@[simp] theorem State.release_loadAddr (s : State) : (s.release).loadAddr = s.loadAddr := rfl
@[simp] theorem State.release_inact (s : State) : (s.release).inact = s.inact := rfl
@[simp] theorem State.release_tries (s : State) : (s.release).tries = s.tries := rfl
@[simp] theorem State.release_byteCount (s : State) : (s.release).byteCount = s.byteCount := rfl
@[simp] theorem State.release_prot (s : State) : (s.release).prot = s.prot := rfl
@[simp] theorem State.release_resp (s : State) : (s.release).resp = s.resp := rfl
@[simp] theorem State.release_leaveReq (s : State) : (s.release).leaveReq = s.leaveReq := rfl
@[simp] theorem State.release_flash (s : State) : (s.release).flash = s.flash := rfl
@[simp] theorem State.release_pageBuf (s : State) : (s.release).pageBuf = s.pageBuf := rfl
@[simp] theorem State.release_fault (s : State) : (s.release).fault = s.fault := rfl
@[simp] theorem State.release_fcOp (s : State) : (s.release).fcOp = s.fcOp := rfl
@[simp] theorem State.release_rwwRd (s : State) : (s.release).rwwRd = s.rwwRd := rfl
@[simp] theorem State.release_vtsel (s : State) : (s.release).vtsel = s.vtsel := rfl
@[simp] theorem State.release_irqEn (s : State) : (s.release).irqEn = s.irqEn := rfl
@[simp] theorem State.release_irqSave (s : State) : (s.release).irqSave = s.irqSave := rfl
@[simp] theorem State.release_ledEn (s : State) : (s.release).ledEn = s.ledEn := rfl
@[simp] theorem State.release_xportAttached (s : State) : (s.release).xportAttached = s.xportAttached := rfl
@[simp] theorem State.release_rxq (s : State) : (s.release).rxq = s.rxq := rfl
@[simp] theorem State.release_txs (s : State) : (s.release).txs = s.txs ++ [.release] := rfl
@[simp] theorem State.release_events (s : State) : (s.release).events = s.events := rfl
@[simp] theorem State.release_agenda (s : State) : (s.release).agenda = s.agenda := rfl
@[simp] theorem State.release_turns (s : State) : (s.release).turns = s.turns := rfl
@[simp] theorem State.release_draws (s : State) : (s.release).draws = s.draws := rfl

/-! `State.consumed` -/

@[simp] theorem State.consumed_cfg (q : List Byte) (s : State) : (s.consumed q).cfg = s.cfg := rfl
@[simp] theorem State.consumed_mode (q : List Byte) (s : State) : (s.consumed q).mode = s.mode := rfl
@[simp] theorem State.consumed_phase (q : List Byte) (s : State) : (s.consumed q).phase = s.phase := rfl
@[simp] theorem State.consumed_pc (q : List Byte) (s : State) : (s.consumed q).pc = s.pc := rfl
@[simp] theorem State.consumed_cmd (q : List Byte) (s : State) : (s.consumed q).cmd = s.cmd := rfl
@[simp] theorem State.consumed_plen (q : List Byte) (s : State) : (s.consumed q).plen = s.plen := rfl
@[simp] theorem State.consumed_buf (q : List Byte) (s : State) : (s.consumed q).buf = s.buf := rfl
@[simp] theorem State.consumed_loadAddr (q : List Byte) (s : State) : (s.consumed q).loadAddr = s.loadAddr := rfl
@[simp] theorem State.consumed_inact (q : List Byte) (s : State) : (s.consumed q).inact = s.inact := rfl
@[simp] theorem State.consumed_tries (q : List Byte) (s : State) : (s.consumed q).tries = s.tries := rfl
@[simp] theorem State.consumed_byteCount (q : List Byte) (s : State) : (s.consumed q).byteCount = s.byteCount := rfl
@[simp] theorem State.consumed_prot (q : List Byte) (s : State) : (s.consumed q).prot = s.prot := rfl
@[simp] theorem State.consumed_resp (q : List Byte) (s : State) : (s.consumed q).resp = s.resp := rfl
@[simp] theorem State.consumed_leaveReq (q : List Byte) (s : State) : (s.consumed q).leaveReq = s.leaveReq := rfl
@[simp] theorem State.consumed_flash (q : List Byte) (s : State) : (s.consumed q).flash = s.flash := rfl
@[simp] theorem State.consumed_pageBuf (q : List Byte) (s : State) : (s.consumed q).pageBuf = s.pageBuf := rfl
@[simp] theorem State.consumed_fault (q : List Byte) (s : State) : (s.consumed q).fault = s.fault := rfl
@[simp] theorem State.consumed_fcOp (q : List Byte) (s : State) : (s.consumed q).fcOp = s.fcOp := rfl
@[simp] theorem State.consumed_rwwRd (q : List Byte) (s : State) : (s.consumed q).rwwRd = s.rwwRd := rfl
@[simp] theorem State.consumed_vtsel (q : List Byte) (s : State) : (s.consumed q).vtsel = s.vtsel := rfl
@[simp] theorem State.consumed_irqEn (q : List Byte) (s : State) : (s.consumed q).irqEn = s.irqEn := rfl
@[simp] theorem State.consumed_irqSave (q : List Byte) (s : State) : (s.consumed q).irqSave = s.irqSave := rfl
@[simp] theorem State.consumed_ledEn (q : List Byte) (s : State) : (s.consumed q).ledEn = s.ledEn := rfl
@[simp] theorem State.consumed_xportAttached (q : List Byte) (s : State) : (s.consumed q).xportAttached = s.xportAttached := rfl
@[simp] theorem State.consumed_rxq (q : List Byte) (s : State) : (s.consumed q).rxq = q := rfl
@[simp] theorem State.consumed_txs (q : List Byte) (s : State) : (s.consumed q).txs = s.txs := rfl
@[simp] theorem State.consumed_events (q : List Byte) (s : State) : (s.consumed q).events = s.events := rfl
@[simp] theorem State.consumed_agenda (q : List Byte) (s : State) : (s.consumed q).agenda = s.agenda := rfl
@[simp] theorem State.consumed_turns (q : List Byte) (s : State) : (s.consumed q).turns = s.turns := rfl
@[simp] theorem State.consumed_draws (q : List Byte) (s : State) : (s.consumed q).draws = s.draws := rfl

/-! `State.afterDraws` -/

@[simp] theorem State.afterDraws_cfg (n : Nat) (s : State) : (s.afterDraws n).cfg = s.cfg := rfl
@[simp] theorem State.afterDraws_mode (n : Nat) (s : State) : (s.afterDraws n).mode = s.mode := rfl
@[simp] theorem State.afterDraws_phase (n : Nat) (s : State) : (s.afterDraws n).phase = s.phase := rfl
@[simp] theorem State.afterDraws_pc (n : Nat) (s : State) : (s.afterDraws n).pc = s.pc := rfl
@[simp] theorem State.afterDraws_cmd (n : Nat) (s : State) : (s.afterDraws n).cmd = s.cmd := rfl
@[simp] theorem State.afterDraws_plen (n : Nat) (s : State) : (s.afterDraws n).plen = s.plen := rfl
@[simp] theorem State.afterDraws_buf (n : Nat) (s : State) : (s.afterDraws n).buf = s.buf := rfl
@[simp] theorem State.afterDraws_loadAddr (n : Nat) (s : State) : (s.afterDraws n).loadAddr = s.loadAddr := rfl
@[simp] theorem State.afterDraws_inact (n : Nat) (s : State) : (s.afterDraws n).inact = s.inact := rfl
@[simp] theorem State.afterDraws_tries (n : Nat) (s : State) : (s.afterDraws n).tries = s.tries := rfl
@[simp] theorem State.afterDraws_byteCount (n : Nat) (s : State) : (s.afterDraws n).byteCount = s.byteCount := rfl
@[simp] theorem State.afterDraws_prot (n : Nat) (s : State) : (s.afterDraws n).prot = s.prot := rfl
@[simp] theorem State.afterDraws_resp (n : Nat) (s : State) : (s.afterDraws n).resp = s.resp := rfl
@[simp] theorem State.afterDraws_leaveReq (n : Nat) (s : State) : (s.afterDraws n).leaveReq = s.leaveReq := rfl
@[simp] theorem State.afterDraws_flash (n : Nat) (s : State) : (s.afterDraws n).flash = s.flash := rfl
@[simp] theorem State.afterDraws_pageBuf (n : Nat) (s : State) : (s.afterDraws n).pageBuf = s.pageBuf := rfl
@[simp] theorem State.afterDraws_fault (n : Nat) (s : State) : (s.afterDraws n).fault = s.fault := rfl
@[simp] theorem State.afterDraws_fcOp (n : Nat) (s : State) : (s.afterDraws n).fcOp = s.fcOp := rfl
@[simp] theorem State.afterDraws_rwwRd (n : Nat) (s : State) : (s.afterDraws n).rwwRd = s.rwwRd := rfl
@[simp] theorem State.afterDraws_vtsel (n : Nat) (s : State) : (s.afterDraws n).vtsel = s.vtsel := rfl
@[simp] theorem State.afterDraws_irqEn (n : Nat) (s : State) : (s.afterDraws n).irqEn = s.irqEn := rfl
@[simp] theorem State.afterDraws_irqSave (n : Nat) (s : State) : (s.afterDraws n).irqSave = s.irqSave := rfl
@[simp] theorem State.afterDraws_ledEn (n : Nat) (s : State) : (s.afterDraws n).ledEn = s.ledEn := rfl
@[simp] theorem State.afterDraws_xportAttached (n : Nat) (s : State) : (s.afterDraws n).xportAttached = s.xportAttached := rfl
@[simp] theorem State.afterDraws_rxq (n : Nat) (s : State) : (s.afterDraws n).rxq = s.rxq := rfl
@[simp] theorem State.afterDraws_txs (n : Nat) (s : State) : (s.afterDraws n).txs = s.txs := rfl
@[simp] theorem State.afterDraws_events (n : Nat) (s : State) : (s.afterDraws n).events = s.events := rfl
@[simp] theorem State.afterDraws_agenda (n : Nat) (s : State) : (s.afterDraws n).agenda = s.agenda := rfl
@[simp] theorem State.afterDraws_turns (n : Nat) (s : State) : (s.afterDraws n).turns = s.turns := rfl
@[simp] theorem State.afterDraws_draws (n : Nat) (s : State) : (s.afterDraws n).draws = s.draws + n := rfl

/-! `State.toWaitTerm` -/

@[simp] theorem State.toWaitTerm_cfg (s : State) : (s.toWaitTerm).cfg = s.cfg := rfl
@[simp] theorem State.toWaitTerm_mode (s : State) : (s.toWaitTerm).mode = s.mode := rfl
@[simp] theorem State.toWaitTerm_phase (s : State) : (s.toWaitTerm).phase = .waitTerm := rfl
@[simp] theorem State.toWaitTerm_pc (s : State) : (s.toWaitTerm).pc = s.pc := rfl
@[simp] theorem State.toWaitTerm_cmd (s : State) : (s.toWaitTerm).cmd = s.cmd := rfl
@[simp] theorem State.toWaitTerm_plen (s : State) : (s.toWaitTerm).plen = s.plen := rfl
@[simp] theorem State.toWaitTerm_buf (s : State) : (s.toWaitTerm).buf = s.buf := rfl
@[simp] theorem State.toWaitTerm_loadAddr (s : State) : (s.toWaitTerm).loadAddr = s.loadAddr := rfl
@[simp] theorem State.toWaitTerm_inact (s : State) : (s.toWaitTerm).inact = s.inact := rfl
@[simp] theorem State.toWaitTerm_tries (s : State) : (s.toWaitTerm).tries = some 0 := rfl
@[simp] theorem State.toWaitTerm_byteCount (s : State) : (s.toWaitTerm).byteCount = s.byteCount := rfl
@[simp] theorem State.toWaitTerm_prot (s : State) : (s.toWaitTerm).prot = s.prot := rfl
@[simp] theorem State.toWaitTerm_resp (s : State) : (s.toWaitTerm).resp = s.resp := rfl
@[simp] theorem State.toWaitTerm_leaveReq (s : State) : (s.toWaitTerm).leaveReq = s.leaveReq := rfl
@[simp] theorem State.toWaitTerm_flash (s : State) : (s.toWaitTerm).flash = s.flash := rfl
@[simp] theorem State.toWaitTerm_pageBuf (s : State) : (s.toWaitTerm).pageBuf = s.pageBuf := rfl
@[simp] theorem State.toWaitTerm_fault (s : State) : (s.toWaitTerm).fault = s.fault := rfl
@[simp] theorem State.toWaitTerm_fcOp (s : State) : (s.toWaitTerm).fcOp = s.fcOp := rfl
@[simp] theorem State.toWaitTerm_rwwRd (s : State) : (s.toWaitTerm).rwwRd = s.rwwRd := rfl
@[simp] theorem State.toWaitTerm_vtsel (s : State) : (s.toWaitTerm).vtsel = s.vtsel := rfl
@[simp] theorem State.toWaitTerm_irqEn (s : State) : (s.toWaitTerm).irqEn = s.irqEn := rfl
@[simp] theorem State.toWaitTerm_irqSave (s : State) : (s.toWaitTerm).irqSave = s.irqSave := rfl
@[simp] theorem State.toWaitTerm_ledEn (s : State) : (s.toWaitTerm).ledEn = s.ledEn := rfl
@[simp] theorem State.toWaitTerm_xportAttached (s : State) : (s.toWaitTerm).xportAttached = s.xportAttached := rfl
@[simp] theorem State.toWaitTerm_rxq (s : State) : (s.toWaitTerm).rxq = s.rxq := rfl
@[simp] theorem State.toWaitTerm_txs (s : State) : (s.toWaitTerm).txs = s.txs := rfl
@[simp] theorem State.toWaitTerm_events (s : State) : (s.toWaitTerm).events = s.events := rfl
@[simp] theorem State.toWaitTerm_agenda (s : State) : (s.toWaitTerm).agenda = s.agenda := rfl
@[simp] theorem State.toWaitTerm_turns (s : State) : (s.toWaitTerm).turns = s.turns := rfl
@[simp] theorem State.toWaitTerm_draws (s : State) : (s.toWaitTerm).draws = s.draws := rfl

/-! `commandPoll` -/

@[simp] theorem commandPoll_cfg (b : Byte) (s : State) : (commandPoll b s).cfg = s.cfg := rfl
@[simp] theorem commandPoll_mode (b : Byte) (s : State) : (commandPoll b s).mode = s.mode := rfl
@[simp] theorem commandPoll_phase (b : Byte) (s : State) : (commandPoll b s).phase = .rxPayload 0 := rfl
@[simp] theorem commandPoll_pc (b : Byte) (s : State) : (commandPoll b s).pc = s.pc := rfl
@[simp] theorem commandPoll_cmd (b : Byte) (s : State) : (commandPoll b s).cmd = some b := rfl
@[simp] theorem commandPoll_plen (b : Byte) (s : State) : (commandPoll b s).plen = some (payloadLen b) := rfl
@[simp] theorem commandPoll_buf (b : Byte) (s : State) : (commandPoll b s).buf = s.buf := rfl
@[simp] theorem commandPoll_loadAddr (b : Byte) (s : State) : (commandPoll b s).loadAddr = s.loadAddr := rfl
@[simp] theorem commandPoll_inact (b : Byte) (s : State) : (commandPoll b s).inact = 0 := rfl
@[simp] theorem commandPoll_tries (b : Byte) (s : State) : (commandPoll b s).tries = s.tries := rfl
@[simp] theorem commandPoll_byteCount (b : Byte) (s : State) : (commandPoll b s).byteCount = s.byteCount := rfl
@[simp] theorem commandPoll_prot (b : Byte) (s : State) : (commandPoll b s).prot = s.prot := rfl
@[simp] theorem commandPoll_resp (b : Byte) (s : State) : (commandPoll b s).resp = s.resp := rfl
@[simp] theorem commandPoll_leaveReq (b : Byte) (s : State) : (commandPoll b s).leaveReq = s.leaveReq := rfl
@[simp] theorem commandPoll_flash (b : Byte) (s : State) : (commandPoll b s).flash = s.flash := rfl
@[simp] theorem commandPoll_pageBuf (b : Byte) (s : State) : (commandPoll b s).pageBuf = s.pageBuf := rfl
@[simp] theorem commandPoll_fault (b : Byte) (s : State) : (commandPoll b s).fault = s.fault := rfl
@[simp] theorem commandPoll_fcOp (b : Byte) (s : State) : (commandPoll b s).fcOp = s.fcOp := rfl
@[simp] theorem commandPoll_rwwRd (b : Byte) (s : State) : (commandPoll b s).rwwRd = s.rwwRd := rfl
@[simp] theorem commandPoll_vtsel (b : Byte) (s : State) : (commandPoll b s).vtsel = s.vtsel := rfl
@[simp] theorem commandPoll_irqEn (b : Byte) (s : State) : (commandPoll b s).irqEn = s.irqEn := rfl
@[simp] theorem commandPoll_irqSave (b : Byte) (s : State) : (commandPoll b s).irqSave = s.irqSave := rfl
@[simp] theorem commandPoll_ledEn (b : Byte) (s : State) : (commandPoll b s).ledEn = s.ledEn := rfl
@[simp] theorem commandPoll_xportAttached (b : Byte) (s : State) : (commandPoll b s).xportAttached = s.xportAttached := rfl
@[simp] theorem commandPoll_rxq (b : Byte) (s : State) : (commandPoll b s).rxq = s.rxq := rfl
@[simp] theorem commandPoll_txs (b : Byte) (s : State) : (commandPoll b s).txs = s.txs := rfl
@[simp] theorem commandPoll_events (b : Byte) (s : State) : (commandPoll b s).events = s.events := rfl
@[simp] theorem commandPoll_agenda (b : Byte) (s : State) : (commandPoll b s).agenda = s.agenda := rfl
@[simp] theorem commandPoll_turns (b : Byte) (s : State) : (commandPoll b s).turns = s.turns := rfl
@[simp] theorem commandPoll_draws (b : Byte) (s : State) : (commandPoll b s).draws = s.draws := rfl

/-! `handoffEnter` -/

@[simp] theorem handoffEnter_cfg (s : State) : (handoffEnter s).cfg = s.cfg := rfl
@[simp] theorem handoffEnter_mode (s : State) : (handoffEnter s).mode = .handoff := rfl
@[simp] theorem handoffEnter_phase (s : State) : (handoffEnter s).phase = .hoSeq .ledOff := rfl
@[simp] theorem handoffEnter_pc (s : State) : (handoffEnter s).pc = s.pc := rfl
@[simp] theorem handoffEnter_cmd (s : State) : (handoffEnter s).cmd = s.cmd := rfl
@[simp] theorem handoffEnter_plen (s : State) : (handoffEnter s).plen = s.plen := rfl
@[simp] theorem handoffEnter_buf (s : State) : (handoffEnter s).buf = s.buf := rfl
@[simp] theorem handoffEnter_loadAddr (s : State) : (handoffEnter s).loadAddr = s.loadAddr := rfl
@[simp] theorem handoffEnter_inact (s : State) : (handoffEnter s).inact = s.inact := rfl
@[simp] theorem handoffEnter_tries (s : State) : (handoffEnter s).tries = s.tries := rfl
@[simp] theorem handoffEnter_byteCount (s : State) : (handoffEnter s).byteCount = s.byteCount := rfl
@[simp] theorem handoffEnter_prot (s : State) : (handoffEnter s).prot = s.prot := rfl
@[simp] theorem handoffEnter_resp (s : State) : (handoffEnter s).resp = s.resp := rfl
@[simp] theorem handoffEnter_leaveReq (s : State) : (handoffEnter s).leaveReq = s.leaveReq := rfl
@[simp] theorem handoffEnter_flash (s : State) : (handoffEnter s).flash = s.flash := rfl
@[simp] theorem handoffEnter_pageBuf (s : State) : (handoffEnter s).pageBuf = s.pageBuf := rfl
@[simp] theorem handoffEnter_fault (s : State) : (handoffEnter s).fault = s.fault := rfl
@[simp] theorem handoffEnter_fcOp (s : State) : (handoffEnter s).fcOp = s.fcOp := rfl
@[simp] theorem handoffEnter_rwwRd (s : State) : (handoffEnter s).rwwRd = s.rwwRd := rfl
@[simp] theorem handoffEnter_vtsel (s : State) : (handoffEnter s).vtsel = s.vtsel := rfl
@[simp] theorem handoffEnter_irqEn (s : State) : (handoffEnter s).irqEn = s.irqEn := rfl
@[simp] theorem handoffEnter_irqSave (s : State) : (handoffEnter s).irqSave = s.irqSave := rfl
@[simp] theorem handoffEnter_ledEn (s : State) : (handoffEnter s).ledEn = s.ledEn := rfl
@[simp] theorem handoffEnter_xportAttached (s : State) : (handoffEnter s).xportAttached = s.xportAttached := rfl
@[simp] theorem handoffEnter_rxq (s : State) : (handoffEnter s).rxq = s.rxq := rfl
@[simp] theorem handoffEnter_txs (s : State) : (handoffEnter s).txs = s.txs := rfl
@[simp] theorem handoffEnter_events (s : State) : (handoffEnter s).events = s.events := rfl
@[simp] theorem handoffEnter_agenda (s : State) : (handoffEnter s).agenda = s.agenda := rfl
@[simp] theorem handoffEnter_turns (s : State) : (handoffEnter s).turns = s.turns := rfl
@[simp] theorem handoffEnter_draws (s : State) : (handoffEnter s).draws = s.draws := rfl

/-! `handoffAbort` -/

@[simp] theorem handoffAbort_cfg (s : State) : (handoffAbort s).cfg = s.cfg := rfl
@[simp] theorem handoffAbort_mode (s : State) : (handoffAbort s).mode = s.mode := rfl
@[simp] theorem handoffAbort_phase (s : State) : (handoffAbort s).phase = .idle := rfl
@[simp] theorem handoffAbort_pc (s : State) : (handoffAbort s).pc = s.pc := rfl
@[simp] theorem handoffAbort_cmd (s : State) : (handoffAbort s).cmd = s.cmd := rfl
@[simp] theorem handoffAbort_plen (s : State) : (handoffAbort s).plen = s.plen := rfl
@[simp] theorem handoffAbort_buf (s : State) : (handoffAbort s).buf = s.buf := rfl
@[simp] theorem handoffAbort_loadAddr (s : State) : (handoffAbort s).loadAddr = s.loadAddr := rfl
@[simp] theorem handoffAbort_inact (s : State) : (handoffAbort s).inact = s.inact := rfl
@[simp] theorem handoffAbort_tries (s : State) : (handoffAbort s).tries = s.tries := rfl
@[simp] theorem handoffAbort_byteCount (s : State) : (handoffAbort s).byteCount = s.byteCount := rfl
@[simp] theorem handoffAbort_prot (s : State) : (handoffAbort s).prot = s.prot := rfl
@[simp] theorem handoffAbort_resp (s : State) : (handoffAbort s).resp = s.resp := rfl
@[simp] theorem handoffAbort_leaveReq (s : State) : (handoffAbort s).leaveReq = s.leaveReq := rfl
@[simp] theorem handoffAbort_flash (s : State) : (handoffAbort s).flash = s.flash := rfl
@[simp] theorem handoffAbort_pageBuf (s : State) : (handoffAbort s).pageBuf = s.pageBuf := rfl
@[simp] theorem handoffAbort_fault (s : State) : (handoffAbort s).fault = s.fault := rfl
@[simp] theorem handoffAbort_fcOp (s : State) : (handoffAbort s).fcOp = s.fcOp := rfl
@[simp] theorem handoffAbort_rwwRd (s : State) : (handoffAbort s).rwwRd = s.rwwRd := rfl
@[simp] theorem handoffAbort_vtsel (s : State) : (handoffAbort s).vtsel = s.vtsel := rfl
@[simp] theorem handoffAbort_irqEn (s : State) : (handoffAbort s).irqEn = s.irqEn := rfl
@[simp] theorem handoffAbort_irqSave (s : State) : (handoffAbort s).irqSave = s.irqSave := rfl
@[simp] theorem handoffAbort_ledEn (s : State) : (handoffAbort s).ledEn = s.ledEn := rfl
@[simp] theorem handoffAbort_xportAttached (s : State) : (handoffAbort s).xportAttached = s.xportAttached := rfl
@[simp] theorem handoffAbort_rxq (s : State) : (handoffAbort s).rxq = s.rxq := rfl
@[simp] theorem handoffAbort_txs (s : State) : (handoffAbort s).txs = s.txs := rfl
@[simp] theorem handoffAbort_events (s : State) : (handoffAbort s).events = s.events ++ [.noFirmware] := rfl
@[simp] theorem handoffAbort_agenda (s : State) : (handoffAbort s).agenda = s.agenda := rfl
@[simp] theorem handoffAbort_turns (s : State) : (handoffAbort s).turns = s.turns := rfl
@[simp] theorem handoffAbort_draws (s : State) : (handoffAbort s).draws = s.draws := rfl

/-! `eraseCompleted` -/

@[simp] theorem eraseCompleted_cfg (p : Nat) (s : State) : (eraseCompleted p s).cfg = s.cfg := rfl
@[simp] theorem eraseCompleted_mode (p : Nat) (s : State) : (eraseCompleted p s).mode = s.mode := rfl
@[simp] theorem eraseCompleted_phase (p : Nat) (s : State) : (eraseCompleted p s).phase = s.phase := rfl
@[simp] theorem eraseCompleted_pc (p : Nat) (s : State) : (eraseCompleted p s).pc = s.pc := rfl
@[simp] theorem eraseCompleted_cmd (p : Nat) (s : State) : (eraseCompleted p s).cmd = s.cmd := rfl
@[simp] theorem eraseCompleted_plen (p : Nat) (s : State) : (eraseCompleted p s).plen = s.plen := rfl
@[simp] theorem eraseCompleted_buf (p : Nat) (s : State) : (eraseCompleted p s).buf = s.buf := rfl
@[simp] theorem eraseCompleted_loadAddr (p : Nat) (s : State) : (eraseCompleted p s).loadAddr = s.loadAddr := rfl
@[simp] theorem eraseCompleted_inact (p : Nat) (s : State) : (eraseCompleted p s).inact = s.inact := rfl
@[simp] theorem eraseCompleted_tries (p : Nat) (s : State) : (eraseCompleted p s).tries = s.tries := rfl
@[simp] theorem eraseCompleted_byteCount (p : Nat) (s : State) : (eraseCompleted p s).byteCount = s.byteCount := rfl
@[simp] theorem eraseCompleted_prot (p : Nat) (s : State) : (eraseCompleted p s).prot = s.prot := rfl
@[simp] theorem eraseCompleted_resp (p : Nat) (s : State) : (eraseCompleted p s).resp = s.resp := rfl
@[simp] theorem eraseCompleted_leaveReq (p : Nat) (s : State) : (eraseCompleted p s).leaveReq = s.leaveReq := rfl
@[simp] theorem eraseCompleted_flash (p : Nat) (s : State) : (eraseCompleted p s).flash = Memory.fill p (fun _ => 0xFF) s.cfg.pageBytes s.flash := rfl
@[simp] theorem eraseCompleted_pageBuf (p : Nat) (s : State) : (eraseCompleted p s).pageBuf = s.pageBuf := rfl
@[simp] theorem eraseCompleted_fault (p : Nat) (s : State) : (eraseCompleted p s).fault = s.fault := rfl
@[simp] theorem eraseCompleted_fcOp (p : Nat) (s : State) : (eraseCompleted p s).fcOp = .none := rfl
@[simp] theorem eraseCompleted_rwwRd (p : Nat) (s : State) : (eraseCompleted p s).rwwRd = s.rwwRd := rfl
@[simp] theorem eraseCompleted_vtsel (p : Nat) (s : State) : (eraseCompleted p s).vtsel = s.vtsel := rfl
@[simp] theorem eraseCompleted_irqEn (p : Nat) (s : State) : (eraseCompleted p s).irqEn = s.irqEn := rfl
@[simp] theorem eraseCompleted_irqSave (p : Nat) (s : State) : (eraseCompleted p s).irqSave = s.irqSave := rfl
@[simp] theorem eraseCompleted_ledEn (p : Nat) (s : State) : (eraseCompleted p s).ledEn = s.ledEn := rfl
@[simp] theorem eraseCompleted_xportAttached (p : Nat) (s : State) : (eraseCompleted p s).xportAttached = s.xportAttached := rfl
@[simp] theorem eraseCompleted_rxq (p : Nat) (s : State) : (eraseCompleted p s).rxq = s.rxq := rfl
@[simp] theorem eraseCompleted_txs (p : Nat) (s : State) : (eraseCompleted p s).txs = s.txs := rfl
@[simp] theorem eraseCompleted_events (p : Nat) (s : State) : (eraseCompleted p s).events = s.events := rfl
@[simp] theorem eraseCompleted_agenda (p : Nat) (s : State) : (eraseCompleted p s).agenda = s.agenda := rfl
@[simp] theorem eraseCompleted_turns (p : Nat) (s : State) : (eraseCompleted p s).turns = s.turns := rfl
@[simp] theorem eraseCompleted_draws (p : Nat) (s : State) : (eraseCompleted p s).draws = s.draws := rfl

/-! `writeCompleted` -/

@[simp] theorem writeCompleted_cfg (p : Nat) (s : State) : (writeCompleted p s).cfg = s.cfg := rfl
@[simp] theorem writeCompleted_mode (p : Nat) (s : State) : (writeCompleted p s).mode = s.mode := rfl
@[simp] theorem writeCompleted_phase (p : Nat) (s : State) : (writeCompleted p s).phase = s.phase := rfl
@[simp] theorem writeCompleted_pc (p : Nat) (s : State) : (writeCompleted p s).pc = s.pc := rfl
@[simp] theorem writeCompleted_cmd (p : Nat) (s : State) : (writeCompleted p s).cmd = s.cmd := rfl
@[simp] theorem writeCompleted_plen (p : Nat) (s : State) : (writeCompleted p s).plen = s.plen := rfl
@[simp] theorem writeCompleted_buf (p : Nat) (s : State) : (writeCompleted p s).buf = s.buf := rfl
@[simp] theorem writeCompleted_loadAddr (p : Nat) (s : State) : (writeCompleted p s).loadAddr = s.loadAddr := rfl
@[simp] theorem writeCompleted_inact (p : Nat) (s : State) : (writeCompleted p s).inact = s.inact := rfl
@[simp] theorem writeCompleted_tries (p : Nat) (s : State) : (writeCompleted p s).tries = s.tries := rfl
@[simp] theorem writeCompleted_byteCount (p : Nat) (s : State) : (writeCompleted p s).byteCount = s.byteCount := rfl
@[simp] theorem writeCompleted_prot (p : Nat) (s : State) : (writeCompleted p s).prot = s.prot := rfl
@[simp] theorem writeCompleted_resp (p : Nat) (s : State) : (writeCompleted p s).resp = s.resp := rfl
@[simp] theorem writeCompleted_leaveReq (p : Nat) (s : State) : (writeCompleted p s).leaveReq = s.leaveReq := rfl
@[simp] theorem writeCompleted_flash (p : Nat) (s : State) : (writeCompleted p s).flash = Memory.fill p (committedByte s) s.cfg.pageBytes s.flash := rfl
@[simp] theorem writeCompleted_pageBuf (p : Nat) (s : State) : (writeCompleted p s).pageBuf = [] := rfl
@[simp] theorem writeCompleted_fault (p : Nat) (s : State) : (writeCompleted p s).fault = s.fault := rfl
@[simp] theorem writeCompleted_fcOp (p : Nat) (s : State) : (writeCompleted p s).fcOp = .none := rfl
@[simp] theorem writeCompleted_rwwRd (p : Nat) (s : State) : (writeCompleted p s).rwwRd = s.rwwRd := rfl
@[simp] theorem writeCompleted_vtsel (p : Nat) (s : State) : (writeCompleted p s).vtsel = s.vtsel := rfl
@[simp] theorem writeCompleted_irqEn (p : Nat) (s : State) : (writeCompleted p s).irqEn = s.irqEn := rfl
@[simp] theorem writeCompleted_irqSave (p : Nat) (s : State) : (writeCompleted p s).irqSave = s.irqSave := rfl
@[simp] theorem writeCompleted_ledEn (p : Nat) (s : State) : (writeCompleted p s).ledEn = s.ledEn := rfl
@[simp] theorem writeCompleted_xportAttached (p : Nat) (s : State) : (writeCompleted p s).xportAttached = s.xportAttached := rfl
@[simp] theorem writeCompleted_rxq (p : Nat) (s : State) : (writeCompleted p s).rxq = s.rxq := rfl
@[simp] theorem writeCompleted_txs (p : Nat) (s : State) : (writeCompleted p s).txs = s.txs := rfl
@[simp] theorem writeCompleted_events (p : Nat) (s : State) : (writeCompleted p s).events = s.events := rfl
@[simp] theorem writeCompleted_agenda (p : Nat) (s : State) : (writeCompleted p s).agenda = s.agenda := rfl
@[simp] theorem writeCompleted_turns (p : Nat) (s : State) : (writeCompleted p s).turns = s.turns := rfl
@[simp] theorem writeCompleted_draws (p : Nat) (s : State) : (writeCompleted p s).draws = s.draws + s.cfg.pageBytes := rfl

/-! `deviceReset` -/

@[simp] theorem deviceReset_cfg (s : State) : (deviceReset s).cfg = s.cfg := rfl
@[simp] theorem deviceReset_mode (s : State) : (deviceReset s).mode = .armed := rfl
@[simp] theorem deviceReset_phase (s : State) : (deviceReset s).phase = .idle := rfl
@[simp] theorem deviceReset_pc (s : State) : (deviceReset s).pc = none := rfl
@[simp] theorem deviceReset_cmd (s : State) : (deviceReset s).cmd = none := rfl
@[simp] theorem deviceReset_plen (s : State) : (deviceReset s).plen = none := rfl
@[simp] theorem deviceReset_buf (s : State) : (deviceReset s).buf = [] := rfl
@[simp] theorem deviceReset_loadAddr (s : State) : (deviceReset s).loadAddr = 0 := rfl
@[simp] theorem deviceReset_inact (s : State) : (deviceReset s).inact = 0 := rfl
@[simp] theorem deviceReset_tries (s : State) : (deviceReset s).tries = none := rfl
@[simp] theorem deviceReset_byteCount (s : State) : (deviceReset s).byteCount = none := rfl
@[simp] theorem deviceReset_prot (s : State) : (deviceReset s).prot = none := rfl
@[simp] theorem deviceReset_resp (s : State) : (deviceReset s).resp = none := rfl
@[simp] theorem deviceReset_leaveReq (s : State) : (deviceReset s).leaveReq = false := rfl
@[simp] theorem deviceReset_flash (s : State) : (deviceReset s).flash = s.flash := rfl
@[simp] theorem deviceReset_pageBuf (s : State) : (deviceReset s).pageBuf = [] := rfl
@[simp] theorem deviceReset_fault (s : State) : (deviceReset s).fault = none := rfl
@[simp] theorem deviceReset_fcOp (s : State) : (deviceReset s).fcOp = .none := rfl
@[simp] theorem deviceReset_rwwRd (s : State) : (deviceReset s).rwwRd = true := rfl
@[simp] theorem deviceReset_vtsel (s : State) : (deviceReset s).vtsel = .boot := rfl
@[simp] theorem deviceReset_irqEn (s : State) : (deviceReset s).irqEn = s.cfg.irqEn0 := rfl
@[simp] theorem deviceReset_irqSave (s : State) : (deviceReset s).irqSave = none := rfl
@[simp] theorem deviceReset_ledEn (s : State) : (deviceReset s).ledEn = true := rfl
@[simp] theorem deviceReset_xportAttached (s : State) : (deviceReset s).xportAttached = true := rfl
@[simp] theorem deviceReset_rxq (s : State) : (deviceReset s).rxq = [] := rfl
@[simp] theorem deviceReset_txs (s : State) : (deviceReset s).txs = [] := rfl
@[simp] theorem deviceReset_events (s : State) : (deviceReset s).events = [] := rfl
@[simp] theorem deviceReset_agenda (s : State) : (deviceReset s).agenda = s.agenda := rfl
@[simp] theorem deviceReset_turns (s : State) : (deviceReset s).turns = s.turns := rfl
@[simp] theorem deviceReset_draws (s : State) : (deviceReset s).draws = s.draws := rfl

/-! `State.afterTurn` changes the agenda and the counter of free moves only. -/

@[simp] theorem State.afterTurn_cfg (s : State) : s.afterTurn.cfg = s.cfg := by
  unfold State.afterTurn; split <;> rfl
@[simp] theorem State.afterTurn_mode (s : State) : s.afterTurn.mode = s.mode := by
  unfold State.afterTurn; split <;> rfl
@[simp] theorem State.afterTurn_phase (s : State) : s.afterTurn.phase = s.phase := by
  unfold State.afterTurn; split <;> rfl
@[simp] theorem State.afterTurn_pc (s : State) : s.afterTurn.pc = s.pc := by
  unfold State.afterTurn; split <;> rfl
@[simp] theorem State.afterTurn_cmd (s : State) : s.afterTurn.cmd = s.cmd := by
  unfold State.afterTurn; split <;> rfl
@[simp] theorem State.afterTurn_plen (s : State) : s.afterTurn.plen = s.plen := by
  unfold State.afterTurn; split <;> rfl
@[simp] theorem State.afterTurn_buf (s : State) : s.afterTurn.buf = s.buf := by
  unfold State.afterTurn; split <;> rfl
@[simp] theorem State.afterTurn_loadAddr (s : State) : s.afterTurn.loadAddr = s.loadAddr := by
  unfold State.afterTurn; split <;> rfl
@[simp] theorem State.afterTurn_inact (s : State) : s.afterTurn.inact = s.inact := by
  unfold State.afterTurn; split <;> rfl
@[simp] theorem State.afterTurn_tries (s : State) : s.afterTurn.tries = s.tries := by
  unfold State.afterTurn; split <;> rfl
@[simp] theorem State.afterTurn_byteCount (s : State) : s.afterTurn.byteCount = s.byteCount := by
  unfold State.afterTurn; split <;> rfl
@[simp] theorem State.afterTurn_prot (s : State) : s.afterTurn.prot = s.prot := by
  unfold State.afterTurn; split <;> rfl
@[simp] theorem State.afterTurn_resp (s : State) : s.afterTurn.resp = s.resp := by
  unfold State.afterTurn; split <;> rfl
@[simp] theorem State.afterTurn_leaveReq (s : State) : s.afterTurn.leaveReq = s.leaveReq := by
  unfold State.afterTurn; split <;> rfl
@[simp] theorem State.afterTurn_flash (s : State) : s.afterTurn.flash = s.flash := by
  unfold State.afterTurn; split <;> rfl
@[simp] theorem State.afterTurn_pageBuf (s : State) : s.afterTurn.pageBuf = s.pageBuf := by
  unfold State.afterTurn; split <;> rfl
@[simp] theorem State.afterTurn_fault (s : State) : s.afterTurn.fault = s.fault := by
  unfold State.afterTurn; split <;> rfl
@[simp] theorem State.afterTurn_fcOp (s : State) : s.afterTurn.fcOp = s.fcOp := by
  unfold State.afterTurn; split <;> rfl
@[simp] theorem State.afterTurn_rwwRd (s : State) : s.afterTurn.rwwRd = s.rwwRd := by
  unfold State.afterTurn; split <;> rfl
@[simp] theorem State.afterTurn_vtsel (s : State) : s.afterTurn.vtsel = s.vtsel := by
  unfold State.afterTurn; split <;> rfl
@[simp] theorem State.afterTurn_irqEn (s : State) : s.afterTurn.irqEn = s.irqEn := by
  unfold State.afterTurn; split <;> rfl
@[simp] theorem State.afterTurn_irqSave (s : State) : s.afterTurn.irqSave = s.irqSave := by
  unfold State.afterTurn; split <;> rfl
@[simp] theorem State.afterTurn_ledEn (s : State) : s.afterTurn.ledEn = s.ledEn := by
  unfold State.afterTurn; split <;> rfl
@[simp] theorem State.afterTurn_xportAttached (s : State) : s.afterTurn.xportAttached = s.xportAttached := by
  unfold State.afterTurn; split <;> rfl
@[simp] theorem State.afterTurn_rxq (s : State) : s.afterTurn.rxq = s.rxq := by
  unfold State.afterTurn; split <;> rfl
@[simp] theorem State.afterTurn_txs (s : State) : s.afterTurn.txs = s.txs := by
  unfold State.afterTurn; split <;> rfl
@[simp] theorem State.afterTurn_events (s : State) : s.afterTurn.events = s.events := by
  unfold State.afterTurn; split <;> rfl
@[simp] theorem State.afterTurn_draws (s : State) : s.afterTurn.draws = s.draws := by
  unfold State.afterTurn; split <;> rfl

/-! `hostDeliver` changes `RXQ` only. -/

@[simp] theorem hostDeliver_cfg (b : Byte) (s : State) : (hostDeliver b s).cfg = s.cfg := by
  unfold hostDeliver; split <;> rfl
@[simp] theorem hostDeliver_mode (b : Byte) (s : State) : (hostDeliver b s).mode = s.mode := by
  unfold hostDeliver; split <;> rfl
@[simp] theorem hostDeliver_phase (b : Byte) (s : State) : (hostDeliver b s).phase = s.phase := by
  unfold hostDeliver; split <;> rfl
@[simp] theorem hostDeliver_pc (b : Byte) (s : State) : (hostDeliver b s).pc = s.pc := by
  unfold hostDeliver; split <;> rfl
@[simp] theorem hostDeliver_cmd (b : Byte) (s : State) : (hostDeliver b s).cmd = s.cmd := by
  unfold hostDeliver; split <;> rfl
@[simp] theorem hostDeliver_plen (b : Byte) (s : State) : (hostDeliver b s).plen = s.plen := by
  unfold hostDeliver; split <;> rfl
@[simp] theorem hostDeliver_buf (b : Byte) (s : State) : (hostDeliver b s).buf = s.buf := by
  unfold hostDeliver; split <;> rfl
@[simp] theorem hostDeliver_loadAddr (b : Byte) (s : State) : (hostDeliver b s).loadAddr = s.loadAddr := by
  unfold hostDeliver; split <;> rfl
@[simp] theorem hostDeliver_inact (b : Byte) (s : State) : (hostDeliver b s).inact = s.inact := by
  unfold hostDeliver; split <;> rfl
@[simp] theorem hostDeliver_tries (b : Byte) (s : State) : (hostDeliver b s).tries = s.tries := by
  unfold hostDeliver; split <;> rfl
@[simp] theorem hostDeliver_byteCount (b : Byte) (s : State) : (hostDeliver b s).byteCount = s.byteCount := by
  unfold hostDeliver; split <;> rfl
@[simp] theorem hostDeliver_prot (b : Byte) (s : State) : (hostDeliver b s).prot = s.prot := by
  unfold hostDeliver; split <;> rfl
@[simp] theorem hostDeliver_resp (b : Byte) (s : State) : (hostDeliver b s).resp = s.resp := by
  unfold hostDeliver; split <;> rfl
@[simp] theorem hostDeliver_leaveReq (b : Byte) (s : State) : (hostDeliver b s).leaveReq = s.leaveReq := by
  unfold hostDeliver; split <;> rfl
@[simp] theorem hostDeliver_flash (b : Byte) (s : State) : (hostDeliver b s).flash = s.flash := by
  unfold hostDeliver; split <;> rfl
@[simp] theorem hostDeliver_pageBuf (b : Byte) (s : State) : (hostDeliver b s).pageBuf = s.pageBuf := by
  unfold hostDeliver; split <;> rfl
@[simp] theorem hostDeliver_fault (b : Byte) (s : State) : (hostDeliver b s).fault = s.fault := by
  unfold hostDeliver; split <;> rfl
@[simp] theorem hostDeliver_fcOp (b : Byte) (s : State) : (hostDeliver b s).fcOp = s.fcOp := by
  unfold hostDeliver; split <;> rfl
@[simp] theorem hostDeliver_rwwRd (b : Byte) (s : State) : (hostDeliver b s).rwwRd = s.rwwRd := by
  unfold hostDeliver; split <;> rfl
@[simp] theorem hostDeliver_vtsel (b : Byte) (s : State) : (hostDeliver b s).vtsel = s.vtsel := by
  unfold hostDeliver; split <;> rfl
@[simp] theorem hostDeliver_irqEn (b : Byte) (s : State) : (hostDeliver b s).irqEn = s.irqEn := by
  unfold hostDeliver; split <;> rfl
@[simp] theorem hostDeliver_irqSave (b : Byte) (s : State) : (hostDeliver b s).irqSave = s.irqSave := by
  unfold hostDeliver; split <;> rfl
@[simp] theorem hostDeliver_ledEn (b : Byte) (s : State) : (hostDeliver b s).ledEn = s.ledEn := by
  unfold hostDeliver; split <;> rfl
@[simp] theorem hostDeliver_xportAttached (b : Byte) (s : State) : (hostDeliver b s).xportAttached = s.xportAttached := by
  unfold hostDeliver; split <;> rfl
@[simp] theorem hostDeliver_txs (b : Byte) (s : State) : (hostDeliver b s).txs = s.txs := by
  unfold hostDeliver; split <;> rfl
@[simp] theorem hostDeliver_events (b : Byte) (s : State) : (hostDeliver b s).events = s.events := by
  unfold hostDeliver; split <;> rfl
@[simp] theorem hostDeliver_agenda (b : Byte) (s : State) : (hostDeliver b s).agenda = s.agenda := by
  unfold hostDeliver; split <;> rfl
@[simp] theorem hostDeliver_turns (b : Byte) (s : State) : (hostDeliver b s).turns = s.turns := by
  unfold hostDeliver; split <;> rfl
@[simp] theorem hostDeliver_draws (b : Byte) (s : State) : (hostDeliver b s).draws = s.draws := by
  unfold hostDeliver; split <;> rfl

/-- With a move on the agenda, that move comes next and the rest stays. -/
theorem State.afterTurn_cons {s : State} {t : Turn} {ts : List Turn} (h : s.agenda = t :: ts) :
    s.nextTurn = t ∧ s.afterTurn = { s with agenda := ts } := by
  simp [State.nextTurn, State.afterTurn, h]

/-- With an empty agenda, the free schedule's first move comes next and the rest becomes the agenda. -/
theorem State.afterTurn_nil {s : State} (h : s.agenda = []) :
    s.nextTurn :: s.afterTurn.agenda = s.freeSchedule
      ∧ s.afterTurn = { s with agenda := s.afterTurn.agenda, turns := s.turns + 1 } := by
  simp only [State.nextTurn, State.afterTurn, h, and_true, State.freeSchedule]
  cases Config.freeTurns s.turns <;> rfl

/-- The flash controller moves in every free schedule (R177). -/
theorem State.flash_mem_freeSchedule (s : State) : Turn.flash ∈ s.freeSchedule := by
  simp [State.freeSchedule]

end Sys2Proof.Machine
end

