-- ==== Sys2Proof/Laws/Store.lean ====
section
/-! SUPPORT. The laws of stores and of program memory: a read after a write, and the canonical form that every
operation keeps. -/

namespace Sys2Proof.Machine

@[simp] theorem Store.read?_nil (a : Nat) : Store.read? [] a = none := rfl

@[simp] theorem Store.sorted_nil : Store.sorted [] = true := rfl

@[simp] theorem Store.below_nil (n : Nat) : Store.below n [] = true := rfl

theorem Store.sorted_cons (k : Nat) (b : Byte) (m : Store) :
    Store.sorted ((k, b) :: m) = true ↔ (∀ x ∈ m, k < x.1) ∧ Store.sorted m = true := by
  simp [Store.sorted]

theorem Store.below_iff (n : Nat) (m : Store) : Store.below n m = true ↔ ∀ x ∈ m, x.1 < n := by
  simp [Store.below]

/-- A read finds only what is listed. -/
theorem Store.read?_none {m : Store} {a : Nat} (h : ∀ x ∈ m, x.1 ≠ a) : Store.read? m a = none := by
  induction m with
  | nil => rfl
  | cons x m ih =>
    obtain ⟨k, b⟩ := x
    have hk : k ≠ a := h (k, b) (by simp)
    simpa [Store.read?, hk] using ih fun x hx => h x (by simp [hx])

/-- A read after a write: the byte written at its index, what was there before at every other. -/
theorem Store.read?_put (a : Nat) (b : Byte) (m : Store) (i : Nat) :
    Store.read? (Store.put a b m) i = if a = i then some b else Store.read? m i := by
  induction m with
  | nil => rfl
  | cons x m ih =>
    obtain ⟨k, v⟩ := x
    unfold Store.put
    split
    · simp [Store.read?]
    · split
      · subst a; simp only [Store.read?]; split <;> rfl
      · simp only [Store.read?, ih]; split <;> split <;> first | rfl | omega

theorem Store.mem_put {a : Nat} {b : Byte} {m : Store} {x : Host.Cell} (h : x ∈ Store.put a b m) :
    x = (a, b) ∨ x ∈ m := by
  induction m with
  | nil => simpa [Store.put] using h
  | cons y m ih =>
    obtain ⟨k, v⟩ := y
    unfold Store.put at h
    split at h
    · simpa using h
    · split at h
      · simp only [List.mem_cons] at h ⊢; tauto
      · simp only [List.mem_cons] at h ⊢
        rcases h with h | h
        · exact .inr (.inl h)
        · rcases ih h with h | h <;> tauto

theorem Store.sorted_put {a : Nat} {b : Byte} {m : Store} (h : Store.sorted m = true) :
    Store.sorted (Store.put a b m) = true := by
  induction m with
  | nil => rfl
  | cons y m ih =>
    obtain ⟨k, v⟩ := y
    obtain ⟨hk, hm⟩ := (Store.sorted_cons k v m).1 h
    unfold Store.put
    split
    · rename_i hlt
      refine (Store.sorted_cons _ _ _).2 ⟨fun x hx => ?_, h⟩
      rcases List.mem_cons.1 hx with rfl | hx
      · exact hlt
      · exact lt_trans hlt (hk x hx)
    · split
      · subst a; exact (Store.sorted_cons _ _ _).2 ⟨hk, hm⟩
      · refine (Store.sorted_cons _ _ _).2 ⟨fun x hx => ?_, ih hm⟩
        rcases Store.mem_put hx with rfl | hx
        · simp only; omega
        · exact hk x hx

theorem Store.below_put {n a : Nat} {b : Byte} {m : Store} (ha : a < n) (h : Store.below n m = true) :
    Store.below n (Store.put a b m) = true := by
  rw [Store.below_iff] at h ⊢
  intro x hx
  rcases Store.mem_put hx with rfl | hx
  · exact ha
  · exact h x hx

/-- Unwriting an index: it reads as unwritten, every other as before. -/
theorem Store.read?_drop (a : Nat) (m : Store) (i : Nat) :
    Store.read? (Store.drop a m) i = if a = i then none else Store.read? m i := by
  induction m with
  | nil => simp [Store.drop]
  | cons x m ih =>
    obtain ⟨k, v⟩ := x
    simp only [Store.drop] at ih
    by_cases hk : k = a
    · subst k
      simp only [Store.drop, List.filter_cons, bne_self_eq_false, Bool.false_eq_true, if_false, ih,
        Store.read?]
      split <;> simp_all
    · have : (k != a) = true := by simpa using hk
      simp only [Store.drop, List.filter_cons, this, if_true, Store.read?, ih]
      split
      · subst i; simp [Ne.symm hk]
      · rfl

theorem Store.mem_drop {a : Nat} {m : Store} {x : Host.Cell} (h : x ∈ Store.drop a m) : x ∈ m :=
  (List.mem_filter.1 h).1

theorem Store.sorted_drop {a : Nat} {m : Store} (h : Store.sorted m = true) :
    Store.sorted (Store.drop a m) = true := by
  induction m with
  | nil => rfl
  | cons y m ih =>
    obtain ⟨k, v⟩ := y
    obtain ⟨hk, hm⟩ := (Store.sorted_cons k v m).1 h
    have ih := ih hm
    simp only [Store.drop, List.filter_cons]
    split
    · exact (Store.sorted_cons _ _ _).2 ⟨fun x hx => hk x (List.mem_filter.1 hx).1, ih⟩
    · exact ih

theorem Store.below_drop {n a : Nat} {m : Store} (h : Store.below n m = true) :
    Store.below n (Store.drop a m) = true := by
  rw [Store.below_iff] at h ⊢
  exact fun x hx => h x (Store.mem_drop hx)

/-- A written byte is found in a sorted store. -/
theorem Store.read?_eq_some {m : Store} (h : Store.sorted m = true) {a : Nat} {b : Byte} :
    Store.read? m a = some b ↔ (a, b) ∈ m := by
  induction m with
  | nil => simp
  | cons x m ih =>
    obtain ⟨k, v⟩ := x
    obtain ⟨hk, hm⟩ := (Store.sorted_cons k v m).1 h
    simp only [Store.read?, List.mem_cons, Prod.mk.injEq]
    split
    · subst k
      constructor
      · intro h; simp_all
      · rintro (⟨-, rfl⟩ | h)
        · rfl
        · exact absurd (hk _ h) (lt_irrefl _)
    · rw [ih hm]
      constructor
      · exact .inr
      · rintro (⟨rfl, -⟩ | h)
        · contradiction
        · exact h

/-- Two sorted stores that read alike are equal: equal contents are equal data. -/
theorem Store.ext_of_read {m n : Store} (hm : Store.sorted m = true) (hn : Store.sorted n = true)
    (h : ∀ a, Store.read? m a = Store.read? n a) : m = n := by
  have key : ∀ x, x ∈ m ↔ x ∈ n := fun ⟨a, b⟩ => by
    rw [← Store.read?_eq_some hm, ← Store.read?_eq_some hn, h]
  have pw : ∀ {l : Store}, Store.sorted l = true → l.Pairwise fun x y => x.1 < y.1 := by
    intro l
    induction l with
    | nil => intro _; exact List.Pairwise.nil
    | cons x l ih =>
      intro hl
      obtain ⟨hk, hl⟩ := (Store.sorted_cons x.1 x.2 l).1 hl
      exact List.Pairwise.cons hk (ih hl)
  have nd : ∀ {l : Store}, Store.sorted l = true → l.Nodup := fun hl =>
    (pw hl).imp fun {x y} hxy hEq => by subst hEq; exact lt_irrefl _ hxy
  have perm : m.Perm n := (List.perm_ext_iff_of_nodup (nd hm) (nd hn)).2 key
  exact perm.eq_of_pairwise (fun x y _ _ h1 h2 => absurd h1 (not_lt.2 (le_of_lt h2))) (pw hm) (pw hn)

/-! Program memory. -/

theorem Memory.wf_iff (m : Memory) :
    Memory.wf m = true ↔ Store.sorted m = true ∧ ∀ x ∈ m, x.2 ≠ Memory.unlisted := by
  simp [Memory.wf]

@[simp] theorem Memory.wf_nil : Memory.wf [] = true := rfl

@[simp] theorem Memory.read_nil (a : Nat) : Memory.read [] a = Memory.unlisted := rfl

/-- A read after a write of program memory. -/
theorem Memory.read_write (a : Nat) (b : Byte) (m : Memory) (i : Nat) :
    Memory.read (Memory.write a b m) i = if a = i then b else Memory.read m i := by
  unfold Memory.read Memory.write
  split
  · rw [Store.read?_drop]; split <;> simp_all
  · rw [Store.read?_put]; split <;> simp_all

theorem Memory.wf_write {a : Nat} {b : Byte} {m : Memory} (h : Memory.wf m = true) :
    Memory.wf (Memory.write a b m) = true := by
  rw [Memory.wf_iff] at h ⊢
  unfold Memory.write
  split
  · exact ⟨Store.sorted_drop h.1, fun x hx => h.2 x (Store.mem_drop hx)⟩
  · refine ⟨Store.sorted_put h.1, fun x hx => ?_⟩
    rcases Store.mem_put hx with rfl | hx
    · assumption
    · exact h.2 x hx

theorem Memory.below_write {n a : Nat} {b : Byte} {m : Memory} (ha : a < n)
    (h : Store.below n m = true) : Store.below n (Memory.write a b m) = true := by
  unfold Memory.write
  split
  · exact Store.below_drop h
  · exact Store.below_put ha h

/-- Filling a range: each byte of it as given, every other byte as before. -/
theorem Memory.read_fill (p : Nat) (f : Nat → Byte) (n : Nat) (m : Memory) (a : Nat) :
    Memory.read (Memory.fill p f n m) a
      = if p ≤ a ∧ a < p + n then f (a - p) else Memory.read m a := by
  induction n with
  | zero => rw [if_neg (by omega)]; rfl
  | succ n ih =>
    rw [Memory.fill, Memory.read_write, ih]
    by_cases h : p + n = a
    · subst h; rw [if_pos rfl, if_pos (by omega)]; congr 1; omega
    · rw [if_neg h]
      by_cases h2 : p ≤ a ∧ a < p + n
      · rw [if_pos h2, if_pos (by omega)]
      · rw [if_neg h2, if_neg (by omega)]

theorem Memory.wf_fill {p n : Nat} {f : Nat → Byte} {m : Memory} (h : Memory.wf m = true) :
    Memory.wf (Memory.fill p f n m) = true := by
  induction n with
  | zero => exact h
  | succ n ih => exact Memory.wf_write ih

theorem Memory.below_fill {k p n : Nat} {f : Nat → Byte} {m : Memory} (hk : p + n ≤ k)
    (h : Store.below k m = true) : Store.below k (Memory.fill p f n m) = true := by
  induction n with
  | zero => exact h
  | succ n ih => exact Memory.below_write (by omega) (ih (by omega))

end Sys2Proof.Machine
end

