-- ==== Sys2Proof/Laws/Ops.lean ====
section
/-! SUPPORT. One lemma per shared operation, saying everything it can do; the provers cite these instead of unfolding
the operation. -/

namespace Sys2Proof.Machine

/-! Reads of the session buffer. -/

/-- `BUF[i..i+n-1]` as a list: all cells are written and these are their bytes. -/
theorem bufBytes_eq_some (s : State) (i n : Nat) (p : List Byte) :
    s.bufBytes i n = some p ↔ p.length = n ∧ ∀ j, j < n → s.bufAt (i + j) = p[j]? := by
  induction n generalizing i p with
  | zero =>
    simp only [State.bufBytes, Option.some.injEq, Nat.not_lt_zero, false_implies, implies_true, and_true,
      List.length_eq_zero_iff]
    exact eq_comm
  | succ n ih =>
    rw [State.bufBytes]
    cases hb : s.bufAt i with
    | none =>
      simp only [reduceCtorEq, false_iff, not_and]
      intro hp h
      have h0 := h 0 (Nat.succ_pos n)
      rw [Nat.add_zero, hb] at h0
      have : p[0]?.isSome := by simp [hp]
      simp [← h0] at this
    | some b =>
      cases hbs : s.bufBytes (i + 1) n with
      | none =>
        simp only [reduceCtorEq, false_iff, not_and]
        intro hp h
        cases p with
        | nil => simp at hp
        | cons c p =>
          have := (ih (i + 1) p).2 ⟨by simpa using hp, fun j hj => by
            have := h (j + 1) (by omega)
            simpa [Nat.add_assoc, Nat.add_comm 1 j] using this⟩
          rw [hbs] at this; cases this
      | some bs =>
        obtain ⟨hl, hr⟩ := (ih (i + 1) bs).1 hbs
        simp only [Option.some.injEq]
        constructor
        · rintro rfl
          refine ⟨by simp [hl], fun j hj => ?_⟩
          cases j with
          | zero => simpa using hb
          | succ j =>
            have := hr j (by omega)
            simpa [Nat.add_assoc, Nat.add_comm 1 j] using this
        · rintro ⟨hp, h⟩
          cases p with
          | nil => simp at hp
          | cons c p =>
            have h0 := h 0 (Nat.succ_pos n)
            simp only [Nat.add_zero, hb, List.getElem?_cons_zero, Option.some.injEq] at h0
            have := (ih (i + 1) p).2 ⟨by simpa using hp, fun j hj => by
              have := h (j + 1) (by omega)
              simpa [Nat.add_assoc, Nat.add_comm 1 j] using this⟩
            rw [hbs] at this
            cases this
            rw [h0]

/-- The list of `BUF[i..i+n-1]` is there exactly when every cell is written. -/
theorem bufBytes_isSome (s : State) (i n : Nat) :
    (s.bufBytes i n).isSome = true ↔ ∀ j, j < n → (s.bufAt (i + j)).isSome = true := by
  constructor
  · intro h j hj
    obtain ⟨p, hp⟩ := Option.isSome_iff_exists.1 h
    obtain ⟨hl, hr⟩ := (bufBytes_eq_some s i n p).1 hp
    rw [hr j hj]
    simp [hl, hj]
  · induction n generalizing i with
    | zero => intro _; rfl
    | succ n ih =>
      intro h
      have h0 := h 0 (Nat.succ_pos n)
      have h1 := ih (i + 1) fun j hj => by
        have := h (j + 1) (by omega)
        simpa [Nat.add_assoc, Nat.add_comm 1 j] using this
      obtain ⟨b, hb⟩ := Option.isSome_iff_exists.1 h0
      obtain ⟨bs, hbs⟩ := Option.isSome_iff_exists.1 h1
      rw [Nat.add_zero] at hb
      simp [State.bufBytes, hb, hbs]

/-- The list of buffer bytes depends on the buffer alone. -/
theorem bufBytes_congr {s t : State} (h : t.buf = s.buf) (i n : Nat) : t.bufBytes i n = s.bufBytes i n := by
  induction n generalizing i with
  | zero => rfl
  | succ n ih => simp [State.bufBytes, State.bufAt, h, ih]

/-- A write inside the buffer. -/
theorem putBuf_eq {s : State} {i : Nat} (h : i < s.cfg.bufBytes) (b : Byte) :
    s.putBuf i b = some { s with buf := Store.put i b s.buf } := by
  simp [State.putBuf, h]

theorem bufBytes_ge_twenty (c : Cfg) : 20 ≤ c.bufBytes := by simp [Cfg.bufBytes]

theorem bufBytes_ge_page (c : Cfg) : c.pageBytes ≤ c.bufBytes := by simp [Cfg.bufBytes]

/-! Reads of program memory and of the constant store. -/

/-- A read of program memory that answers does so with the state unchanged but for a drawn byte. -/
theorem flashRead_ok {a : Nat} {s t : State} {b : Byte} (h : flashRead a s = .ok (b, t)) :
    (s.cfg.flashBytes ≤ a ∧ b = s.drawn ∧ t = s.afterDraws 1)
      ∨ (a < s.cfg.flashBytes ∧ b = Memory.read s.flash a ∧ t = s) := by
  unfold flashRead at h
  split at h
  · cases h; exact .inl ⟨‹_›, rfl, rfl⟩
  · split at h
    · cases h
    · cases h; exact .inr ⟨by omega, rfl, rfl⟩

/-- With the user region readable, every read answers. -/
theorem flashRead_readable {s : State} (h : s.rwwRd = true) (a : Nat) :
    flashRead a s = if s.cfg.flashBytes ≤ a then .ok (s.drawn, s.afterDraws 1)
      else .ok (Memory.read s.flash a, s) := by
  simp [flashRead, h]

/-- The one fault of a read. -/
theorem flashRead_error {a : Nat} {s : State} {f : Fault} (h : flashRead a s = .error f) : f = .rwwRead := by
  unfold flashRead at h
  split at h
  · cases h
  · split at h
    · cases h; rfl
    · cases h

/-- A read of the Identity/Version Block inside it. -/
theorem identRead_lt {k : Nat} (h : k < 8) (s : State) : identRead k s = (identByte s.cfg k, s) := by
  simp [identRead, h]

/-- A read of the Identity/Version Block changes nothing but the counter of drawn bytes. -/
theorem identRead_state (k : Nat) (s : State) : ∃ n, (identRead k s).2 = s.afterDraws n := by
  unfold identRead
  split
  · exact ⟨0, rfl⟩
  · exact ⟨1, rfl⟩

/-- GET_PARAMETER selects a byte inside the block. -/
theorem paramOffset_lt (id : Byte) : paramOffset id < 8 := by
  simp only [paramOffset]
  split
  · split <;> omega
  · omega

/-- A response byte that can be read leaves the state unchanged but for a drawn byte. -/
theorem respByte_ok {r : Resp} {j : Nat} {s t : State} {b : Byte} (h : respByte r j s = .ok (b, t)) :
    ∃ n, t = s.afterDraws n := by
  unfold respByte at h
  split at h
  · cases h; exact ⟨1, rfl⟩
  · obtain ⟨n, hn⟩ := identRead_state _ _
    exact ⟨n, by rw [← hn]; exact (congrArg Prod.snd (Except.ok.inj h)).symm⟩
  · cases h; exact ⟨0, rfl⟩
  · split at h
    · cases h; exact ⟨0, rfl⟩
    · cases h

/-- A response byte inside a readable payload is the payload's byte, and nothing is drawn. -/
theorem respByte_payload {r : Resp} {s : State} {ps : List Byte} (h : responsePayload s r = some ps) {j : Nat}
    (hj : j < ps.length) : respByte r j s = .ok (ps[j], s) := by
  cases r with
  | none => simp only [responsePayload, Option.some.injEq] at h; subst h; simp at hj
  | byte v =>
    simp only [responsePayload, Option.some.injEq] at h; subst h
    simp only [List.length_singleton] at hj
    obtain rfl : j = 0 := by omega
    rfl
  | const k n =>
    simp only [responsePayload] at h
    split at h
    · simp only [Option.some.injEq] at h; subst h
      simp only [List.length_map, List.length_range] at hj
      simp [respByte, identRead_lt (show k + j < 8 by omega)]
    · cases h
  | buffer n =>
    obtain ⟨hl, hr⟩ := (bufBytes_eq_some s 0 n ps).1 h
    have := hr j (by omega)
    rw [Nat.zero_add] at this
    simp [respByte, this, hj]

/-- The length of a readable payload is the descriptor's. -/
theorem responsePayload_length {r : Resp} {s : State} {ps : List Byte} (h : responsePayload s r = some ps) :
    ps.length = r.length := by
  cases r with
  | none => simp only [responsePayload, Option.some.injEq] at h; subst h; rfl
  | byte v => simp only [responsePayload, Option.some.injEq] at h; subst h; rfl
  | const k n =>
    simp only [responsePayload] at h
    split at h
    · simp only [Option.some.injEq] at h; subst h; simp [Resp.length]
    · cases h
  | buffer n => exact ((bufBytes_eq_some s 0 n ps).1 h).1

/-- The payload of a descriptor depends on the configuration and the buffer alone. -/
theorem responsePayload_congr {s t : State} (hc : t.cfg = s.cfg) (hb : t.buf = s.buf) (r : Resp) :
    responsePayload t r = responsePayload s r := by
  cases r <;> simp [responsePayload, hc, bufBytes_congr hb]

/-! The reads of READ_PAGE. -/

/-- The state in which READ_PAGE's reads end differs from the one they start in by the buffer and the draws only. -/
theorem readIntoBuf_state (base n j : Nat) (s : State) :
    ∃ buf d, (readIntoBuf base n j s).2 = { s with buf := buf, draws := d }
      ∧ ∀ i, (i < j ∨ j + n ≤ i) → Store.read? buf i = Store.read? s.buf i := by
  induction n generalizing j s with
  | zero => exact ⟨s.buf, s.draws, rfl, fun _ _ => rfl⟩
  | succ n ih =>
    rw [readIntoBuf]
    cases h : flashRead (addressAfter s.cfg base j) s with
    | error f => exact ⟨s.buf, s.draws, rfl, fun _ _ => rfl⟩
    | ok r =>
      obtain ⟨b, t⟩ := r
      obtain ⟨buf, d, he, hr⟩ := ih (j + 1) { t with buf := Store.put j b t.buf }
      refine ⟨buf, d, ?_, fun i hi => ?_⟩
      · simp only [he]
        rcases flashRead_ok h with ⟨-, -, rfl⟩ | ⟨-, -, rfl⟩ <;> rfl
      · rw [hr i (by omega)]
        simp only [Store.read?_put]
        rw [if_neg (by omega)]
        rcases flashRead_ok h with ⟨-, -, rfl⟩ | ⟨-, -, rfl⟩ <;> rfl

/-- With the user region readable, READ_PAGE's reads all answer, and put the bytes of program memory into the buffer. -/
theorem readIntoBuf_readable (base n j : Nat) (s : State) (h : s.rwwRd = true) :
    (readIntoBuf base n j s).1 = none
      ∧ ∀ i, j ≤ i → i < j + n → ∃ b, (readIntoBuf base n j s).2.bufAt i = some b
        ∧ (addressAfter s.cfg base i < s.cfg.flashBytes →
            b = Memory.read s.flash (addressAfter s.cfg base i)) := by
  induction n generalizing j s with
  | zero => exact ⟨rfl, fun i h1 h2 => by omega⟩
  | succ n ih =>
    rw [readIntoBuf]
    cases hf : flashRead (addressAfter s.cfg base j) s with
    | error f => rw [flashRead_readable h] at hf; split at hf <;> cases hf
    | ok r =>
      obtain ⟨b, t⟩ := r
      have ht := flashRead_ok hf
      have hc : t.cfg = s.cfg ∧ t.flash = s.flash ∧ t.rwwRd = true := by
        rcases ht with ⟨-, -, rfl⟩ | ⟨-, -, rfl⟩ <;> exact ⟨rfl, rfl, h⟩
      obtain ⟨hn, hi⟩ := ih (j + 1) { t with buf := Store.put j b t.buf } hc.2.2
      refine ⟨hn, fun i h1 h2 => ?_⟩
      rcases Nat.eq_or_lt_of_le h1 with rfl | h1
      · obtain ⟨buf, d, he, hr⟩ := readIntoBuf_state base n (j + 1) { t with buf := Store.put j b t.buf }
        refine ⟨b, ?_, fun hlt => ?_⟩
        · simp only [State.bufAt, he]
          rw [hr j (by omega), Store.read?_put, if_pos rfl]
        · rcases ht with ⟨hge, -, -⟩ | ⟨-, hb, -⟩
          · omega
          · exact hb
      · have := hi i h1 (by omega)
        simpa only [hc.1, hc.2.1] using this

/-! The command under execution. -/

/-- Every cell that a command's rule reads is one of its payload. -/
theorem operandCells_lt (s : State) (b : Byte) : ∀ i ∈ s.operandCells b, i < payloadLen b := by
  unfold State.operandCells
  split
  · subst b; decide
  split
  · subst b; decide
  split
  · subst b; split <;> decide
  split
  · rename_i h; rcases h with rfl | rfl <;> decide
  · exact nofun

/-- With its whole payload written, the command under execution is `CMD` and that payload decoded. -/
theorem fetch_of_payload {s : State} {b : Byte} {p : List Byte} (hc : s.cmd = some b)
    (hb : s.bufBytes 0 (payloadLen b) = some p) : fetch s = .ok (instrOf s.cfg b p) := by
  obtain ⟨hl, hr⟩ := (bufBytes_eq_some s 0 _ p).1 hb
  have hw : ∀ i, i < payloadLen b → (s.bufAt i).isSome = true := by
    simpa using (bufBytes_isSome s 0 (payloadLen b)).1 (by simp [hb])
  have hp : s.payload (payloadLen b) = p := by
    refine List.ext_getElem (by simp [State.payload, hl]) fun i _ h2 => ?_
    have := hr i (hl ▸ h2)
    simp only [Nat.zero_add] at this
    simp [State.payload, this, h2]
  have ha : ((s.operandCells b).all fun i => (s.bufAt i).isSome) = true :=
    List.all_eq_true.2 fun i hi => hw i (operandCells_lt s b i hi)
  simp only [fetch, hc, ha, if_true, hp]

/-- The command under execution depends on `CMD`, `BUF` and the configuration alone. -/
theorem fetch_congr {s t : State} (hg : t.cfg = s.cfg) (hc : t.cmd = s.cmd) (hb : t.buf = s.buf) :
    fetch t = fetch s := by
  simp only [fetch, State.operandCells, State.payload, State.bufAt, hg, hc, hb]
  split <;> rfl

/-! Agents' moves. -/

/-- Everything one step can do. -/
theorem step_cases {s t : State} (h : step s = .next t) :
    s.cfg.legal = true ∧
      ((s.nextTurn = .reset ∧ t = deviceReset s.afterTurn)
        ∨ (s.nextTurn = .sequencer ∧ s.phase ≠ .user ∧ sequencerMove s.afterTurn = .next t)
        ∨ (s.nextTurn = .flash ∧ s.phase ≠ .user ∧ flashMove s.afterTurn = .next t)
        ∨ ∃ b, s.nextTurn = .host b ∧ s.phase ≠ .user ∧ t = hostDeliver b s.afterTurn) := by
  unfold step at h
  split at h
  · refine ⟨‹_›, ?_⟩
    unfold move at h
    split at h <;> rename_i ht
    · cases h; exact .inl ⟨ht, rfl⟩
    · split at h <;> rename_i hu
      · cases h
      · exact .inr (.inl ⟨ht, by simpa using hu, h⟩)
    · split at h <;> rename_i hu
      · cases h
      · exact .inr (.inr (.inl ⟨ht, by simpa using hu, h⟩))
    · split at h <;> rename_i hu
      · cases h
      · cases h; exact .inr (.inr (.inr ⟨_, ht, by simpa using hu, rfl⟩))
  · cases h

/-- Everything the sequencer's move can do. -/
theorem sequencerMove_cases {s t : State} (h : sequencerMove s = .next t) :
    s.fault = none ∧
      ((s.sequencerRuns = true ∧ stepPhase s = .next t) ∨ (s.sequencerRuns = false ∧ t = s)) := by
  unfold sequencerMove at h
  split at h
  · cases h
  · refine ⟨‹_›, ?_⟩
    split at h
    · exact .inl ⟨‹_›, h⟩
    · cases h; exact .inr ⟨Bool.eq_false_iff.2 ‹_›, rfl⟩

/-- The step of a state in which the sequencer moves next and runs is the step of its phase. -/
theorem step_of_sequencer {s : State} {ag : List Turn} (h : SequencerNext s ag)
    (hr : s.sequencerRuns = true) : step s = stepPhase { s with agenda := ag } := by
  obtain ⟨hl, hf, ha⟩ := h
  obtain ⟨ht, ht'⟩ := State.afterTurn_cons ha
  have hu : s.phase ≠ .user := by
    intro h; simp [State.sequencerRuns, h] at hr
  have hr' : ({ s with agenda := ag } : State).sequencerRuns = true := hr
  unfold step
  rw [if_pos hl, ht, ht', move, if_neg hu]
  unfold sequencerMove
  split
  · simp_all
  · rw [if_pos hr']

/-- Everything the flash controller's move can do. -/
theorem flashMove_cases {s t : State} (h : flashMove s = .next t) :
    (s.fcOp = .none ∧ t = s)
      ∨ (∃ p, s.fcOp = .erase p ∧ p + s.cfg.pageBytes ≤ s.cfg.flashBytes ∧ t = eraseCompleted p s)
      ∨ ∃ p, s.fcOp = .write p ∧ p + s.cfg.pageBytes ≤ s.cfg.flashBytes ∧ t = writeCompleted p s := by
  unfold flashMove at h
  split at h
  · cases h; exact .inl ⟨‹_›, rfl⟩
  · split at h
    · cases h; exact .inr (.inl ⟨_, ‹_›, ‹_›, rfl⟩)
    · cases h
  · split at h
    · cases h; exact .inr (.inr ⟨_, ‹_›, ‹_›, rfl⟩)
    · cases h

/-! The step of each phase. -/

theorem stepPhase_idle {s : State} (h : s.phase = .idle) :
    stepPhase s = stepIdle s := by
  simp only [stepPhase, h]

theorem stepPhase_rxPayload {s : State} {got : Nat} (h : s.phase = .rxPayload got) :
    stepPhase s = stepRxPayload got s := by
  simp only [stepPhase, h]

theorem stepPhase_exec {s : State} (h : s.phase = .exec) :
    stepPhase s = stepExec s := by
  simp only [stepPhase, h]

theorem stepPhase_pgRx {s : State} {got : Nat} (h : s.phase = .pgRx got) :
    stepPhase s = stepPgRx got s := by
  simp only [stepPhase, h]

theorem stepPhase_pgWaitErase {s : State} (h : s.phase = .pgWaitErase) :
    stepPhase s = stepPgWaitErase s := by
  simp only [stepPhase, h]

theorem stepPhase_pgFill {s : State} {done : Nat} (h : s.phase = .pgFill done) :
    stepPhase s = stepPgFill done s := by
  simp only [stepPhase, h]

theorem stepPhase_pgWaitWrite {s : State} (h : s.phase = .pgWaitWrite) :
    stepPhase s = stepPgWaitWrite s := by
  simp only [stepPhase, h]

theorem stepPhase_waitTerm {s : State} (h : s.phase = .waitTerm) :
    stepPhase s = stepWaitTerm s := by
  simp only [stepPhase, h]

theorem stepPhase_tx {s : State} {sent : Nat} (h : s.phase = .tx sent) :
    stepPhase s = stepTx sent s := by
  simp only [stepPhase, h]

theorem stepPhase_hoCheck {s : State} (h : s.phase = .hoCheck) :
    stepPhase s = stepHoCheck s := by
  simp only [stepPhase, h]

theorem stepPhase_hoSeq {s : State} {stage : HoStage} (h : s.phase = .hoSeq stage) :
    stepPhase s = stepHoSeq stage s := by
  simp only [stepPhase, h]

/-- The sequencer runs in every phase of the dispatcher, the engine and the firmware check while `ARMED`. -/
theorem sequencerRuns_armed {s : State} (hm : s.mode = .armed) (h1 : ∀ g, s.phase ≠ .hoSeq g)
    (h2 : s.phase ≠ .user) : s.sequencerRuns = true := by
  unfold State.sequencerRuns
  split <;> simp_all

/-- The sequencer's part of a schedule, one move at a time. -/
theorem sequencerRunsFor_head {k : Nat} {s : State} {ag : List Turn} (h : SequencerRunsFor (k + 1) s ag) :
    SequencerNext s (List.replicate k .sequencer ++ ag) :=
  ⟨h.1, h.2.1, by rw [h.2.2]; rfl⟩

/-- A run in two parts. -/
theorem runFor_add (a b : Nat) (s : State) :
    runFor (a + b) s = match runFor a s with
      | .next t => runFor b t
      | .fault f => .fault f
      | .refused r => .refused r := by
  induction a generalizing s with
  | zero => simp [runFor]
  | succ a ih =>
    rw [Nat.succ_add, runFor, runFor]
    cases h : step s <;> simp [ih]

/-! The flash controller's operations. -/

/-- What an operation does when none is outstanding, and when one is. -/
theorem whenFcIdle_eq (s : State) (k : State → Out) :
    whenFcIdle s k = if s.fcOp = .none then k s else .next (s.faulted .fcBusy) := by
  unfold whenFcIdle State.fcBusy raise
  cases h : s.fcOp <;> simp

/-! Page arithmetic. -/

theorem legal_iff_parts {c : Cfg} (h : c.legal = true) :
    (∃ k, k < c.addrBits ∧ c.pageBytes = 2 ^ (k + 1)) ∧ c.flashBytes % c.pageBytes = 0
      ∧ c.bootBytes % c.pageBytes = 0 ∧ 0 < c.bootBytes ∧ c.bootBytes < c.flashBytes
      ∧ c.flashBytes ≤ 2 ^ c.addrBits ∧ c.commandBytesOk = true ∧ 1 ≤ c.syncRetries
      ∧ 1 ≤ c.leaveDelay ∧ c.leaveDelay < 2 ^ c.inactBits := by
  simp only [Cfg.legal, powerOfTwo, Bool.and_eq_true, List.any_eq_true, List.mem_range, beq_iff_eq,
    decide_eq_true_eq] at h
  tauto

theorem legal_page_pos {c : Cfg} (h : c.legal = true) : 0 < c.pageBytes := by
  obtain ⟨⟨k, -, hk⟩, -⟩ := legal_iff_parts h
  rw [hk]; exact Nat.two_pow_pos _

theorem legal_page_even {c : Cfg} (h : c.legal = true) : c.pageBytes % 2 = 0 := by
  obtain ⟨⟨k, -, hk⟩, -⟩ := legal_iff_parts h
  rw [hk, Nat.pow_succ]; omega

/-- The boundary is a multiple of the page size (R7), and inside program memory. -/
theorem legal_boundary {c : Cfg} (h : c.legal = true) :
    c.pageBytes ∣ c.boundary ∧ c.boundary < c.flashBytes := by
  obtain ⟨-, hf, hb, hp, hlt, -⟩ := legal_iff_parts h
  exact ⟨Nat.dvd_sub (Nat.dvd_of_mod_eq_zero hf) (Nat.dvd_of_mod_eq_zero hb), by
    simp only [Cfg.boundary]; omega⟩

theorem unprotected_iff {c : Cfg} {a : Nat} :
    c.isProtected a = false ↔ c.pageBase a + c.pageBytes ≤ c.boundary := by
  simp [Cfg.isProtected]

theorem pageBase_add_pageOff (c : Cfg) (a : Nat) : c.pageBase a + c.pageOff a = a := by
  simp only [Cfg.pageBase, Cfg.pageOff]
  have := Nat.mod_le a c.pageBytes
  omega

end Sys2Proof.Machine
end

