-- ==== Sys2Proof/Laws/Runs.lean ====
section
/-! SUPPORT. Runs, the schedule's bookkeeping, page offsets, and what the execution of a command and a move of the
flash controller can lead to. -/

namespace Sys2Proof.Laws

open Sys2Proof Sys2Proof.Machine

/-! Runs and the schedule. -/

theorem runFor_succ {k : Nat} {s t : State} (h : step s = .next t) : runFor (k + 1) s = runFor k t := by
  rw [runFor, h]

theorem runFor_after {a b : Nat} {s t : State} (h : runFor a s = .next t) : runFor (a + b) s = runFor b t := by
  rw [runFor_add, h]

/-- A run of `a + b` sequencer moves starts with `a` of them. -/
theorem sequencerRunsFor_prefix {a b : Nat} {s : State} {ag : List Turn} (h : SequencerRunsFor (a + b) s ag) :
    SequencerRunsFor a s (List.replicate b .sequencer ++ ag) :=
  ⟨h.1, h.2.1, by rw [h.2.2, List.replicate_add, List.append_assoc]⟩

/-- Taking a move off the schedule changes nothing else. -/
theorem afterTurn_eq (s : State) :
    s.afterTurn = { s with agenda := s.afterTurn.agenda, turns := s.afterTurn.turns } := by
  unfold State.afterTurn
  split <;> rfl

/-- The parts of the state that a move of the flash controller can change. -/
theorem flashMove_keeps {s t : State} (h : flashMove s = .next t) :
    t = { s with flash := t.flash, fcOp := t.fcOp, pageBuf := t.pageBuf, draws := t.draws } := by
  rcases flashMove_cases h with ⟨_, rfl⟩ | ⟨p, _, _, rfl⟩ | ⟨p, _, _, rfl⟩ <;> rfl

/-- The invariant says nothing of the schedule and of `RXQ`. -/
theorem inv_schedule {s : State} (h : Inv s) (ag : List Turn) (n : Nat) (q : List Byte) :
    Inv { s with agenda := ag, turns := n, rxq := q } := by
  obtain ⟨hl, hst, hw, hph, hho, hfo⟩ := h
  refine ⟨hl, hst, hw, ?_, hho, hfo⟩
  have hr : ∀ r, responsePayload { s with agenda := ag, turns := n, rxq := q } r = responsePayload s r :=
    fun r => responsePayload_congr (by rfl) (by rfl) r
  revert hph
  simp only [PhaseOk, RespOk, hr]
  exact id

/-! Page offsets. -/

theorem pageOff_lt {c : Cfg} (h : c.legal = true) (a : Nat) : c.pageOff a < c.pageBytes :=
  Nat.mod_lt _ (legal_page_pos h)

/-- Fewer bytes than a page land at different offsets (R118). -/
theorem pageOff_inj {c : Cfg} {a i j : Nat} (hi : i < c.pageBytes) (hj : j < c.pageBytes)
    (h : c.pageOff (a + i) = c.pageOff (a + j)) : i = j := by
  simp only [Cfg.pageOff] at h
  exact Nat.ModEq.eq_of_lt_of_lt (Nat.ModEq.add_left_cancel' a (show a + i ≡ a + j [MOD c.pageBytes] from h)) hi hj

/-- The byte after an even address is at the next offset of the same page. -/
theorem pageOff_succ {c : Cfg} (hl : c.legal = true) {a : Nat} (ha : a % 2 = 0) :
    c.pageOff (a + 1) = c.pageOff a + 1 := by
  have h2 := legal_page_even hl
  have h3 := pageOff_lt hl a
  have h1 : c.pageOff a % 2 = 0 := by
    simp only [Cfg.pageOff]
    rw [Nat.mod_mod_of_dvd _ (Nat.dvd_of_mod_eq_zero h2), ha]
  simp only [Cfg.pageOff] at *
  rw [Nat.add_mod, Nat.mod_eq_of_lt (show 1 < c.pageBytes by omega), Nat.mod_eq_of_lt (by omega)]

/-! Commands. -/

/-- Where the execution of a command can lead: to the terminator wait, to the page-data receive, or nowhere with a
fault set. -/
theorem exec_phase {i : Instr} {s t : State} (h : exec i s = .next t) :
    t.flash = s.flash ∧ (t.phase = .waitTerm ∨ t.phase = .pgRx 0 ∨ (t.phase = s.phase ∧ t.fault.isSome = true)) := by
  have ans : ∀ r (s1 t1 : State), answer r s1 = .next t1 → t1 = { s1 with resp := some r, tries := some 0, phase := .waitTerm } := by
    intro r s1 t1 h; cases h; rfl
  cases i with
  | getParameter id =>
    simp only [exec, execGetParameter, identRead_lt (paramOffset_lt id)] at h
    rw [ans _ _ _ h]; simp
  | setDevice p => simp only [exec, execSetDevice] at h; rw [ans _ _ _ h]; simp
  | setDeviceExt p => simp only [exec, execSetDeviceExt] at h; rw [ans _ _ _ h]; simp
  | universal a b c d =>
    simp only [exec, execUniversal] at h
    split at h
    · obtain ⟨n, hn⟩ := identRead_state c.toNat s
      generalize identRead c.toNat s = z at hn h
      obtain ⟨v, s1⟩ := z
      simp only at hn h
      subst hn
      rw [ans _ _ _ h]; simp [State.afterDraws]
    · rw [ans _ _ _ h]; simp
  | loadAddress w => simp only [exec, execLoadAddress] at h; rw [ans _ _ _ h]; simp
  | readSign => simp only [exec, execReadSign] at h; rw [ans _ _ _ h]; simp
  | getSync => simp only [exec, execGetSync] at h; rw [ans _ _ _ h]; simp
  | leave =>
    simp only [exec, execLeave] at h
    split at h
    · rw [ans _ _ _ h]; simp
    · rw [ans _ _ _ h]; simp
  | unrecognized b => simp only [exec, execUnrecognized] at h; rw [ans _ _ _ h]; simp
  | readPage x n =>
    simp only [exec, execReadPage] at h
    by_cases hn : readContractBroken s.cfg n = true
    · rw [if_pos hn] at h
      cases h; simp [State.faulted]
    · rw [if_neg hn] at h
      obtain ⟨buf, d, he, hout⟩ := readIntoBuf_state s.loadAddr n.toNat 0 { s with byteCount := some n }
      generalize readIntoBuf s.loadAddr n.toNat 0 { s with byteCount := some n } = z at he h
      obtain ⟨o, s2⟩ := z
      simp only at he h
      subst he
      cases o with
      | some f => cases h; simp [State.faulted]
      | none => simp only at h; rw [ans _ _ _ h]; simp
  | progPage x n =>
    simp only [exec, execProgPage] at h
    by_cases hn : progContractBroken s.cfg n s.loadAddr = true
    · rw [if_pos hn] at h
      cases h; simp [State.faulted]
    · rw [if_neg hn] at h
      unfold engineStart at h
      simp only at h
      split at h
      · cases h; simp
      · simp only [eraseStart, whenFcIdle_eq] at h
        split at h
        · cases h; simp
        · cases h; simp [State.faulted]

end Sys2Proof.Laws
end

