-- ==== Sys2Proof/Tests/Slice0.lean ====
section
/-! SUPPORT. The model's own tests: ill-formed terms, frames written out from 30_encoding.md, single steps with results
from 95_test_vectors.md, and for every obligation with hypotheses a state and operands that meet them. -/

open Sys2Proof Sys2Proof.Machine

namespace Sys2Proof.Tests

/-- A small legal configuration: 16 bytes of program memory, 4 of them protected, pages of 4 bytes. -/
def cfgT : Cfg where
  flashBytes := 16
  bootBytes := 4
  pageBytes := 4
  sig0 := 0x1E
  sig1 := 0x95
  sig2 := 0x0F
  syncRetries := 3
  inactBits := 2
  leaveDelay := 2
  addrBits := 16
  cmdGetSync := 0x30
  cmdLeave := 0x51
  leavePoint := .onDispatch
  irqAfter := .disabled
  irqEn0 := true

/-- The entry state of `cfgT`, with some bytes at the start of program memory and the sequencer to move. -/
def idle : State := { State.launch cfgT [(0, 0x0C), (1, 0x94), (2, 0x34), (3, 0x00)] with agenda := [.sequencer] }

/-- `idle` in another phase. -/
def inPhase (p : Phase) : State := { idle with phase := p }

/-- `idle` with `k` sequencer moves ahead. -/
def ahead (k : Nat) (p : Phase) : State := { idle with phase := p, agenda := List.replicate k .sequencer }

/-- `idle` under `LEAVE_SCHEDULE_POINT = ON_FRAMED`. -/
def idleFramed : State := { idle with cfg := { cfgT with leavePoint := .onFramed } }

/-- One value of the next state, where there is one. -/
def view {α : Type} (f : State → α) : Out → Option α
  | .next s => some (f s)
  | .fault _ => none
  | .refused _ => none

/-! Well-formedness: one ill-formed term for each check. -/

theorem test_wf_setDevice_length : (Instr.setDevice (List.replicate 19 0)).wf cfgT = false := by decide

theorem test_wf_setDeviceExt_length : (Instr.setDeviceExt (List.replicate 6 0)).wf cfgT = false := by decide

theorem test_wf_unrecognized_table_byte : (Instr.unrecognized 0x41).wf cfgT = false := by decide

theorem test_wf_unrecognized_get_sync : (Instr.unrecognized 0x30).wf cfgT = false := by decide

theorem test_wf_unrecognized_leave : (Instr.unrecognized 0x51).wf cfgT = false := by decide

theorem test_wf_unrecognized_zero : (Instr.unrecognized 0x00).wf cfgT = true := by decide

/-- R7: a boot region that is not whole pages, and a leave command byte of the table, make a configuration illegal. -/
theorem test_illegal_configurations :
    ({ cfgT with bootBytes := 6 } : Cfg).legal = false ∧ ({ cfgT with cmdLeave := 0x75 } : Cfg).legal = false
      ∧ cfgT.legal = true := by decide

/-! Decoding: frames written out from the tables of 30_encoding.md sections 1 and 6. -/

theorem test_decode_get_parameter : decode cfgT [0x41, 0x80, 0x20] = .ok (.getParameter 0x80, [0x20]) := rfl

theorem test_decode_set_device :
    decode cfgT [0x42, 0, 1, 2, 3, 4, 5, 6, 7, 8, 9, 10, 11, 12, 13, 14, 15, 16, 17, 18, 19, 0x20]
      = .ok (.setDevice [0, 1, 2, 3, 4, 5, 6, 7, 8, 9, 10, 11, 12, 13, 14, 15, 16, 17, 18, 19], [0x20]) := rfl

theorem test_decode_set_device_ext :
    decode cfgT [0x45, 1, 2, 3, 4, 5, 0x20] = .ok (.setDeviceExt [1, 2, 3, 4, 5], [0x20]) := rfl

/-- The word is little-endian (R69). -/
theorem test_decode_load_address : decode cfgT [0x55, 0xFF, 0x37, 0x20] = .ok (.loadAddress 0x37FF, [0x20]) := rfl

theorem test_decode_universal :
    decode cfgT [0x56, 0x30, 0xFF, 0x02, 0xFE, 0x20] = .ok (.universal 0x30 0xFF 0x02 0xFE, [0x20]) := rfl

/-- The count has its high byte first (R70). -/
theorem test_decode_prog_page :
    decode cfgT [0x64, 0x5A, 0x01, 0x02, 0xAA] = .ok (.progPage 0x5A 0x0102, [0xAA]) := rfl

theorem test_decode_read_page :
    decode cfgT [0x74, 0x5A, 0x01, 0x00, 0x20] = .ok (.readPage 0x5A 0x0100, [0x20]) := rfl

theorem test_decode_read_sign : decode cfgT [0x75, 0x20] = .ok (.readSign, [0x20]) := rfl

theorem test_decode_get_sync : decode cfgT [0x30, 0x20] = .ok (.getSync, [0x20]) := rfl

theorem test_decode_leave : decode cfgT [0x51, 0x20] = .ok (.leave, [0x20]) := rfl

theorem test_decode_unrecognized : decode cfgT [0x10, 0x20] = .ok (.unrecognized 0x10, [0x20]) := rfl

theorem test_decode_short : decode cfgT [0x74, 0, 0] = .error (.shortPayload 0x74) := rfl

theorem test_decode_empty : decode cfgT [] = .error .noCommandByte := rfl

/-- The opcode table's numbering: the command byte is bits 7..0, the terminator of this row bits 23..16. -/
theorem test_decode_table_word : decodeTableWord 24 0x208041 = some (.getParameter 0x80) := by decide

/-- The frames of R78. -/
theorem test_pseudo_read_back :
    pseudoReadBack cfgT 0x0010 4 = [0x55, 0x10, 0x00, 0x20, 0x74, 0x00, 0x00, 0x04, 0x20] := by decide

/-! Commands: at most two single steps each (95_test_vectors.md section 2). -/

/-- Section 2.3, id 0x98. -/
theorem test_get_parameter_98 : view State.resp (exec (.getParameter 0x98) idle) = some (some (.byte 0x03)) := by decide

/-- Section 2.3, id 0x00: the index wraps. -/
theorem test_get_parameter_wraps : view State.resp (exec (.getParameter 0x00) idle) = some (some (.byte 0x00)) := by
  decide

/-- V28. -/
theorem test_set_device :
    view State.resp (exec (.setDevice (List.replicate 20 0xFF)) idle) = some (some .none) := by decide

/-- V29. -/
theorem test_set_device_ext : view State.resp (exec (.setDeviceExt [1, 2, 3, 4, 5]) idle) = some (some .none) := by
  decide

/-- V22: offset 3 is read by the literal rule. -/
theorem test_universal_offset_3 :
    view State.resp (exec (.universal 0x30 0 3 0) idle) = some (some (.byte 0x02)) := by decide

/-- V25. -/
theorem test_universal_other : view State.resp (exec (.universal 0xAC 0x53 0 0) idle) = some (some .none) := by decide

/-- Section 2.5: word 0x3800. -/
theorem test_load_address : view State.loadAddr (exec (.loadAddress 0x3800) idle) = some 0x7000 := by decide

/-- Section 2.5: word 0x8000 wraps. -/
theorem test_load_address_wraps :
    view State.loadAddr (exec (.loadAddress 0x8000) { idle with loadAddr := 6 }) = some 0 := by decide

/-- V37: the last two bytes come from address 0, and `LOAD_ADDR` wraps. -/
theorem test_read_page_wraps :
    view (fun s => (s.bufAt 2, s.bufAt 3, s.loadAddr)) (exec (.readPage 0 4) { idle with loadAddr := 0xFFFE })
      = some (some 0x0C, some 0x94, 2) := by decide

/-- V39: one byte more than a page. -/
theorem test_read_page_contract :
    view (fun s => (s.fault, s.loadAddr)) (exec (.readPage 0 5) idle) = some (some .hostContract, 0) := by decide

/-- V46: the last user page is writable; its erase starts. -/
theorem test_prog_page_last_user_page :
    view (fun s => (s.fcOp, s.phase)) (exec (.progPage 0 2) { idle with loadAddr := 10 })
      = some (.erase 8, .pgRx 0) := by decide

/-- V47: at the boundary no operation starts. -/
theorem test_prog_page_boundary :
    view (fun s => (s.fcOp, s.prot)) (exec (.progPage 0 2) { idle with loadAddr := 12 })
      = some (.none, some true) := by decide

/-- V27. -/
theorem test_read_sign :
    view (fun s => s.resp.bind (responsePayload s)) (exec .readSign idle) = some (some [0x1E, 0x95, 0x0F]) := by decide

/-- V30. -/
theorem test_get_sync : view State.resp (exec .getSync { idle with resp := some (.byte 1) }) = some (some .none) := by
  decide

/-- V15: the delay is armed at execution. -/
theorem test_leave : view State.inact (exec .leave idle) = some 2 := by decide

/-- V19: under ON_FRAMED only the request is set. -/
theorem test_leave_framed : view (fun s => (s.inact, s.leaveReq)) (exec .leave idleFramed) = some (0, true) := by decide

/-- V1. -/
theorem test_unrecognized :
    view (fun s => (s.resp, s.phase)) (exec (.unrecognized 0x00) idle) = some (some .none, .waitTerm) := by decide

/-! Steps outside the commands (95_test_vectors.md sections 2.1, 2.2, 2.8, 2.9). -/

/-- V11, with a counter of two bits. -/
theorem test_idle_wraps : view (fun s => (s.inact, s.phase)) (step idle) = some (3, .idle) := by decide

/-- V13. -/
theorem test_idle_check :
    view (fun s => (s.inact, s.phase)) (step { idle with inact := 1 }) = some (0, .hoCheck) := by decide

/-- V19: the framed response consumes the request and arms the delay. -/
theorem test_leave_framed_response :
    view (fun s => (s.inact, s.leaveReq, s.phase))
        (step { idleFramed with phase := .tx 1, resp := some .none, leaveReq := true })
      = some (2, false, .idle) := by decide

/-- R21, R145: READ_PAGE never reads its ignored byte, and an unwritten count byte stops it. -/
theorem test_fetch_cells :
    fetch { inPhase .exec with cmd := some 0x74, buf := [(1, 0), (2, 4)] } = .ok (.readPage 0 4)
      ∧ fetch { inPhase .exec with cmd := some 0x74, buf := [(0, 0), (2, 4)] } = .error .unwrittenRead :=
  ⟨rfl, rfl⟩

/-- V6. -/
theorem test_mismatch :
    view (fun s => (s.events, s.txs)) (step { inPhase .waitTerm with cmd := some 0x75, tries := some 0, rxq := [0x21] })
      = some ([.frameMismatch 0x75 0x21], []) := by decide

/-- V59: the page is erased and the region still unreadable. -/
theorem test_erase_completion :
    view (fun s => (Memory.read s.flash 0, Memory.read s.flash 3, s.fcOp, s.rwwRd))
        (step { idle with agenda := [.flash], phase := .pgWaitErase, fcOp := .erase 0, rwwRd := false })
      = some (0xFF, 0xFF, .none, false) := by decide

/-- V61: low byte at the even offset. -/
theorem test_fill :
    view (fun s => (Store.read? s.pageBuf 2, Store.read? s.pageBuf 3)) (fillWord 0x102 0x4433 idle .next)
      = some (some 0x33, some 0x44) := by decide

/-- V44, V62: a full page buffer is stored, and is unwritten afterwards. -/
theorem test_write_completion :
    view (fun s => (Memory.read s.flash 4, Memory.read s.flash 7, s.pageBuf))
        (flashMove { idle with fcOp := .write 4, pageBuf := [(0, 0x11), (1, 0x22), (2, 0x33), (3, 0x44)] })
      = some (0x11, 0x44, []) := by decide

/-- V65. -/
theorem test_enable_read_busy :
    view State.fault (enableRead { idle with fcOp := .write 4 } .next) = some (some .fcBusy) := by decide

/-- V67: an erased first word aborts. -/
theorem test_handoff_abort :
    view (fun s => (s.phase, s.events, s.mode)) (step { inPhase .hoCheck with flash := [] })
      = some (.idle, [.noFirmware], .armed) := by decide

/-- V69: only an all-ones word is erased. -/
theorem test_handoff_enter :
    view (fun s => (s.phase, s.mode)) (step { inPhase .hoCheck with flash := [(1, 0x00)] })
      = some (.hoSeq .ledOff, .handoff) := by decide

/-- V71. -/
theorem test_jump_restored :
    view (fun s => (s.irqEn, s.pc)) (handoffJump { idle with
        cfg := { cfgT with irqAfter := .restored }, irqEn := false, irqSave := some true })
      = some (true, some 0) := by decide

/-- The next step of a placed instruction runs it (log 22). -/
theorem test_fetch_word_runs :
    view State.loadAddr (step (State.reset.withFetchWord 32 0x20001055)) = some 0x20 := by decide

/-! Witnesses: for each obligation with hypotheses, a state and operands that meet all of them, and each clause at the
ends of its range. -/

theorem witness_DecodeOfEncode :
    cfgT.commandBytesOk = true ∧ (Instr.setDevice (List.replicate 20 0xFF)).wf cfgT = true
      ∧ (Instr.unrecognized 0xFF).wf cfgT = true := by decide

theorem witness_EncodeOfDecode : decode cfgT [0x74, 0, 0, 4, 0x20] = .ok (.readPage 0 4, [0x20]) := rfl

theorem witness_EveryCommandByteDecodes :
    payloadLen 0x42 ≤ (List.replicate 20 (0 : Byte)).length ∧ payloadLen 0x00 ≤ ([] : List Byte).length := by decide

theorem witness_UniversalResult :
    (0x31 : Byte) ≠ 0x30 ∧ (7 : Byte).toNat < 8 ∧ 8 ≤ (8 : Byte).toNat := by decide

theorem witness_LoadAddressResult : 1 ≤ idle.cfg.addrBits := by decide

theorem witness_LeaveResult :
    idle.cfg.leavePoint = .onDispatch ∧ idleFramed.cfg.leavePoint = .onFramed := by decide

theorem witness_ReadPageResult :
    (4 : Word).toNat ≤ idle.cfg.pageBytes ∧ (0 : Word).toNat ≤ idle.cfg.pageBytes ∧ idle.rwwRd = true := by decide

/-- The last page below the boundary, with a whole page of data. -/
theorem witness_ProgPageStartsErase :
    (4 : Word).toNat ≤ idle.cfg.pageBytes ∧ (4 : Word).toNat % 2 = 0
      ∧ ({ idle with loadAddr := 10 } : State).loadAddr % 2 = 0
      ∧ cfgT.isProtected ({ idle with loadAddr := 10 } : State).loadAddr = false ∧ idle.fcOp = .none := by decide

/-- The first address of the protected region. -/
theorem witness_ProgPageProtectedStartsNothing :
    (4 : Word).toNat ≤ idle.cfg.pageBytes ∧ (4 : Word).toNat % 2 = 0
      ∧ ({ idle with loadAddr := 12 } : State).loadAddr % 2 = 0
      ∧ cfgT.isProtected ({ idle with loadAddr := 12 } : State).loadAddr = true := by decide

theorem witness_HostContractBreachFaults :
    idle.cfg.pageBytes < (5 : Word).toNat ∧ (3 : Word).toNat % 2 ≠ 0
      ∧ ({ idle with loadAddr := 1 } : State).loadAddr % 2 ≠ 0 := by decide

/-- A read of two bytes answers, and leaves cells 2 and up alone. -/
theorem witness_CommandFrame :
    (∃ t, exec (.readPage 0 2) idle = .next t) ∧ (∃ t, exec (.progPage 0 2) idle = .next t)
      ∧ ∃ t, exec .leave idle = .next t := ⟨⟨_, rfl⟩, ⟨_, rfl⟩, ⟨_, rfl⟩⟩

theorem legal_cfgT : cfgT.legal = true := by decide

theorem next_inPhase (p : Phase) : SequencerNext (inPhase p) [] := ⟨legal_cfgT, rfl, rfl⟩

theorem runs_ahead (k : Nat) (p : Phase) : SequencerRunsFor k (ahead k p) [] := ⟨legal_cfgT, rfl, by simp [ahead]⟩

/-- GET_PARAMETER 0x80 received and about to be executed. -/
def received : State := { inPhase .exec with cmd := some 0x41, plen := some 1, buf := [(0, 0x80)] }

theorem witness_StepRunsDecoded :
    SequencerNext received [] ∧ received.mode = .armed ∧ received.phase = .exec ∧ received.cmd = some 0x41
      ∧ received.bufBytes 0 (payloadLen 0x41) = some [0x80]
      ∧ decode received.cfg [0x41, 0x80] = .ok (.getParameter 0x80, [])
      ∧ (Instr.getParameter 0x80).wf received.cfg = true :=
  ⟨⟨legal_cfgT, rfl, rfl⟩, rfl, rfl, rfl, rfl, rfl, rfl⟩

theorem witness_PolledByteStartsExchange :
    SequencerNext { idle with rxq := [0x20] } [] ∧ ({ idle with rxq := [0x20] } : State).mode = .armed
      ∧ ({ idle with rxq := [0x20] } : State).phase = .idle
      ∧ (0x20 : Byte) ∉ [0x41, 0x42, 0x45, 0x55, 0x56, 0x64, 0x74, 0x75] :=
  ⟨⟨legal_cfgT, rfl, rfl⟩, rfl, rfl, by decide⟩

/-- `INACT` at 0, at 1 and at its maximum. -/
theorem witness_IdleIterationCountsDown :
    SequencerNext idle [] ∧ idle.mode = .armed ∧ idle.phase = .idle ∧ idle.rxq = []
      ∧ idle.inact < 2 ^ idle.cfg.inactBits ∧ 1 < 2 ^ idle.cfg.inactBits ∧ 3 < 2 ^ idle.cfg.inactBits :=
  ⟨⟨legal_cfgT, rfl, rfl⟩, rfl, rfl, rfl, by decide, by decide, by decide⟩

/-- The full period of a counter of two bits. -/
theorem witness_IdleTimeoutPeriod :
    4 = (if (ahead 4 .idle).inact = 0 then 2 ^ (ahead 4 .idle).cfg.inactBits else (ahead 4 .idle).inact)
      ∧ (ahead 4 .idle).inact < 2 ^ (ahead 4 .idle).cfg.inactBits
      ∧ SequencerRunsFor 4 (ahead 4 .idle) [] ∧ (ahead 4 .idle).mode = .armed
      ∧ (ahead 4 .idle).phase = .idle ∧ (ahead 4 .idle).rxq = [] :=
  ⟨by decide, by decide, runs_ahead 4 _, rfl, rfl, rfl⟩

/-- The last byte of the longest payload, its end, and an empty payload. -/
theorem witness_PayloadReceiveStep :
    SequencerNext { inPhase (.rxPayload 19) with plen := some 20 } []
      ∧ SequencerNext { inPhase (.rxPayload 20) with plen := some 20 } []
      ∧ SequencerNext { inPhase (.rxPayload 0) with plen := some 0 } [] ∧ (inPhase (.rxPayload 0)).mode = .armed :=
  ⟨⟨legal_cfgT, rfl, rfl⟩, ⟨legal_cfgT, rfl, rfl⟩, ⟨legal_cfgT, rfl, rfl⟩, rfl⟩

theorem witness_PayloadReceiveRun :
    SequencerRunsFor ([0x80] : List Byte).length.succ { ahead 2 (.rxPayload 0) with plen := some 1, rxq := [0x80, 0x20] } []
      ∧ (ahead 2 (.rxPayload 0)).mode = .armed ∧ ([0x80] : List Byte).length ≤ 20 :=
  ⟨⟨legal_cfgT, rfl, rfl⟩, rfl, by decide⟩

/-- A terminator wait of READ_SIGN after `n` empty polls with `q` in the queue. -/
def waiting (n : Nat) (q : List Byte) : State :=
  { inPhase .waitTerm with cmd := some 0x75, tries := some n, rxq := q, resp := some (.const 0 3) }

/-- The terminator, another byte, an empty poll before the last, and the last one. -/
theorem witness_TerminatorPoll :
    (∀ n q, SequencerNext (waiting n q) [] ∧ (waiting n q).mode = .armed ∧ (waiting n q).phase = .waitTerm
        ∧ (waiting n q).cmd = some 0x75 ∧ (waiting n q).tries = some n ∧ (waiting n q).rxq = q)
      ∧ (0x21 : Byte) ≠ 0x20 ∧ 1 + 1 ≠ (waiting 1 []).cfg.syncRetries ∧ 2 + 1 = (waiting 2 []).cfg.syncRetries :=
  ⟨fun _ _ => ⟨⟨legal_cfgT, rfl, rfl⟩, rfl, rfl, rfl, rfl, rfl⟩, by decide, by decide, by decide⟩

theorem witness_TerminatorTimeoutRun :
    SequencerRunsFor 3 { waiting 0 [] with agenda := List.replicate 3 .sequencer } []
      ∧ (waiting 0 []).cfg.syncRetries = 3 ∧ (waiting 0 []).rxq = [] :=
  ⟨⟨legal_cfgT, rfl, rfl⟩, rfl, rfl⟩

/-- A response of three bytes, one of none, and one under `ON_FRAMED` with a request; its other clauses are met by `witness_TerminatorPoll` and
`witness_TerminatorTimeoutRun`. -/
theorem witness_ResponseFrame :
    SequencerRunsFor 5 { ahead 5 (.tx 0) with resp := some (.const 0 3) } []
      ∧ responsePayload { ahead 5 (.tx 0) with resp := some (.const 0 3) } (.const 0 3) = some [0x1E, 0x95, 0x0F]
      ∧ SequencerRunsFor 2 { ahead 2 (.tx 0) with resp := some .none } []
      ∧ responsePayload { ahead 2 (.tx 0) with resp := some .none } .none = some []
      ∧ SequencerRunsFor 2
        { idleFramed with
          phase := .tx 0, resp := some .none, leaveReq := true, agenda := List.replicate 2 .sequencer } []
      ∧ idleFramed.cfg.leavePoint = .onFramed :=
  ⟨⟨legal_cfgT, rfl, rfl⟩, rfl, ⟨legal_cfgT, rfl, rfl⟩, rfl, ⟨by decide, rfl, rfl⟩, rfl⟩

/-- READ_PAGE of a whole page and LEAVE, their frames in the queue. -/
theorem witness_ExchangeAnswered :
    (Instr.readPage 0 4).wf cfgT = true ∧ AnswersAtOnce idle (.readPage 0 4)
      ∧ SequencerRunsFor (exchangeMoves cfgT (.readPage 0 4))
        { ahead 13 .idle with rxq := requestFrame cfgT (.readPage 0 4) [] ++ [0x75] } []
      ∧ Instr.leave.wf cfgT = true ∧ AnswersAtOnce idle .leave
      ∧ SequencerRunsFor (exchangeMoves cfgT .leave)
        { ahead 6 .idle with rxq := requestFrame cfgT .leave [] ++ [0x75] } [] :=
  ⟨rfl, ⟨by decide, rfl⟩, ⟨legal_cfgT, rfl, rfl⟩, rfl, trivial, ⟨legal_cfgT, rfl, rfl⟩⟩

theorem witness_SendsOnlyInTx :
    (∃ t, step idle = .next t) ∧ (∀ n, idle.phase ≠ .tx n) ∧ idle.nextTurn ≠ .reset :=
  ⟨⟨_, rfl⟩, fun _ => nofun, by decide⟩

/-- An idle poll, LEAVE at execution, and the end of a framed response under `ON_FRAMED`. -/
theorem witness_InactChangesOnlyHere :
    view State.inact (step idle) = some 3 ∧ idle.inact = 0
      ∧ view State.inact (step { inPhase .exec with cmd := some 0x51 }) = some 2
      ∧ view State.inact (step { idleFramed with phase := .tx 1, resp := some .none, leaveReq := true })
        = some 2 := by decide

/-- A page-data receive of `count` bytes, `got` of them there. -/
def receiving (got : Nat) (count : Word) (prot : Bool) (q : List Byte) : State :=
  { inPhase (.pgRx got) with byteCount := some count, prot := some prot, rxq := q }

/-- A full page, protected or not, with and without a byte, before and at its end. -/
theorem witness_PageDataReceive :
    (∀ got prot q, SequencerNext (receiving got 4 prot q) [] ∧ (receiving got 4 prot q).mode = .armed
        ∧ (receiving got 4 prot q).phase = .pgRx got ∧ (receiving got 4 prot q).byteCount = some 4
        ∧ (receiving got 4 prot q).prot = some prot ∧ (receiving got 4 prot q).rxq = q)
      ∧ (4 : Word).toNat ≤ cfgT.pageBytes ∧ 3 < (4 : Word).toNat ∧ (4 : Word).toNat ≤ 4 :=
  ⟨fun _ _ _ => ⟨⟨legal_cfgT, rfl, rfl⟩, rfl, rfl, rfl, rfl, rfl⟩, by decide, by decide, by decide⟩

theorem witness_ProtectedStop :
    SequencerNext (receiving 4 4 true []) [] ∧ (receiving 4 4 true []).prot = some true
      ∧ (4 : Word).toNat ≤ 4 := ⟨⟨legal_cfgT, rfl, rfl⟩, rfl, by decide⟩

theorem witness_EraseWait :
    SequencerNext { inPhase .pgWaitErase with fcOp := .erase 0 } [] ∧ (FcOp.erase 0) ≠ .none
      ∧ SequencerNext (inPhase .pgWaitErase) [] ∧ (inPhase .pgWaitErase).fcOp = .none :=
  ⟨⟨legal_cfgT, rfl, rfl⟩, by decide, next_inPhase _, rfl⟩

/-- The last word of a page, at its last offset, and the commit after it. -/
theorem witness_FillThenCommit :
    SequencerNext { inPhase (.pgFill 1) with byteCount := some 4, loadAddr := 8, buf := [(2, 0xAA), (3, 0xBB)] } []
      ∧ (1 < (4 : Word).toNat / 2 ∧ Store.read? [(2, 0xAA), (3, 0xBB)] (2 * 1) = some 0xAA
        ∧ Store.read? [(2, 0xAA), (3, 0xBB)] (2 * 1 + 1) = some 0xBB)
      ∧ SequencerNext { inPhase (.pgFill 2) with byteCount := some 4, loadAddr := 8 } []
      ∧ (4 : Word).toNat / 2 ≤ 2 ∧ idle.fcOp = .none :=
  ⟨⟨legal_cfgT, rfl, rfl⟩, by decide, ⟨legal_cfgT, rfl, rfl⟩, by decide, rfl⟩

theorem witness_WriteWaitThenReturn :
    SequencerNext { inPhase .pgWaitWrite with fcOp := .write 0 } [] ∧ (FcOp.write 0) ≠ .none
      ∧ SequencerNext (inPhase .pgWaitWrite) [] ∧ (inPhase .pgWaitWrite).fcOp = .none :=
  ⟨⟨legal_cfgT, rfl, rfl⟩, by decide, next_inPhase _, rfl⟩

theorem witness_CommitAndEnableRead :
    idle.fcOp = .none ∧ ({ idle with fcOp := .erase 0 } : State).fcOp ≠ .none := by decide

theorem witness_EraseStartAndFill :
    idle.fcOp = .none ∧ 6 % 2 = 0 ∧ ({ idle with fcOp := .write 0 } : State).fcOp ≠ .none := by decide

/-- The flash controller about to complete an operation on page 8, the last one below the boundary. -/
def completing (op : FcOp) : State := { idle with agenda := [.flash], phase := .pgWaitErase, fcOp := op, rwwRd := false }

theorem witness_EraseCompletion :
    (completing (.erase 8)).cfg.legal = true ∧ (completing (.erase 8)).phase ≠ .user
      ∧ (completing (.erase 8)).nextTurn = .flash ∧ (completing (.erase 8)).fcOp = .erase 8
      ∧ 8 + cfgT.pageBytes ≤ cfgT.flashBytes := by decide

theorem witness_WriteCompletion :
    (completing (.write 8)).cfg.legal = true ∧ (completing (.write 8)).phase ≠ .user
      ∧ (completing (.write 8)).nextTurn = .flash ∧ (completing (.write 8)).fcOp = .write 8
      ∧ 8 + cfgT.pageBytes ≤ cfgT.flashBytes := by decide

theorem witness_FlashChangesOnlyByController : (∃ t, step idle = .next t) ∧ idle.nextTurn ≠ .flash :=
  ⟨⟨_, rfl⟩, by decide⟩

/-- The two sides of the boundary. -/
theorem witness_ProtectedAtOrAboveBoundary :
    cfgT.legal = true ∧ cfgT.isProtected 12 = true ∧ cfgT.isProtected 11 = false := by decide

/-- The invariant holds in the entry state of `cfgT` and in every state that differs from it only in what the agents
outside may set. -/
theorem inv_idle (q : List Byte) (ag : List Turn) (a : Nat) (h : a < 2 ^ 16) :
    Inv { idle with rxq := q, agenda := ag, loadAddr := a } :=
  ⟨legal_cfgT, ⟨rfl, rfl, rfl, rfl, rfl, rfl⟩, ⟨h, Nat.two_pow_pos 2⟩, ⟨rfl, rfl, rfl⟩,
    ⟨rfl, rfl, rfl, rfl, rfl, rfl, rfl⟩, .inl rfl⟩

theorem witness_ProtectedRegionNeverChanges :
    Inv idle ∧ (∃ t, step idle = .next t) ∧ idle.cfg.flashBytes - idle.cfg.bootBytes ≤ 12 :=
  ⟨inv_idle [] [.sequencer] 0 (by decide), ⟨_, rfl⟩, by decide⟩

/-- Page 0 written with two received bytes, the write just completed. -/
def written : State :=
  { inPhase .pgWaitWrite with
    cmd := some 0x64, byteCount := some 2, prot := some false, resp := some .none, rwwRd := false
    buf := [(0, 0x0C), (1, 0x94)] }

theorem inv_written : Inv written := by
  refine ⟨by decide, ⟨by decide, by decide, by decide, by decide, rfl, rfl⟩, ⟨by decide, by decide⟩, ?_,
    ⟨rfl, rfl, rfl, rfl, rfl, rfl, rfl⟩, .inl rfl⟩
  refine ⟨2, ⟨rfl, by decide, by decide, by decide, rfl, rfl, by decide⟩, ?_, ⟨by decide, rfl⟩,
    .inr ⟨rfl, rfl, ?_⟩⟩ <;> intro j hj
  · obtain rfl | rfl : j = 0 ∨ j = 1 := by
      have : j < 2 := hj
      omega
    all_goals decide
  · obtain rfl | rfl : j = 0 ∨ j = 1 := by
      have : j < 2 := hj
      omega
    all_goals decide

theorem witness_PageHoldsReceivedBytes :
    Inv written ∧ written.phase = .pgWaitWrite ∧ view State.phase (step written) = some .waitTerm
      ∧ ∃ t, step written = .next t := ⟨inv_written, rfl, by decide, ⟨_, rfl⟩⟩

/-- A protected write of a whole page at the first protected address. -/
theorem witness_ProtectedWriteExchange :
    cfgT.isProtected 12 = true
      ∧ SequencerRunsFor ((4 : Word).toNat + 10)
        { ahead 14 .idle with
          loadAddr := 12, rxq := requestFrame cfgT (.progPage 0 4) [1, 2, 3, 4] ++ [0x75] } [] :=
  ⟨by decide, ⟨legal_cfgT, rfl, rfl⟩⟩

/-- A write of a whole page below the boundary, starting inside the page. -/
theorem witness_PageWriteExchange :
    ∃ s : State, Inv s ∧ s.fault = none ∧ ([1, 2, 3, 4] : List Byte).length = (4 : Word).toNat
      ∧ (4 : Word).toNat ≤ s.cfg.pageBytes ∧ (4 : Word).toNat % 2 = 0 ∧ s.loadAddr % 2 = 0
      ∧ s.cfg.isProtected s.loadAddr = false ∧ s.phase = .idle
      ∧ s.rxq = requestFrame s.cfg (.progPage 0 4) [1, 2, 3, 4] ++ [0x75]
      ∧ s.agenda = List.replicate ((4 : Word).toNat + 7) .sequencer ++ .flash ::
        (List.replicate ((4 : Word).toNat / 2 + 2) .sequencer ++ .flash :: (List.replicate 4 .sequencer ++ [])) :=
  ⟨_, inv_idle (requestFrame cfgT (.progPage 0 4) [1, 2, 3, 4] ++ [0x75]) _ 10 (by decide), rfl, rfl, by decide,
    by decide, rfl, by decide, rfl, rfl, rfl⟩

/-- Both sides of the boundary, and the first address past program memory. -/
theorem witness_FlashReadResult :
    11 < cfgT.flashBytes ∧ 11 < cfgT.boundary ∧ ({ idle with rwwRd := false } : State).rwwRd = false
      ∧ cfgT.boundary ≤ 12 ∧ 12 < cfgT.flashBytes ∧ cfgT.flashBytes ≤ 16 := by decide

theorem witness_FirmwareCheck :
    SequencerNext (inPhase .hoCheck) [] ∧ (inPhase .hoCheck).mode = .armed ∧ (inPhase .hoCheck).rwwRd = true
      ∧ Memory.read (inPhase .hoCheck).flash 0 ≠ 0xFF
      ∧ SequencerNext { inPhase .hoCheck with flash := [] } []
      ∧ Memory.read ({ inPhase .hoCheck with flash := [] } : State).flash 1 = 0xFF :=
  ⟨next_inPhase _, rfl, rfl, by decide, ⟨legal_cfgT, rfl, rfl⟩, rfl⟩

/-- `idle` inside the handoff sequence, with interrupts as given. -/
def handingOff (g : HoStage) (irq : Bool) : State := { inPhase (.hoSeq g) with mode := .handoff, irqEn := irq }

theorem witness_RelocationWithInterruptsOff :
    ∀ g irq, SequencerNext (handingOff g irq) [] ∧ (handingOff g irq).mode = .handoff
      ∧ (handingOff g irq).phase = .hoSeq g ∧ (handingOff g irq).irqEn = irq :=
  fun _ _ => ⟨⟨legal_cfgT, rfl, rfl⟩, rfl, rfl, rfl⟩

theorem witness_HandoffRun :
    SequencerRunsFor 5 { handingOff .ledOff true with agenda := List.replicate 5 .sequencer, rxq := [0x75, 0x20] } []
      ∧ (handingOff .ledOff true).mode = .handoff ∧ (handingOff .ledOff true).phase = .hoSeq .ledOff :=
  ⟨⟨legal_cfgT, rfl, rfl⟩, rfl, rfl⟩

/-- A step after the relocation, and a reset. -/
theorem witness_HandoffIrreversible :
    (∃ t, step { handingOff .jump false with vtsel := .user } = .next t)
      ∧ (handingOff .jump false).nextTurn ≠ .reset
      ∧ ∃ t, step { handingOff .jump false with agenda := [.reset] } = .next t :=
  ⟨⟨_, rfl⟩, by decide, ⟨_, rfl⟩⟩

theorem witness_HandoffOnlyFromIdle :
    view State.phase (step { idle with inact := 1 }) = some .hoCheck
      ∧ view State.mode (step (inPhase .hoCheck)) = some .handoff := by decide

theorem witness_DeviceResetEntryState :
    ({ inPhase .user with agenda := [.reset] } : State).cfg.legal = true
      ∧ ({ inPhase .user with agenda := [.reset] } : State).nextTurn = .reset := by decide

theorem witness_EntryStateMeetsInv :
    cfgT.legal = true ∧ Memory.wf idle.flash = true ∧ Store.below cfgT.flashBytes idle.flash = true := by decide

theorem witness_StepKeepsInv : Inv written ∧ ∃ t, step written = .next t := ⟨inv_written, ⟨_, rfl⟩⟩

theorem witness_OnlyHostContractFaults :
    Inv idle ∧ view State.fault (step { inPhase .exec with cmd := some 0x74, buf := [(0, 0), (1, 0), (2, 5)] })
      = some (some .hostContract) := ⟨inv_idle [] [.sequencer] 0 (by decide), by decide⟩

theorem witness_FaultIsSticky :
    ({ idle with agenda := [.host 1], fault := some .rwwRead } : State).fault = some .rwwRead
      ∧ (∃ t, step { idle with agenda := [.host 1], fault := some .rwwRead } = .next t)
      ∧ ({ idle with fault := some .rwwRead } : State).nextTurn = .sequencer :=
  ⟨rfl, ⟨_, rfl⟩, rfl⟩

/-- Each of the four hold points, and a state at none. -/
theorem witness_HoldsExactlyAtHoldPoints :
    SequencerNext { inPhase (.rxPayload 0) with plen := some 1 } []
      ∧ ({ inPhase (.rxPayload 0) with plen := some 1 } : State).holdPoint = some .rxPayload
      ∧ (receiving 3 4 true []).holdPoint = some .rxData
      ∧ ({ inPhase .pgWaitErase with fcOp := .erase 0 } : State).holdPoint = some .fcErase
      ∧ ({ inPhase .pgWaitWrite with fcOp := .write 0 } : State).holdPoint = some .fcWrite
      ∧ idle.holdPoint = none ∧ idle.sequencerRuns = true :=
  ⟨⟨legal_cfgT, rfl, rfl⟩, by decide, by decide, rfl, rfl, rfl, rfl⟩

/-- An erase of page 0 under way, the sequencer waiting for it and next to move. -/
def erasing : State := { written with phase := .pgWaitErase, fcOp := .erase 0 }

theorem inv_erasing : Inv erasing := by
  obtain ⟨hl, hst, hw, hph, hho, hf⟩ := inv_written
  refine ⟨hl, hst, hw, ?_, hho, .inl rfl⟩
  obtain ⟨n, he, hb, ho, -⟩ := hph
  exact ⟨n, he, hb, ho, rfl, .inr rfl⟩

theorem witness_FlashControllerFair : Inv erasing ∧ erasing.fcOp ≠ .none := ⟨inv_erasing, by decide⟩

theorem witness_HostDelivery :
    ({ idle with agenda := [.host 0x75] } : State).cfg.legal = true
      ∧ ({ idle with agenda := [.host 0x75] } : State).phase ≠ .user
      ∧ ({ idle with agenda := [.host 0x75] } : State).nextTurn = .host 0x75 := by decide

theorem witness_RefusedSteps :
    ({ idle with cfg := { cfgT with bootBytes := 6 } } : State).cfg.legal = false
      ∧ (inPhase .user).cfg.legal = true ∧ (inPhase .user).phase = .user ∧ (inPhase .user).nextTurn ≠ .reset := by
  decide

theorem witness_LegalConfigurations : cfgT.legal = true ∧ Config.cfgA.legal = true := by decide

end Sys2Proof.Tests
end

/-! Encoding: the decoder on a command byte with its payload (30_encoding.md section 1). -/

namespace Sys2Proof.Laws

/-- Once the payload of `b` is there, the decoder takes exactly the payload (R64, R65). -/
theorem decode_cons_of_payloadLen_le (c : Cfg) {b : Byte} {rest : List Byte} (h : payloadLen b ≤ rest.length) :
    decode c (b :: rest)
      = .ok (instrOf c b (rest.take (payloadLen b)), rest.drop (payloadLen b)) := by
  have hp : (rest.take (payloadLen b)).length = payloadLen b := List.length_take_of_le h
  simpa only [List.take_append_drop] using decode_append (c := c) (rest := rest.drop (payloadLen b)) hp

/-- Settles O3: the command is `instrOf` of the byte and its payload, a total function. -/
theorem everyCommandByteDecodes : Obligations.EveryCommandByteDecodes :=
  fun c _ _ h => ⟨_, decode_cons_of_payloadLen_le c h⟩

end Sys2Proof.Laws

/-! The dispatcher's poll in `IDLE` (40_dispatcher.md section 1). -/

namespace Sys2Proof.Laws

open Sys2Proof.Machine

/-- The sequencer's move in `IDLE` while `ARMED` is the idle step of R80. -/
theorem step_of_idle {s : State} {ag : List Turn} (h : SequencerNext s ag) (hm : s.mode = .armed)
    (hp : s.phase = .idle) : step s = stepIdle { s with agenda := ag } := by
  have hr : s.sequencerRuns = true := sequencerRuns_armed hm (by simp [hp]) (by simp [hp])
  rw [step_of_sequencer h hr]
  exact stepPhase_idle hp

/-- With a byte in `RXQ` the idle step takes it as the command byte and starts its exchange (R80, R82, R83). -/
theorem stepIdle_of_rxq_cons {s : State} {b : Byte} {q : List Byte} (h : s.rxq = b :: q) :
    stepIdle s = .next (commandPoll b (s.consumed q)) := by
  simp only [stepIdle, h]

/-- Settles O19: the poll does not look at the byte's value; only the payload length depends on it. -/
theorem polledByteStartsExchange : Obligations.PolledByteStartsExchange := by
  intro s ag b q hs hm hp hq
  constructor
  · rw [step_of_idle hs hm hp]
    exact stepIdle_of_rxq_cons hq
  · intro hb
    have hb' : tableBytes.contains b = false := by
      rwa [List.contains_eq_mem, decide_eq_false_iff_not]
    exact payloadLen_of_not_table hb'

end Sys2Proof.Laws

/-! The engine's returns to the dispatcher (42_flash_engine.md section 1). -/

namespace Sys2Proof.Laws

open Sys2Proof.Machine

/-- The sequencer's move in `PG_RX` while `ARMED` is the receive step of R115. -/
theorem step_of_pgRx {s : State} {ag : List Turn} {got : Nat} (h : SequencerNext s ag) (hm : s.mode = .armed)
    (hp : s.phase = .pgRx got) : step s = stepPgRx got { s with agenda := ag } := by
  have hr : s.sequencerRuns = true := sequencerRuns_armed hm (by simp [hp]) (by simp [hp])
  rw [step_of_sequencer h hr]
  exact stepPhase_pgRx hp

/-- The sequencer's move in `PG_WAIT_WRITE` while `ARMED` is the write wait of R120. -/
theorem step_of_pgWaitWrite {s : State} {ag : List Turn} (h : SequencerNext s ag) (hm : s.mode = .armed)
    (hp : s.phase = .pgWaitWrite) : step s = stepPgWaitWrite { s with agenda := ag } := by
  have hr : s.sequencerRuns = true := sequencerRuns_armed hm (by simp [hp]) (by simp [hp])
  rw [step_of_sequencer h hr]
  exact stepPhase_pgWaitWrite hp

/-- With every byte of page data there, the receive step ends the receive (R115). -/
theorem stepPgRx_of_le {s : State} {got : Nat} {count : Word} (hc : s.byteCount = some count)
    (hg : count.toNat ≤ got) : stepPgRx got s = pageReceived count s := by
  simp only [stepPgRx, hc, if_neg (Nat.not_lt.2 hg)]

/-- R116: a protected page stops at the end of the receive, with the event alone. -/
theorem pageReceived_of_protected {s : State} (h : s.prot = some true) (count : Word) :
    pageReceived count s = .next (s.emit (.writeProtected s.loadAddr count)).toWaitTerm := by
  simp only [pageReceived, h]

/-- `FC_BUSY` is that an operation is outstanding (R32). -/
theorem fcBusy_iff (s : State) : s.fcBusy = true ↔ s.fcOp ≠ .none :=
  bne_iff_ne

/-- The write wait holds while the flash controller is busy (R120). -/
theorem stepPgWaitWrite_of_busy {s : State} (h : s.fcOp ≠ .none) : stepPgWaitWrite s = .next s :=
  if_pos ((fcBusy_iff s).2 h)

/-- `EnableRead` with no operation outstanding (R127). -/
theorem enableRead_of_quiet {s : State} (h : s.fcOp = .none) (k : State → Out) :
    enableRead s k = k { s with rwwRd := true } := by
  rw [enableRead, whenFcIdle_eq, if_pos h]

/-- With the flash controller idle the write wait enables reading and returns (R120, R121). -/
theorem stepPgWaitWrite_of_quiet {s : State} (h : s.fcOp = .none) :
    stepPgWaitWrite s = .next ({ s with rwwRd := true } : State).toWaitTerm := by
  have hb : ¬ s.fcBusy = true := fun hb => (fcBusy_iff s).1 hb h
  rw [stepPgWaitWrite, if_neg hb]
  exact enableRead_of_quiet h _

/-- Settles O31: the receive is over, so the step is the protected stop of R116. -/
theorem protectedStop : Obligations.ProtectedStop := by
  intro s ag got count hs hm hp hc hprot hg
  rw [step_of_pgRx hs hm hp, stepPgRx_of_le (s := { s with agenda := ag }) hc hg]
  exact pageReceived_of_protected (s := { s with agenda := ag }) hprot count

/-- Settles O34: the write wait does one of two things, by whether an operation is outstanding. -/
theorem writeWaitThenReturn : Obligations.WriteWaitThenReturn := by
  intro s ag hs hm hp
  rw [step_of_pgWaitWrite hs hm hp]
  constructor
  · intro hbusy
    exact stepPgWaitWrite_of_busy hbusy
  · intro hquiet
    exact stepPgWaitWrite_of_quiet hquiet

end Sys2Proof.Laws

/-! The handoff is one-way (43_handoff.md section 4): what each agent's move does to `MODE` and `VTSEL`. -/

namespace Sys2Proof.Laws

open Sys2Proof.Machine

/-- From `s` to `t` neither `MODE` nor `VTSEL` goes back (R139). -/
def HandoffKept (s t : State) : Prop :=
  (s.mode = .handoff → t.mode = .handoff) ∧ (s.vtsel = .user → t.vtsel = .user)

/-- The next state that `o` answers, if any, keeps the handoff of `s`. A branch that writes neither register has the
proof `⟨id, id⟩`. -/
def KeepsHandoff (s : State) : Out → Prop
  | .next t => HandoffKept s t
  | .fault _ => True
  | .refused _ => True

/-- Raising a fault keeps both registers. -/
theorem keepsHandoff_raise (r : Fault) (s : State) : KeepsHandoff s (raise r s) := ⟨id, id⟩

/-- A flash controller operation keeps the handoff if what follows it does. -/
theorem keepsHandoff_whenFcIdle {s : State} {k : State → Out} (hk : KeepsHandoff s (k s)) :
    KeepsHandoff s (whenFcIdle s k) := by
  unfold whenFcIdle
  split
  · exact keepsHandoff_raise _ s
  · exact hk

/-! The dispatcher and the commands. -/

theorem keepsHandoff_stepIdle (s : State) : KeepsHandoff s (stepIdle s) := by
  unfold stepIdle
  split
  · exact ⟨id, id⟩
  · exact ⟨id, id⟩

/-- A received byte put into `BUF` keeps both registers. -/
theorem handoffKept_putBuf {s t : State} {q : List Byte} {i : Nat} {b : Byte}
    (h : (s.consumed q).putBuf i b = some t) : HandoffKept s t := by
  unfold State.putBuf at h
  split at h
  · cases h; exact ⟨id, id⟩
  · cases h

theorem keepsHandoff_stepRxPayload (got : Nat) (s : State) : KeepsHandoff s (stepRxPayload got s) := by
  unfold stepRxPayload
  split
  · exact keepsHandoff_raise _ s
  · split
    · split
      · exact ⟨id, id⟩
      · split
        · rename_i hput
          have hk := handoffKept_putBuf hput
          exact hk
        · trivial
    · exact ⟨id, id⟩

theorem keepsHandoff_stepWaitTerm (s : State) : KeepsHandoff s (stepWaitTerm s) := by
  unfold stepWaitTerm
  split
  · unfold terminatorByte
    split
    · exact ⟨id, id⟩
    · split <;> exact ⟨id, id⟩
  · split
    · exact keepsHandoff_raise _ s
    · unfold terminatorEmpty
      dsimp only
      split
      · split <;> exact ⟨id, id⟩
      · exact ⟨id, id⟩

theorem handoffKept_responseEnd (s : State) : HandoffKept s (responseEnd s) := by
  unfold responseEnd
  dsimp only
  split <;> exact ⟨id, id⟩

theorem keepsHandoff_stepTx (sent : Nat) (s : State) : KeepsHandoff s (stepTx sent s) := by
  unfold stepTx
  split
  · exact ⟨id, id⟩
  · split
    · exact keepsHandoff_raise _ s
    · split
      · split
        · rename_i h
          obtain ⟨n, rfl⟩ := respByte_ok h
          exact ⟨id, id⟩
        · exact keepsHandoff_raise _ s
      · exact handoffKept_responseEnd s

theorem keepsHandoff_engineStart (s : State) : KeepsHandoff s (engineStart s) := by
  unfold engineStart
  dsimp only
  split
  · exact ⟨id, id⟩
  · exact keepsHandoff_whenFcIdle (s := { s with prot := _ }) ⟨id, id⟩

/-- A byte of the Identity/Version Block as the response keeps both registers. -/
theorem keepsHandoff_answer_ident (k : Nat) (s : State) :
    KeepsHandoff s (answer (.byte (identRead k s).1) (identRead k s).2) := by
  obtain ⟨n, hn⟩ := identRead_state k s
  rw [hn]
  exact ⟨id, id⟩

theorem keepsHandoff_execReadPage (ignored : Byte) (count : Word) (s : State) :
    KeepsHandoff s (execReadPage ignored count s) := by
  unfold execReadPage
  dsimp only
  split
  · exact ⟨id, id⟩
  · obtain ⟨buf, d, hst, -⟩ := readIntoBuf_state s.loadAddr count.toNat 0 { s with byteCount := some count }
    split <;> rename_i h <;> rw [h] at hst <;> subst hst <;> exact ⟨id, id⟩

/-- No command changes `MODE` or `VTSEL`. -/
theorem keepsHandoff_exec (i : Instr) (s : State) : KeepsHandoff s (exec i s) := by
  cases i with
  | getParameter id => exact keepsHandoff_answer_ident _ s
  | setDevice p => exact ⟨id, id⟩
  | setDeviceExt p => exact ⟨id, id⟩
  | universal subop ignored1 offset ignored3 =>
    simp only [exec, execUniversal]
    split
    · exact keepsHandoff_answer_ident _ s
    · exact ⟨id, id⟩
  | loadAddress word => exact ⟨id, id⟩
  | progPage ignored count =>
    simp only [exec, execProgPage]
    split
    · exact ⟨id, id⟩
    · exact keepsHandoff_engineStart { s with byteCount := some count, resp := some .none }
  | readPage ignored count => exact keepsHandoff_execReadPage ignored count s
  | readSign => exact ⟨id, id⟩
  | getSync => exact ⟨id, id⟩
  | leave =>
    simp only [exec, execLeave]
    split <;> exact ⟨id, id⟩
  | unrecognized cmd => exact ⟨id, id⟩

theorem keepsHandoff_stepExec (s : State) : KeepsHandoff s (stepExec s) := by
  unfold stepExec
  split
  · exact keepsHandoff_raise _ s
  · exact keepsHandoff_exec _ s

/-! The engine. -/

theorem keepsHandoff_pageReceived (count : Word) (s : State) : KeepsHandoff s (pageReceived count s) := by
  unfold pageReceived
  split <;> exact ⟨id, id⟩

theorem keepsHandoff_stepPgRx (got : Nat) (s : State) : KeepsHandoff s (stepPgRx got s) := by
  unfold stepPgRx
  split
  · exact keepsHandoff_raise _ s
  · split
    · split
      · exact ⟨id, id⟩
      · split
        · rename_i hput
          have hk := handoffKept_putBuf hput
          exact hk
        · trivial
    · exact keepsHandoff_pageReceived _ s

theorem keepsHandoff_stepPgWaitErase (s : State) : KeepsHandoff s (stepPgWaitErase s) := by
  unfold stepPgWaitErase
  split <;> exact ⟨id, id⟩

theorem keepsHandoff_stepPgFill (done : Nat) (s : State) : KeepsHandoff s (stepPgFill done s) := by
  unfold stepPgFill
  split
  · exact keepsHandoff_raise _ s
  · split
    · split
      · refine keepsHandoff_whenFcIdle ?_
        split
        · exact ⟨id, id⟩
        · trivial
      · exact keepsHandoff_raise _ s
    · exact keepsHandoff_whenFcIdle ⟨id, id⟩

theorem keepsHandoff_stepPgWaitWrite (s : State) : KeepsHandoff s (stepPgWaitWrite s) := by
  unfold stepPgWaitWrite
  split
  · exact ⟨id, id⟩
  · exact keepsHandoff_whenFcIdle ⟨id, id⟩

/-! The handoff controller. -/

/-- A read of program memory that answers changes nothing but the counter of drawn bytes. -/
theorem flashRead_state {a : Nat} {s t : State} {b : Byte} (h : flashRead a s = .ok (b, t)) :
    ∃ n, t = s.afterDraws n := by
  rcases flashRead_ok h with ⟨-, -, rfl⟩ | ⟨-, -, rfl⟩
  · exact ⟨1, rfl⟩
  · exact ⟨0, rfl⟩

/-- The firmware check moves `MODE` forward or leaves it. -/
theorem keepsHandoff_stepHoCheck (s : State) : KeepsHandoff s (stepHoCheck s) := by
  unfold stepHoCheck
  split
  · exact keepsHandoff_raise _ s
  · rename_i h0
    obtain ⟨n, rfl⟩ := flashRead_state h0
    split
    · exact ⟨id, id⟩
    · rename_i h1
      obtain ⟨m, rfl⟩ := flashRead_state h1
      split
      · exact ⟨id, id⟩
      · exact ⟨fun _ => rfl, id⟩

/-- The relocation moves `VTSEL` forward; the other shutdown steps keep both registers. -/
theorem keepsHandoff_stepHoSeq (stage : HoStage) (s : State) : KeepsHandoff s (stepHoSeq stage s) := by
  cases stage with
  | ledOff => exact ⟨id, id⟩
  | detach => exact ⟨id, id⟩
  | irqOff => exact ⟨id, id⟩
  | relocate =>
    simp only [stepHoSeq, handoffRelocate]
    split
    · exact keepsHandoff_raise _ s
    · exact ⟨id, fun _ => rfl⟩
  | jump =>
    simp only [stepHoSeq, handoffJump]
    split
    · exact ⟨id, id⟩
    · split <;> exact ⟨id, id⟩

/-! One step. -/

/-- No phase has a way back from the handoff. -/
theorem keepsHandoff_stepPhase (s : State) : KeepsHandoff s (stepPhase s) := by
  unfold stepPhase
  cases s.phase with
  | idle => exact keepsHandoff_stepIdle s
  | rxPayload got => exact keepsHandoff_stepRxPayload got s
  | exec => exact keepsHandoff_stepExec s
  | pgRx got => exact keepsHandoff_stepPgRx got s
  | pgWaitErase => exact keepsHandoff_stepPgWaitErase s
  | pgFill done => exact keepsHandoff_stepPgFill done s
  | pgWaitWrite => exact keepsHandoff_stepPgWaitWrite s
  | waitTerm => exact keepsHandoff_stepWaitTerm s
  | tx sent => exact keepsHandoff_stepTx sent s
  | hoCheck => exact keepsHandoff_stepHoCheck s
  | hoSeq stage => exact keepsHandoff_stepHoSeq stage s
  | user => exact ⟨id, id⟩

theorem handoffKept_sequencerMove {s t : State} (h : sequencerMove s = .next t) : HandoffKept s t := by
  obtain ⟨-, ⟨-, hstep⟩ | ⟨-, rfl⟩⟩ := sequencerMove_cases h
  · have hk := keepsHandoff_stepPhase s
    rwa [hstep] at hk
  · exact ⟨id, id⟩

theorem handoffKept_flashMove {s t : State} (h : flashMove s = .next t) : HandoffKept s t := by
  rw [flashMove_keeps h]
  exact ⟨id, id⟩

theorem handoffKept_hostDeliver (b : Byte) (s : State) : HandoffKept s (hostDeliver b s) := by
  simp [HandoffKept]

/-- Taking the move off the schedule writes neither register. -/
theorem handoffKept_of_afterTurn {s t : State} (h : HandoffKept s.afterTurn t) : HandoffKept s t := by
  simpa only [HandoffKept, State.afterTurn_mode, State.afterTurn_vtsel] using h

/-- Every agent's move keeps the handoff. -/
theorem step_handoffKept {s t : State} (h : step s = .next t) (hr : s.nextTurn ≠ .reset) : HandoffKept s t := by
  apply handoffKept_of_afterTurn
  obtain ⟨-, ⟨hreset, -⟩ | ⟨-, -, hseq⟩ | ⟨-, -, hflash⟩ | ⟨b, -, -, rfl⟩⟩ := step_cases h
  · exact absurd hreset hr
  · exact handoffKept_sequencerMove hseq
  · exact handoffKept_flashMove hflash
  · exact handoffKept_hostDeliver b _

/-- The step that is a device reset (R161). -/
theorem step_of_reset {s t : State} (h : step s = .next t) (hr : s.nextTurn = .reset) :
    t = deviceReset s.afterTurn := by
  obtain ⟨-, ⟨-, ht⟩ | ⟨hn, -⟩ | ⟨hn, -⟩ | ⟨b, hn, -⟩⟩ := step_cases h
  · exact ht
  all_goals rw [hr] at hn; cases hn

/-- Settles O49: each agent's move keeps both registers or moves them forward; only the reset leads back, to the entry
state over the same program memory. -/
theorem handoffIrreversible : Obligations.HandoffIrreversible := by
  intro s t h
  refine ⟨step_handoffKept h, fun hr => ?_⟩
  obtain rfl := step_of_reset h hr
  refine ⟨deviceReset_mode _, deviceReset_vtsel _, s.afterTurn.flash, ?_⟩
  rw [← State.afterTurn_cfg s]
  rfl

end Sys2Proof.Laws

/-! The firmware-present check (43_handoff.md section 2). -/

namespace Sys2Proof.Laws

open Sys2Proof.Machine

/-- The sequencer's move in `HO_CHECK` while `ARMED` is the firmware check of R131. -/
theorem step_of_hoCheck {s : State} {ag : List Turn} (h : SequencerNext s ag) (hm : s.mode = .armed)
    (hp : s.phase = .hoCheck) : step s = stepHoCheck { s with agenda := ag } := by
  have hr : s.sequencerRuns = true := sequencerRuns_armed hm (by simp [hp]) (by simp [hp])
  rw [step_of_sequencer h hr]
  exact stepPhase_hoCheck hp

/-- The first word of the user region lies inside program memory. -/
theorem legal_one_lt_flashBytes {c : Cfg} (h : c.legal = true) : 1 < c.flashBytes := by
  obtain ⟨-, -, -, hboot, hlt, -⟩ := legal_iff_parts h
  omega

/-- A read inside program memory with the user region readable (R45). -/
theorem flashRead_of_lt {a : Nat} {s : State} (h : s.rwwRd = true) (ha : a < s.cfg.flashBytes) :
    flashRead a s = .ok (Memory.read s.flash a, s) := by
  rw [flashRead_readable h, if_neg (Nat.not_le.2 ha)]

/-- The firmware check decides on the first word of the user region alone (R131). -/
theorem stepHoCheck_of_readable {s : State} (hl : s.cfg.legal = true) (h : s.rwwRd = true) :
    stepHoCheck s = .next (if wordErased (Memory.read s.flash 0) (Memory.read s.flash 1) then handoffAbort s
      else handoffEnter s) := by
  have h1 := legal_one_lt_flashBytes hl
  simp only [stepHoCheck, flashRead_of_lt h h1, flashRead_of_lt h (Nat.zero_lt_of_lt h1)]

theorem wordErased_iff (b0 b1 : Byte) : wordErased b0 b1 = true ↔ b0 = 0xFF ∧ b1 = 0xFF := by
  simp [wordErased, erasedByte]

/-- Settles O46: both reads answer, and the check branches on whether both bytes are erased. -/
theorem firmwareCheck : Obligations.FirmwareCheck := by
  intro s ag hs hm hp hread
  rw [step_of_hoCheck hs hm hp, stepHoCheck_of_readable (s := { s with agenda := ag }) hs.1 hread]
  constructor
  · intro h0 h1
    rw [if_pos ((wordErased_iff _ _).2 ⟨h0, h1⟩)]
    rfl
  · intro hne
    have hw : ¬ wordErased (Memory.read s.flash 0) (Memory.read s.flash 1) = true := by
      rw [wordErased_iff]
      tauto
    rw [if_neg hw]
    rfl

end Sys2Proof.Laws

/-! Encoding: the encoder and the decoder are inverse to each other (30_encoding.md sections 1, 2 and 5). -/

namespace Sys2Proof.Laws

open Sys2Proof.Machine

/-- The family RoundTrip, for every instruction. -/
theorem RoundTrip.all (i : Instr) : RoundTrip.Statement i := by
  cases i with
  | getParameter id => exact RoundTrip.getParameter id
  | setDevice p => exact RoundTrip.setDevice p
  | setDeviceExt p => exact RoundTrip.setDeviceExt p
  | universal subop x1 offset x3 => exact RoundTrip.universal subop x1 offset x3
  | loadAddress w => exact RoundTrip.loadAddress w
  | progPage x n => exact RoundTrip.progPage x n
  | readPage x n => exact RoundTrip.readPage x n
  | readSign => exact RoundTrip.readSign
  | getSync => exact RoundTrip.getSync
  | leave => exact RoundTrip.leave
  | unrecognized b => exact RoundTrip.unrecognized b

/-- Settles O1: the round trip of each instruction. -/
theorem decodeOfEncode : Obligations.DecodeOfEncode :=
  fun c i rest hc hw => RoundTrip.all i c rest hc hw

/-- An encoding is a command byte and a complete payload that stand for the instruction (R64). -/
theorem encode_eq_cons {c : Cfg} {i : Instr} (hc : c.commandBytesOk = true) (hw : i.wf c = true) :
    ∃ b p, encode c i = b :: p ∧ p.length = payloadLen b ∧ instrOf c b p = i := by
  have hd := decodeOfEncode c i [] hc hw
  rw [List.append_nil] at hd
  cases he : encode c i with
  | nil => rw [he] at hd; cases hd
  | cons b p =>
    rw [he, decode] at hd
    split at hd
    · cases hd
    · rename_i hlen
      injection hd with hd
      obtain ⟨hi, hdrop⟩ := Prod.mk.inj hd
      have hle : p.length ≤ payloadLen b := List.drop_eq_nil_iff.1 hdrop
      rw [List.take_of_length_le hle] at hi
      exact ⟨b, p, rfl, by omega, hi⟩

/-- The eight bytes of the Command Table (R66, D1). -/
theorem mem_tableBytes {b : Byte} (h : tableBytes.contains b = true) :
    b = opGetParameter ∨ b = opSetDevice ∨ b = opSetDeviceExt ∨ b = opLoadAddress ∨ b = opUniversal
      ∨ b = opProgPage ∨ b = opReadPage ∨ b = opReadSign := by
  simpa [tableBytes, commandTable] using h

/-- A table byte with a payload of its length stands for a well-formed instruction whose encoding they are. -/
theorem encode_instrOf_of_table {c : Cfg} {b : Byte} {p : List Byte} (hb : tableBytes.contains b = true)
    (hp : p.length = payloadLen b) : (instrOf c b p).wf c = true ∧ encode c (instrOf c b p) = b :: p := by
  obtain rfl | rfl | rfl | rfl | rfl | rfl | rfl | rfl := mem_tableBytes hb
  · obtain ⟨x, rfl⟩ := List.length_eq_one_iff.1 hp
    exact ⟨rfl, rfl⟩
  · exact ⟨beq_iff_eq.2 hp, rfl⟩
  · exact ⟨beq_iff_eq.2 hp, rfl⟩
  · obtain ⟨x, y, rfl⟩ := List.length_eq_two.1 hp
    exact ⟨rfl, congrArg (opLoadAddress :: ·) (by simp [payloadByte, loByte_wordOf, hiByte_wordOf])⟩
  · match p, hp with
    | [_, _, _, _], _ => exact ⟨rfl, rfl⟩
  · obtain ⟨x, y, z, rfl⟩ := List.length_eq_three.1 hp
    exact ⟨rfl, congrArg (opProgPage :: x :: ·) (by simp [payloadByte, loByte_wordOf, hiByte_wordOf])⟩
  · obtain ⟨x, y, z, rfl⟩ := List.length_eq_three.1 hp
    exact ⟨rfl, congrArg (opReadPage :: x :: ·) (by simp [payloadByte, loByte_wordOf, hiByte_wordOf])⟩
  · obtain rfl := List.eq_nil_of_length_eq_zero hp
    exact ⟨rfl, rfl⟩

/-- A byte outside the table stands alone for GET_SYNC, LEAVE or UNRECOGNIZED (R66, R75). -/
theorem encode_instrOf_of_not_table {c : Cfg} {b : Byte} (hb : tableBytes.contains b = false) :
    (instrOf c b []).wf c = true ∧ encode c (instrOf c b []) = [b] := by
  rw [instrOf_of_not_table hb]
  split
  · rename_i h; exact ⟨rfl, by rw [h]; rfl⟩
  · split
    · rename_i h; exact ⟨rfl, by rw [h]; rfl⟩
    · rename_i hs hl
      exact ⟨by simp only [Instr.wf, assigned, hb, beq_eq_false_iff_ne.2 hs, beq_eq_false_iff_ne.2 hl]; rfl, rfl⟩

/-- Every command byte with a complete payload is the encoding of the well-formed instruction it stands for. -/
theorem encode_instrOf (c : Cfg) {b : Byte} {p : List Byte} (hp : p.length = payloadLen b) :
    (instrOf c b p).wf c = true ∧ encode c (instrOf c b p) = b :: p := by
  cases hb : tableBytes.contains b with
  | true => exact encode_instrOf_of_table hb hp
  | false =>
    rw [payloadLen_of_not_table hb] at hp
    obtain rfl := List.eq_nil_of_length_eq_zero hp
    exact encode_instrOf_of_not_table hb

/-- Settles O2: what decodes is a command byte with its complete payload. -/
theorem encodeOfDecode : Obligations.EncodeOfDecode := by
  intro c bytes rest i h
  cases bytes with
  | nil => cases h
  | cons b tail =>
    rw [decode] at h
    split at h
    · cases h
    · cases h
      obtain ⟨hw, he⟩ := encode_instrOf c (b := b) (List.length_take_of_le (not_lt.1 ‹_›))
      exact ⟨hw, by rw [he, List.cons_append, List.take_append_drop]⟩

/-- Settles O4: each frame is evaluated by the decoder. -/
theorem specFramesDecode : Obligations.SpecFramesDecode :=
  ⟨rfl, rfl, rfl, rfl, rfl, rfl, rfl, rfl, rfl, rfl, rfl, rfl⟩

end Sys2Proof.Laws

/-! The configuration and its page geometry (00_scope.md section 3, 20_memory.md section 3). -/

namespace Sys2Proof.Laws

open Sys2Proof.Machine

/-- The clause of R7 on the two parameter command bytes, against the listed bytes. -/
theorem commandBytesOk_iff (c : Cfg) : c.commandBytesOk = true ↔
    c.cmdGetSync ≠ c.cmdLeave ∧ c.cmdGetSync ∉ [0, 0x41, 0x42, 0x45, 0x55, 0x56, 0x64, 0x74, 0x75]
      ∧ c.cmdLeave ∉ [0, 0x41, 0x42, 0x45, 0x55, 0x56, 0x64, 0x74, 0x75] := by
  have ht : tableBytes = [0x41, 0x42, 0x45, 0x55, 0x56, 0x64, 0x74, 0x75] := rfl
  simp only [Cfg.commandBytesOk, ht, Bool.and_eq_true, Bool.not_eq_true', bne_iff_ne, List.contains_eq_mem,
    decide_eq_false_iff_not, List.mem_cons (a := c.cmdGetSync) (b := 0), List.mem_cons (a := c.cmdLeave) (b := 0),
    not_or]
  tauto

/-- A power of two from 2 on that fits into `bits` bits is one of those listed. -/
theorem powerOfTwo_of_le {bits n k : Nat} (hn : n = 2 ^ (k + 1)) (hle : n ≤ 2 ^ bits) :
    powerOfTwo bits n = true := by
  have hk : k + 1 ≤ bits := (Nat.pow_le_pow_iff_right (by omega : 1 < 2)).1 (hn ▸ hle)
  simp only [powerOfTwo, List.any_eq_true, List.mem_range, beq_iff_eq]
  exact ⟨k, hk, hn⟩

/-- Settles O60: the bound on the exponent of the page size follows from the other constraints. -/
theorem legalConfigurations : Obligations.LegalConfigurations := by
  intro c
  constructor
  · intro h
    obtain ⟨⟨k, -, hk⟩, hf, hb, hpos, hlt, hle, hcmd, hrest⟩ := legal_iff_parts h
    obtain ⟨h1, h2, h3⟩ := (commandBytesOk_iff c).1 hcmd
    exact ⟨⟨k, hk⟩, Nat.dvd_of_mod_eq_zero hf, Nat.dvd_of_mod_eq_zero hb, hpos, hlt, hle, h1, h2, h3, hrest⟩
  · rintro ⟨⟨k, hk⟩, hf, hb, hpos, hlt, hle, h1, h2, h3, hretries, hdelay, hbits⟩
    have hp := powerOfTwo_of_le hk ((Nat.le_of_dvd (by omega) hf).trans hle)
    have hcmd := (commandBytesOk_iff c).2 ⟨h1, h2, h3⟩
    simp [Cfg.legal, hp, Nat.mod_eq_zero_of_dvd hf, Nat.mod_eq_zero_of_dvd hb, hpos, hlt, hle, hcmd, hretries,
      hdelay, hbits]

/-- The page of an address ends at or below a multiple of the page size exactly when the address is below it. -/
theorem pageBase_add_page_le_iff {c : Cfg} (hp : 0 < c.pageBytes) {n : Nat} (hn : c.pageBytes ∣ n) (a : Nat) :
    c.pageBase a + c.pageBytes ≤ n ↔ a < n := by
  obtain ⟨k, rfl⟩ := hn
  have hbase : c.pageBase a = c.pageBytes * (a / c.pageBytes) := by
    have := Nat.div_add_mod a c.pageBytes
    simp only [Cfg.pageBase]
    omega
  rw [hbase, ← Nat.mul_succ, Nat.mul_le_mul_left_iff hp, Nat.succ_le_iff, Nat.div_lt_iff_lt_mul hp, Nat.mul_comm]

/-- Settles O40: the boundary is a multiple of the page size. -/
theorem protectedAtOrAboveBoundary : Obligations.ProtectedAtOrAboveBoundary := by
  intro c a h
  have hiff := pageBase_add_page_le_iff (legal_page_pos h) (legal_boundary h).1 a
  rw [Cfg.isProtected, Bool.not_eq_true', decide_eq_false_iff_not, hiff, Nat.not_lt]
  exact Iff.rfl

end Sys2Proof.Laws

/-! The commands (41_commands.md): the state each one leads to, and what it leaves unchanged. -/

namespace Sys2Proof.Laws

open Sys2Proof.Machine

/-! The commands that answer from the constant store or with no payload. -/

/-- The `IDENT` offset of each parameter id (R97; ids below 0x80 by D4). -/
theorem paramOffset_eq (id : Byte) :
    paramOffset id = if id = 0x80 then 3 else if id = 0x81 then 4 else if id = 0x82 then 5
      else if id = 0x98 then 6 else 7 := by
  by_cases h0 : id = 0x80
  · subst h0; rfl
  by_cases h1 : id = 0x81
  · subst h1; rfl
  by_cases h2 : id = 0x82
  · subst h2; rfl
  have hidx : (id - 0x80).toNat > 2 := by bv_omega
  simp only [paramOffset, if_pos hidx, if_neg h0, if_neg h1, if_neg h2]
  split <;> rfl

theorem exec_getParameter (id : Byte) (s : State) :
    exec (.getParameter id) s = answer (.byte (identByte s.cfg (paramOffset id))) s := by
  simp only [exec, execGetParameter, identRead_lt (paramOffset_lt id)]

/-- Settles O5: the byte at each offset that an id selects. -/
theorem getParameterResult : Obligations.GetParameterResult := by
  intro id s
  have hbyte : identByte s.cfg (paramOffset id) = if id = 0x80 then 0x02 else if id = 0x81 then 0x01
      else if id = 0x82 then 0x10 else if id = 0x98 then 0x03 else 0x00 := by
    rw [paramOffset_eq]
    repeat' split
    all_goals rfl
  rw [exec_getParameter, hbyte]
  rfl

/-- Settles O6: the payload enters neither the check of its content nor the effect. -/
theorem setDeviceDiscardsPayload : Obligations.SetDeviceDiscardsPayload :=
  fun _ _ _ => ⟨rfl, beq_iff_eq, rfl⟩

/-- Settles O7: the payload enters neither the check of its content nor the effect. -/
theorem setDeviceExtDiscardsPayload : Obligations.SetDeviceExtDiscardsPayload :=
  fun _ _ _ => ⟨rfl, beq_iff_eq, rfl⟩

/-- Sub-opcodes other than read-signature have no payload effect (R76, R100). -/
theorem exec_universal_other {subop : Byte} (h : subop ≠ subReadSignature) (x1 offset x3 : Byte) (s : State) :
    exec (.universal subop x1 offset x3) s = answer .none s :=
  if_neg h

/-- The read-signature sub-opcode answers what `IDENT` reads as at the offset (R100). -/
theorem exec_universal_readSignature (x1 offset x3 : Byte) (s : State) :
    exec (.universal subReadSignature x1 offset x3) s
      = answer (.byte (identRead offset.toNat s).1) (identRead offset.toNat s).2 := by
  simp only [exec, execUniversal, if_true]

/-- Settles O8: the three cases of the sub-opcode and the offset. -/
theorem universalResult : Obligations.UniversalResult := by
  intro subop x1 offset x3 s
  refine ⟨fun h => exec_universal_other h x1 offset x3 s, ?_, ?_⟩
  · rintro rfl hlt
    refine (exec_universal_readSignature x1 offset x3 s).trans ?_
    rw [identRead_lt hlt]
    rfl
  · rintro rfl -
    obtain ⟨n, hn⟩ := identRead_state offset.toNat s
    refine ⟨(identRead offset.toNat s).1, s.draws + n, (exec_universal_readSignature x1 offset x3 s).trans ?_⟩
    rw [hn]
    rfl

/-- Settles O9: a doubled address stays even modulo a positive power of two. -/
theorem loadAddressResult : Obligations.LoadAddressResult := by
  intro w s
  refine ⟨rfl, fun h => ?_⟩
  have hdvd : 2 ∣ 2 ^ s.cfg.addrBits := dvd_pow_self 2 (by omega)
  rw [Nat.mod_mod_of_dvd _ hdvd, Nat.mul_mod_right]

/-- Settles O10: the first three bytes of the block are the signature. -/
theorem readSignResult : Obligations.ReadSignResult :=
  fun _ => ⟨rfl, rfl⟩

/-- Settles O11: both are the command with the empty response. -/
theorem sentinelCommandsNoEffect : Obligations.SentinelCommandsNoEffect :=
  fun _ _ => ⟨rfl, rfl⟩

/-- Settles O12: the two schedule points. -/
theorem leaveResult : Obligations.LeaveResult := by
  intro s
  constructor <;> intro h <;> simp only [exec, execLeave, h] <;> rfl

/-! The page commands. -/

/-- The reads of READ_PAGE keep the buffer's form, inside a space that holds all their cells. -/
theorem readIntoBuf_form (base n j : Nat) (s : State) :
    (Store.sorted s.buf = true → Store.sorted (readIntoBuf base n j s).2.buf = true)
      ∧ ∀ k, j + n ≤ k → Store.below k s.buf = true → Store.below k (readIntoBuf base n j s).2.buf = true := by
  induction n generalizing j s with
  | zero => exact ⟨id, fun _ _ => id⟩
  | succ n ih =>
    rw [readIntoBuf]
    cases h : flashRead (addressAfter s.cfg base j) s with
    | error f => exact ⟨id, fun _ _ => id⟩
    | ok r =>
      obtain ⟨b, t⟩ := r
      have hbuf : t.buf = s.buf := by
        obtain ⟨m, rfl⟩ := flashRead_state h
        rfl
      obtain ⟨hsort, hbelow⟩ := ih (j + 1) { t with buf := Store.put j b t.buf }
      simp only [hbuf] at hsort hbelow
      simp only [hbuf]
      exact ⟨fun hs => hsort (Store.sorted_put hs),
        fun k hk hb => hbelow k (by omega) (Store.below_put (by omega) hb)⟩

/-- Everything READ_PAGE can do: stop with a fault, or answer from the buffer. Cells past the count keep their
contents either way. -/
theorem exec_readPage_cases {x : Byte} {n : Word} {s t : State} (h : exec (.readPage x n) s = .next t) :
    ∃ buf d, (∀ j, n.toNat ≤ j → Store.read? buf j = Store.read? s.buf j)
      ∧ ((∃ f, t = { s with byteCount := some n, buf := buf, draws := d, fault := some f })
        ∨ t = { s with
            byteCount := some n, buf := buf, draws := d, loadAddr := addressAfter s.cfg s.loadAddr n.toNat
            resp := some (.buffer n.toNat), tries := some 0, phase := .waitTerm }) := by
  simp only [exec, execReadPage] at h
  split at h
  · cases h
    exact ⟨s.buf, s.draws, fun _ _ => rfl, .inl ⟨.hostContract, rfl⟩⟩
  · obtain ⟨buf, d, hstate, hout⟩ := readIntoBuf_state s.loadAddr n.toNat 0 { s with byteCount := some n }
    refine ⟨buf, d, fun j hj => hout j (by omega), ?_⟩
    split at h
    · rename_i f s2 hread
      rw [hread] at hstate
      subst hstate
      cases h
      exact .inl ⟨f, rfl⟩
    · rename_i s2 hread
      rw [hread] at hstate
      subst hstate
      cases h
      exact .inr rfl

/-- READ_PAGE within the contract, with the user region readable, answers. -/
theorem exec_readPage_readable {n : Word} {s : State} (hn : n.toNat ≤ s.cfg.pageBytes) (hr : s.rwwRd = true)
    (x : Byte) : ∃ buf d,
      exec (.readPage x n) s = .next { s with
        byteCount := some n, buf := buf, draws := d, loadAddr := addressAfter s.cfg s.loadAddr n.toNat
        resp := some (.buffer n.toNat), tries := some 0, phase := .waitTerm }
      ∧ (∀ j, j < n.toNat → ∃ b, Store.read? buf j = some b
        ∧ (addressAfter s.cfg s.loadAddr j < s.cfg.flashBytes →
            b = Memory.read s.flash (addressAfter s.cfg s.loadAddr j)))
      ∧ (∀ j, n.toNat ≤ j → Store.read? buf j = Store.read? s.buf j)
      ∧ (Store.sorted s.buf = true → Store.sorted buf = true)
      ∧ (Store.below s.cfg.bufBytes s.buf = true → Store.below s.cfg.bufBytes buf = true) := by
  obtain ⟨buf, d, hstate, hout⟩ := readIntoBuf_state s.loadAddr n.toNat 0 { s with byteCount := some n }
  obtain ⟨hnone, hin⟩ := readIntoBuf_readable s.loadAddr n.toNat 0 { s with byteCount := some n } hr
  obtain ⟨hsort, hbelow⟩ := readIntoBuf_form s.loadAddr n.toNat 0 { s with byteCount := some n }
  have hpage := bufBytes_ge_page s.cfg
  refine ⟨buf, d, ?_, fun j hj => ?_, fun j hj => hout j (by omega), ?_, ?_⟩
  · have hc : ¬ readContractBroken s.cfg n = true := by simpa [readContractBroken] using hn
    simp only [exec, execReadPage, if_neg hc]
    rw [← Prod.eta (readIntoBuf _ _ _ _), hnone, hstate]
    rfl
  · have := hin j (Nat.zero_le j) (by omega)
    rwa [hstate] at this
  · rwa [hstate] at hsort
  · have := hbelow s.cfg.bufBytes (by omega)
    rwa [hstate] at this

/-- Settles O13: the reads all answer, and put their bytes into the buffer in order. -/
theorem readPageResult : Obligations.ReadPageResult := by
  intro x n s hn hr
  obtain ⟨buf, d, he, hin, hout, -⟩ := exec_readPage_readable hn hr x
  exact ⟨buf, d, he, hin, hout⟩

/-- The host contract of PROG_PAGE (R103, D7). -/
theorem progContractBroken_iff (c : Cfg) (n : Word) (a : Nat) :
    progContractBroken c n a = true ↔ c.pageBytes < n.toNat ∨ n.toNat % 2 ≠ 0 ∨ a % 2 ≠ 0 := by
  simp [progContractBroken, or_assoc]

/-- Within the contract PROG_PAGE is the engine's start (R102, R103). -/
theorem exec_progPage_within {n : Word} {s : State} (hn : n.toNat ≤ s.cfg.pageBytes) (h2 : n.toNat % 2 = 0)
    (ha : s.loadAddr % 2 = 0) (x : Byte) :
    exec (.progPage x n) s = engineStart { s with byteCount := some n, resp := some .none } := by
  have hc : ¬ progContractBroken s.cfg n s.loadAddr = true := by
    rw [progContractBroken_iff]; omega
  simp only [exec, execProgPage, if_neg hc]

/-- `EraseStart` with no operation outstanding (R122). -/
theorem eraseStart_of_quiet {s : State} (h : s.fcOp = .none) (p : Nat) (k : State → Out) :
    eraseStart p s k = k { s with fcOp := .erase p, rwwRd := false } := by
  rw [eraseStart, whenFcIdle_eq, if_pos h]

/-- The engine's start on an unprotected page (R113, R114). -/
theorem engineStart_of_unprotected {s : State} (hp : s.cfg.isProtected s.loadAddr = false) (hq : s.fcOp = .none) :
    engineStart s = .next { s with
      prot := some false, fcOp := .erase (s.cfg.pageBase s.loadAddr), rwwRd := false, phase := .pgRx 0 } := by
  simp only [engineStart, hp, Bool.false_eq_true, if_false, eraseStart, whenFcIdle_eq, hq, if_true]

/-- The engine's start on a protected page (R113). -/
theorem engineStart_of_protected {s : State} (hp : s.cfg.isProtected s.loadAddr = true) :
    engineStart s = .next { s with prot := some true, phase := .pgRx 0 } := by
  simp only [engineStart, hp, if_true]

/-- Settles O14: within the contract the engine starts the erase. -/
theorem progPageStartsErase : Obligations.ProgPageStartsErase := by
  intro x n s hn h2 ha hp hq
  rw [exec_progPage_within hn h2 ha]
  exact engineStart_of_unprotected (s := { s with byteCount := some n, resp := some .none }) hp hq

/-- Settles O15: within the contract the engine only decides the protection. -/
theorem progPageProtectedStartsNothing : Obligations.ProgPageProtectedStartsNothing := by
  intro x n s hn h2 ha hp
  rw [exec_progPage_within hn h2 ha]
  exact engineStart_of_protected (s := { s with byteCount := some n, resp := some .none }) hp

/-- Settles O16: the check comes before every other effect but `BYTE_COUNT`. -/
theorem hostContractBreachFaults : Obligations.HostContractBreachFaults := by
  intro x n s
  constructor
  · intro h
    have hc := (progContractBroken_iff s.cfg n s.loadAddr).2 h
    simp only [exec, execProgPage, if_pos hc]
    rfl
  · intro h
    have hc : readContractBroken s.cfg n = true := decide_eq_true h
    simp only [exec, execReadPage, if_pos hc]
    rfl

/-- Everything PROG_PAGE can do: break the contract, go on with a protected page, start the erase of another, or find
the flash controller busy. -/
theorem exec_progPage_cases {x : Byte} {n : Word} {s t : State} (h : exec (.progPage x n) s = .next t) :
    t = { s with byteCount := some n, fault := some .hostContract }
      ∨ t = { s with byteCount := some n, resp := some .none, prot := some true, phase := .pgRx 0 }
      ∨ t = { s with
          byteCount := some n, resp := some .none, prot := some false
          fcOp := .erase (s.cfg.pageBase s.loadAddr), rwwRd := false, phase := .pgRx 0 }
      ∨ t = { s with byteCount := some n, resp := some .none, prot := some false, fault := some .fcBusy } := by
  simp only [exec, execProgPage] at h
  split at h
  · cases h; exact .inl rfl
  · cases hp : s.cfg.isProtected s.loadAddr with
    | true =>
      simp only [engineStart, hp, if_true] at h
      cases h; exact .inr (.inl rfl)
    | false =>
      simp only [engineStart, hp, Bool.false_eq_true, if_false, eraseStart, whenFcIdle_eq] at h
      split at h
      · cases h; exact .inr (.inr (.inl rfl))
      · cases h; exact .inr (.inr (.inr rfl))

/-! All commands together. -/

/-- `BYTE_COUNT` after the execution of a command that answers at once (R104). -/
def byteCountExecuted (s : State) : Instr → Option Word
  | .readPage _ n => some n
  | _ => s.byteCount

/-- `INACT` after the execution of a command: LEAVE arms it under `ON_DISPATCH` (R107). -/
def inactExecuted (s : State) (i : Instr) : Nat :=
  match i, s.cfg.leavePoint with
  | .leave, .onDispatch => s.cfg.leaveDelay
  | _, _ => s.inact

/-- `LEAVE_REQ` after the execution of a command: LEAVE sets it under `ON_FRAMED` (R107). -/
def leaveReqExecuted (s : State) (i : Instr) : Bool :=
  match i, s.cfg.leavePoint with
  | .leave, .onFramed => true
  | _, _ => s.leaveReq

/-- The state in which a command that answers at once leaves the machine: response `r`, session buffer `buf`, counter of
drawn bytes `d`. -/
def executed (s : State) (i : Instr) (r : Resp) (buf : Store) (d : Nat) : State :=
  { s with
    byteCount := byteCountExecuted s i, buf := buf, draws := d, loadAddr := loadAddrAfter s i
    inact := inactExecuted s i, leaveReq := leaveReqExecuted s i
    resp := some r, tries := some 0, phase := .waitTerm }

/-- Response `r` over buffer `buf` stands for the documented bytes `ps` of command `i`, and `buf` is the old buffer but
for the cells READ_PAGE fills. -/
structure Answered (s : State) (i : Instr) (r : Resp) (ps : List Byte) (buf : Store) : Prop where
  payload : responsePayload { s with buf := buf } r = some ps
  bytes : ResponseBytes s i ps
  length : ps.length = responseLength i
  outside : ∀ j, (∀ x n, i = .readPage x n → n.toNat ≤ j) → Store.read? buf j = Store.read? s.buf j
  sorted : Store.sorted s.buf = true → Store.sorted buf = true
  below : Store.below s.cfg.bufBytes s.buf = true → Store.below s.cfg.bufBytes buf = true

/-- A response that leaves the buffer alone. -/
theorem Answered.of_same_buf {s : State} {i : Instr} {r : Resp} {ps : List Byte}
    (hp : responsePayload s r = some ps) (hb : ResponseBytes s i ps) (hl : ps.length = responseLength i) :
    Answered s i r ps s.buf :=
  ⟨hp, hb, hl, fun _ _ => rfl, id, id⟩

/-- The empty response. -/
theorem Answered.none {s : State} {i : Instr} (hb : ResponseBytes s i []) (hl : responseLength i = 0) :
    Answered s i .none [] s.buf :=
  .of_same_buf rfl hb hl.symm

theorem responseBytes_universal (s : State) (subop x1 offset x3 : Byte) (ps : List Byte) :
    ResponseBytes s (.universal subop x1 offset x3) ps = if subop = subReadSignature then
      ∃ v, ps = [v] ∧ (offset.toNat < 8 → v = identByte s.cfg offset.toNat) else ps = [] := rfl

theorem Answered.universal_readSignature (x1 offset x3 : Byte) (s : State) :
    Answered s (.universal subReadSignature x1 offset x3) (.byte (identRead offset.toNat s).1)
      [(identRead offset.toNat s).1] s.buf := by
  refine .of_same_buf rfl ?_ rfl
  rw [responseBytes_universal, if_pos rfl]
  exact ⟨_, rfl, fun hlt => by rw [identRead_lt hlt]⟩

/-- A buffer whose first `n` cells are the bytes READ_PAGE read answers with them. -/
theorem Answered.readPage {x : Byte} {n : Word} {s : State} {buf : Store}
    (hin : ∀ j, j < n.toNat → ∃ b, Store.read? buf j = some b
      ∧ (addressAfter s.cfg s.loadAddr j < s.cfg.flashBytes →
          b = Memory.read s.flash (addressAfter s.cfg s.loadAddr j)))
    (hout : ∀ j, n.toNat ≤ j → Store.read? buf j = Store.read? s.buf j)
    (hsort : Store.sorted s.buf = true → Store.sorted buf = true)
    (hbelow : Store.below s.cfg.bufBytes s.buf = true → Store.below s.cfg.bufBytes buf = true) :
    ∃ ps, Answered s (.readPage x n) (.buffer n.toNat) ps buf := by
  have hsome : (({ s with buf := buf } : State).bufBytes 0 n.toNat).isSome = true := by
    rw [bufBytes_isSome]
    intro j hj
    obtain ⟨b, hb, -⟩ := hin j hj
    rw [Nat.zero_add, State.bufAt, hb]
    rfl
  obtain ⟨ps, hps⟩ := Option.isSome_iff_exists.1 hsome
  obtain ⟨hl, hget⟩ := (bufBytes_eq_some _ _ _ _).1 hps
  refine ⟨ps, hps, ⟨hl, fun j hj hlt => ?_⟩, hl, fun j hj => hout j (hj x n rfl), hsort, hbelow⟩
  obtain ⟨b, hb, hval⟩ := hin j hj
  rw [← hget j hj, Nat.zero_add, State.bufAt, hb, hval hlt]

/-- Every command but PROG_PAGE answers with its documented bytes, READ_PAGE within its premises. -/
theorem exec_answers {s : State} {i : Instr} (h : AnswersAtOnce s i) :
    ∃ r ps buf d, exec i s = .next (executed s i r buf d) ∧ Answered s i r ps buf := by
  cases i with
  | getParameter id =>
    exact ⟨_, _, s.buf, s.draws, exec_getParameter id s, .of_same_buf rfl rfl rfl⟩
  | setDevice p => exact ⟨_, _, s.buf, s.draws, rfl, .none rfl rfl⟩
  | setDeviceExt p => exact ⟨_, _, s.buf, s.draws, rfl, .none rfl rfl⟩
  | universal subop x1 offset x3 =>
    by_cases hs : subop = subReadSignature
    · subst hs
      obtain ⟨m, hm⟩ := identRead_state offset.toNat s
      refine ⟨_, _, s.buf, s.draws + m, (exec_universal_readSignature x1 offset x3 s).trans ?_,
        .universal_readSignature x1 offset x3 s⟩
      rw [hm]
      rfl
    · exact ⟨_, _, s.buf, s.draws, exec_universal_other hs x1 offset x3 s,
        .none (by rw [responseBytes_universal, if_neg hs]) (if_neg hs)⟩
  | loadAddress w => exact ⟨_, _, s.buf, s.draws, rfl, .none rfl rfl⟩
  | progPage x n => exact h.elim
  | readPage x n =>
    obtain ⟨hn, hr⟩ := h
    obtain ⟨buf, d, he, hin, hout, hsort, hbelow⟩ := exec_readPage_readable hn hr x
    obtain ⟨ps, hps⟩ := Answered.readPage (x := x) hin hout hsort hbelow
    exact ⟨_, ps, buf, d, he, hps⟩
  | readSign => exact ⟨_, _, s.buf, s.draws, rfl, .of_same_buf rfl rfl rfl⟩
  | getSync => exact ⟨_, _, s.buf, s.draws, rfl, .none rfl rfl⟩
  | leave =>
    refine ⟨_, _, s.buf, s.draws, ?_, .none rfl rfl⟩
    obtain ⟨hd, hf⟩ := leaveResult s
    cases hp : s.cfg.leavePoint with
    | onDispatch => rw [hd hp]; simp [executed, byteCountExecuted, loadAddrAfter, inactExecuted, leaveReqExecuted, hp]
    | onFramed => rw [hf hp]; simp [executed, byteCountExecuted, loadAddrAfter, inactExecuted, leaveReqExecuted, hp]
  | unrecognized b => exact ⟨_, _, s.buf, s.draws, rfl, .none rfl rfl⟩

/-- A command that is neither of the two page commands answers at once from every state. -/
theorem exec_of_not_page {i : Instr} {s t : State} (hp : ∀ x n, i ≠ .progPage x n) (hr : ∀ x n, i ≠ .readPage x n)
    (h : exec i s = .next t) : ∃ r ps buf d, t = executed s i r buf d ∧ Answered s i r ps buf := by
  have ha : AnswersAtOnce s i := by
    cases i with
    | progPage x n => exact absurd rfl (hp x n)
    | readPage x n => exact absurd rfl (hr x n)
    | _ => trivial
  obtain ⟨r, ps, buf, d, he, hans⟩ := exec_answers ha
  rw [he] at h
  cases h
  exact ⟨r, ps, buf, d, rfl, hans⟩

/-- The fields of the state that a command's execution can change. -/
theorem exec_keeps {i : Instr} {s t : State} (h : exec i s = .next t) :
    t = { s with
      buf := t.buf, loadAddr := t.loadAddr, inact := t.inact, tries := t.tries, byteCount := t.byteCount
      prot := t.prot, resp := t.resp, leaveReq := t.leaveReq, fault := t.fault, fcOp := t.fcOp, rwwRd := t.rwwRd
      phase := t.phase, draws := t.draws } := by
  by_cases hp : ∃ x n, i = .progPage x n
  · obtain ⟨x, n, rfl⟩ := hp
    rcases exec_progPage_cases h with rfl | rfl | rfl | rfl <;> rfl
  by_cases hr : ∃ x n, i = .readPage x n
  · obtain ⟨x, n, rfl⟩ := hr
    obtain ⟨buf, d, -, ⟨f, rfl⟩ | rfl⟩ := exec_readPage_cases h <;> rfl
  · obtain ⟨r, ps, buf, d, rfl, -⟩ := exec_of_not_page (by simpa using hp) (by simpa using hr) h
    rfl

theorem loadAddrAfter_other {i : Instr} (hl : ∀ w, i ≠ .loadAddress w) (hr : ∀ x n, i ≠ .readPage x n) (s : State) :
    loadAddrAfter s i = s.loadAddr := by
  unfold loadAddrAfter
  split
  · exact absurd rfl (hl _)
  · exact absurd rfl (hr _ _)
  · rfl

theorem inactExecuted_of_ne_leave {i : Instr} (h : i ≠ .leave) (s : State) : inactExecuted s i = s.inact := by
  unfold inactExecuted
  split
  · exact absurd rfl h
  · rfl

theorem leaveReqExecuted_of_ne_leave {i : Instr} (h : i ≠ .leave) (s : State) :
    leaveReqExecuted s i = s.leaveReq := by
  unfold leaveReqExecuted
  split
  · exact absurd rfl h
  · rfl

theorem byteCountExecuted_other {i : Instr} (hr : ∀ x n, i ≠ .readPage x n) (s : State) :
    byteCountExecuted s i = s.byteCount := by
  unfold byteCountExecuted
  split
  · exact absurd rfl (hr _ _)
  · rfl

/-- Settles O17: the shared frame from `exec_keeps`, the rest from what each of the page commands and what all others
can do. -/
theorem commandFrame : Obligations.CommandFrame := by
  intro i s t h
  refine ⟨?_, ?_⟩
  · rw [exec_keeps h]
    exact ⟨rfl, rfl, rfl, rfl, rfl, fun _ => rfl, fun _ => rfl, rfl, rfl, rfl, rfl, rfl, rfl, rfl, rfl, rfl, rfl⟩
  by_cases hp : ∃ x n, i = .progPage x n
  · obtain ⟨x, n, rfl⟩ := hp
    rcases exec_progPage_cases h with rfl | rfl | rfl | rfl <;>
      exact ⟨fun _ _ => rfl, fun _ => ⟨rfl, rfl⟩, fun hp => absurd rfl (hp x n), fun hp => absurd rfl (hp x n),
        fun _ _ => rfl⟩
  by_cases hr : ∃ x n, i = .readPage x n
  · obtain ⟨x, n, rfl⟩ := hr
    obtain ⟨buf, d, hout, ⟨f, rfl⟩ | rfl⟩ := exec_readPage_cases h <;>
      exact ⟨fun _ hr => absurd rfl (hr x n), fun _ => ⟨rfl, rfl⟩, fun _ => ⟨rfl, rfl, rfl⟩,
        fun _ hr => absurd rfl (hr x n), fun j hj => hout j (hj x n rfl)⟩
  · have hr : ∀ x n, i ≠ .readPage x n := by simpa using hr
    obtain ⟨r, ps, buf, d, rfl, hans⟩ := exec_of_not_page (by simpa using hp) hr h
    exact ⟨fun hl _ => loadAddrAfter_other hl hr s,
      fun hl => ⟨inactExecuted_of_ne_leave hl s, leaveReqExecuted_of_ne_leave hl s⟩, fun _ => ⟨rfl, rfl, rfl⟩,
      fun _ _ => ⟨byteCountExecuted_other hr s, rfl⟩, hans.outside⟩

end Sys2Proof.Laws

/-! The step of each agent and of each phase: an equation for each case (40_dispatcher.md, 42_flash_engine.md,
43_handoff.md section 3). -/

namespace Sys2Proof.Laws

open Sys2Proof.Machine

/-! Whose move it is. -/

/-- With a legal configuration a step is the move whose turn it is. -/
theorem step_of_legal {s : State} (hl : s.cfg.legal = true) : step s = move s.nextTurn s.afterTurn :=
  if_pos hl

theorem step_of_flash {s : State} (hl : s.cfg.legal = true) (hu : s.phase ≠ .user) (ht : s.nextTurn = .flash) :
    step s = flashMove s.afterTurn := by
  rw [step_of_legal hl, ht, move, State.afterTurn_phase, if_neg hu]

theorem step_of_host {s : State} {b : Byte} (hl : s.cfg.legal = true) (hu : s.phase ≠ .user)
    (ht : s.nextTurn = .host b) : step s = .next (hostDeliver b s.afterTurn) := by
  rw [step_of_legal hl, ht, move, State.afterTurn_phase, if_neg hu]

theorem step_of_nextTurn_sequencer {s : State} (hl : s.cfg.legal = true) (hu : s.phase ≠ .user)
    (ht : s.nextTurn = .sequencer) : step s = sequencerMove s.afterTurn := by
  rw [step_of_legal hl, ht, move, State.afterTurn_phase, if_neg hu]

theorem step_of_nextTurn_reset {s : State} (hl : s.cfg.legal = true) (ht : s.nextTurn = .reset) :
    step s = .next (deviceReset s.afterTurn) := by
  rw [step_of_legal hl, ht, move]

/-- The host's delivery as one update of `RXQ` (R38, R134). -/
theorem hostDeliver_eq (b : Byte) (s : State) :
    hostDeliver b s = { s with rxq := if s.xportAttached then s.rxq ++ [b] else s.rxq } := by
  unfold hostDeliver
  by_cases h : s.xportAttached = true
  · rw [if_pos h, if_pos h]
  · rw [if_neg h, if_neg h]

/-- Settles O58: the delivery looks at `XPORT_ATTACHED` alone. -/
theorem hostDelivery : Obligations.HostDelivery := by
  intro s b hl hu ht
  rw [step_of_host hl hu ht, hostDeliver_eq]
  simp only [State.afterTurn_xportAttached, State.afterTurn_rxq]

/-- Settles O59: the check of the configuration, then the check of the phase. -/
theorem refusedSteps : Obligations.RefusedSteps := by
  intro s
  constructor
  · intro hl
    rw [step, hl, if_neg Bool.false_ne_true]
  · intro hl hu ht
    have hu' : s.afterTurn.phase = .user := by rw [State.afterTurn_phase, hu]
    rw [step_of_legal hl]
    cases h : s.nextTurn with
    | reset => exact absurd h ht
    | sequencer => exact if_pos hu'
    | flash => exact if_pos hu'
    | host b => exact if_pos hu'

/-- Settles O51: `deviceReset` field by field. -/
theorem deviceResetEntryState : Obligations.DeviceResetEntryState := by
  intro s hl ht
  refine ⟨_, step_of_nextTurn_reset hl ht, ?_⟩
  simp [State.bufAt]

/-- A fault stops the sequencer (R31). -/
theorem sequencerMove_of_fault {s : State} {f : Fault} (h : s.fault = some f) : sequencerMove s = .fault f := by
  simp only [sequencerMove, h]

/-- Settles O55: no agent but the sequencer can move while `FAULT` is set, and the others do not write it. -/
theorem faultIsSticky : Obligations.FaultIsSticky := by
  intro s f hf
  have hf' : s.afterTurn.fault = some f := by rw [State.afterTurn_fault, hf]
  constructor
  · intro t h hr
    obtain ⟨-, ⟨hreset, -⟩ | ⟨-, -, hseq⟩ | ⟨-, -, hflash⟩ | ⟨b, -, -, rfl⟩⟩ := step_cases h
    · exact absurd hreset hr
    · rw [sequencerMove_of_fault hf'] at hseq; cases hseq
    · rw [flashMove_keeps hflash]; exact hf'
    · rw [hostDeliver_fault]; exact hf'
  · intro hl hu ht
    rw [step_of_nextTurn_sequencer hl hu ht, sequencerMove_of_fault hf']

/-! The sequencer's move in each phase. -/

section

variable {s : State} {ag : List Turn}

/-- The sequencer's move in the dispatcher, the engine and the firmware check is the step of the phase. -/
theorem step_of_armed (h : SequencerNext s ag) (hm : s.mode = .armed) (h1 : ∀ g, s.phase ≠ .hoSeq g)
    (h2 : s.phase ≠ .user) : step s = stepPhase { s with agenda := ag } :=
  step_of_sequencer h (sequencerRuns_armed hm h1 h2)

theorem step_of_rxPayload {got : Nat} (h : SequencerNext s ag) (hm : s.mode = .armed)
    (hp : s.phase = .rxPayload got) : step s = stepRxPayload got { s with agenda := ag } :=
  (step_of_armed h hm (by simp [hp]) (by simp [hp])).trans (stepPhase_rxPayload hp)

theorem step_of_exec (h : SequencerNext s ag) (hm : s.mode = .armed) (hp : s.phase = .exec) :
    step s = stepExec { s with agenda := ag } :=
  (step_of_armed h hm (by simp [hp]) (by simp [hp])).trans (stepPhase_exec hp)

theorem step_of_pgWaitErase (h : SequencerNext s ag) (hm : s.mode = .armed) (hp : s.phase = .pgWaitErase) :
    step s = stepPgWaitErase { s with agenda := ag } :=
  (step_of_armed h hm (by simp [hp]) (by simp [hp])).trans (stepPhase_pgWaitErase hp)

theorem step_of_pgFill {d : Nat} (h : SequencerNext s ag) (hm : s.mode = .armed) (hp : s.phase = .pgFill d) :
    step s = stepPgFill d { s with agenda := ag } :=
  (step_of_armed h hm (by simp [hp]) (by simp [hp])).trans (stepPhase_pgFill hp)

theorem step_of_waitTerm (h : SequencerNext s ag) (hm : s.mode = .armed) (hp : s.phase = .waitTerm) :
    step s = stepWaitTerm { s with agenda := ag } :=
  (step_of_armed h hm (by simp [hp]) (by simp [hp])).trans (stepPhase_waitTerm hp)

theorem step_of_tx {sent : Nat} (h : SequencerNext s ag) (hm : s.mode = .armed) (hp : s.phase = .tx sent) :
    step s = stepTx sent { s with agenda := ag } :=
  (step_of_armed h hm (by simp [hp]) (by simp [hp])).trans (stepPhase_tx hp)

/-- The handoff sequence runs after `MODE = HANDOFF` (R133). -/
theorem step_of_hoSeq {g : HoStage} (h : SequencerNext s ag) (hm : s.mode = .handoff) (hp : s.phase = .hoSeq g) :
    step s = stepHoSeq g { s with agenda := ag } :=
  (step_of_sequencer h (by simp [State.sequencerRuns, hp, hm])).trans (stepPhase_hoSeq hp)

end

/-! `IDLE` and `RX_PAYLOAD`. -/

theorem stepIdle_of_rxq_nil {s : State} (h : s.rxq = []) : stepIdle s = .next (idleIteration s) := by
  simp only [stepIdle, h]

/-- A legal configuration has a counter that can hold `LEAVE_DELAY >= 1`. -/
theorem legal_two_le_inact {c : Cfg} (h : c.legal = true) : 2 ≤ 2 ^ c.inactBits := by
  obtain ⟨-, -, -, -, -, -, -, -, hdelay, hlt⟩ := legal_iff_parts h
  omega

/-- One decrement modulo `2^INACT_BITS`, from a value in the counter's width (D8). -/
theorem inactDecremented_eq {s : State} (h : s.inact < 2 ^ s.cfg.inactBits) :
    inactDecremented s = if s.inact = 0 then 2 ^ s.cfg.inactBits - 1 else s.inact - 1 := by
  unfold inactDecremented
  generalize 2 ^ s.cfg.inactBits = m at h
  split
  · rename_i h0
    rw [h0, Nat.zero_add, Nat.mod_eq_of_lt (by omega)]
  · have hsum : s.inact + m - 1 = s.inact - 1 + m := by omega
    rw [hsum, Nat.add_mod_right, Nat.mod_eq_of_lt (by omega)]

/-- Settles O20: the counter reaches 0 from 1 alone, since its width is not 0. -/
theorem idleIterationCountsDown : Obligations.IdleIterationCountsDown := by
  intro s ag hs hm hp hq hw
  have h2 := legal_two_le_inact hs.1
  have hd : inactDecremented { s with agenda := ag } = if s.inact = 0 then 2 ^ s.cfg.inactBits - 1 else s.inact - 1 :=
    inactDecremented_eq hw
  have hz : (if s.inact = 0 then 2 ^ s.cfg.inactBits - 1 else s.inact - 1) = 0 ↔ s.inact = 1 := by
    split <;> omega
  rw [step_of_idle hs hm hp, stepIdle_of_rxq_nil (s := { s with agenda := ag }) hq, idleIteration, hd]
  simp only [hz]

section

variable {s : State} {got n : Nat}

/-- The payload receive holds while no byte is there (R84). -/
theorem stepRxPayload_of_empty (hn : s.plen = some n) (hg : got < n) (hq : s.rxq = []) :
    stepRxPayload got s = .next s := by
  simp only [stepRxPayload, hn, if_pos hg, hq]

/-- The payload receive takes one byte into the next cell (R84). -/
theorem stepRxPayload_of_byte {b : Byte} {q : List Byte} (hn : s.plen = some n) (hg : got < n)
    (hq : s.rxq = b :: q) (hb : got < s.cfg.bufBytes) :
    stepRxPayload got s = .next { s with rxq := q, buf := Store.put got b s.buf, phase := .rxPayload (got + 1) } := by
  have hput := putBuf_eq (s := s.consumed q) hb b
  simp only [stepRxPayload, hn, if_pos hg, hq, hput, State.consumed_plen]
  rfl

/-- A complete payload goes on to the execution (R84). -/
theorem stepRxPayload_of_le (hn : s.plen = some n) (hg : n ≤ got) :
    stepRxPayload got s = .next { s with phase := .exec } := by
  simp only [stepRxPayload, hn, if_neg (Nat.not_lt.2 hg)]

end

/-- Settles O22: the three cases of the receive; no payload is longer than the buffer. -/
theorem payloadReceiveStep : Obligations.PayloadReceiveStep := by
  intro s ag got n hs hm hp hn hle
  rw [step_of_rxPayload hs hm hp]
  have h20 := bufBytes_ge_twenty s.cfg
  exact ⟨fun hg hq => stepRxPayload_of_empty (s := { s with agenda := ag }) hn hg hq,
    fun b q hg hq => stepRxPayload_of_byte (s := { s with agenda := ag }) hn hg hq
      (show got < s.cfg.bufBytes by omega),
    fun hg => stepRxPayload_of_le (s := { s with agenda := ag }) hn hg⟩

/-! `EXEC`. -/

theorem stepExec_of_fetch {s : State} {i : Instr} (h : fetch s = .ok i) : stepExec s = exec i s := by
  simp only [stepExec, h]

/-- Settles O18: what the bytes decode to is what `fetch` finds. -/
theorem stepRunsDecoded : Obligations.StepRunsDecoded := by
  intro s ag b p i hs hm hp hc hb hd _
  have hlen := ((bufBytes_eq_some s 0 _ p).1 hb).1
  have hdec := decode_append (c := s.cfg) (rest := []) hlen
  rw [List.append_nil, hd] at hdec
  obtain rfl : i = instrOf s.cfg b p := by cases hdec; rfl
  rw [step_of_exec hs hm hp]
  have hb' : ({ s with agenda := ag } : State).bufBytes 0 (payloadLen b) = some p :=
    (bufBytes_congr (by rfl) 0 _).trans hb
  exact stepExec_of_fetch (fetch_of_payload (s := { s with agenda := ag }) hc hb')

/-! `WAIT_TERM` and `TX`. -/

section

variable {s : State} {c : Byte} {n : Nat}

theorem stepWaitTerm_of_terminator {q : List Byte} (hq : s.rxq = terminator :: q) :
    stepWaitTerm s = .next { s with rxq := q, phase := .tx 0 } := by
  simp only [stepWaitTerm, hq, terminatorByte, if_true]
  rfl

theorem stepWaitTerm_of_mismatch {b : Byte} {q : List Byte} (hc : s.cmd = some c) (hq : s.rxq = b :: q)
    (hb : b ≠ terminator) :
    stepWaitTerm s = .next (endBroken ((s.consumed q).emit (.frameMismatch c b))) := by
  simp only [stepWaitTerm, hq, terminatorByte, if_neg hb, State.consumed_cmd, hc]

theorem stepWaitTerm_of_empty (hn : s.tries = some n) (hq : s.rxq = []) (hr : n + 1 ≠ s.cfg.syncRetries) :
    stepWaitTerm s = .next { s with tries := some (n + 1) } := by
  simp only [stepWaitTerm, hq, hn, terminatorEmpty, if_neg hr]

theorem stepWaitTerm_of_last_empty (hc : s.cmd = some c) (hn : s.tries = some n) (hq : s.rxq = [])
    (hr : n + 1 = s.cfg.syncRetries) :
    stepWaitTerm s = .next (endBroken (({ s with tries := some (n + 1) } : State).emit (.frameTimeout c))) := by
  simp only [stepWaitTerm, hq, hn, terminatorEmpty, if_pos hr, hc]

end

/-- Settles O24: the four outcomes of one poll. -/
theorem terminatorPoll : Obligations.TerminatorPoll := by
  intro s ag c n hs hm hp hc hn
  rw [step_of_waitTerm hs hm hp]
  exact ⟨fun q hq => stepWaitTerm_of_terminator (s := { s with agenda := ag }) hq,
    fun b q hq hb => stepWaitTerm_of_mismatch (s := { s with agenda := ag }) hc hq hb,
    fun hq hr => stepWaitTerm_of_empty (s := { s with agenda := ag }) hn hq hr,
    fun hq hr => hr ▸ stepWaitTerm_of_last_empty (s := { s with agenda := ag }) hc hn hq hr⟩

section

variable {s : State} {r : Resp} {ps : List Byte} {j : Nat}

/-- One byte of the response payload (R89). -/
theorem stepTx_of_payload (hr : s.resp = some r) (hp : responsePayload s r = some ps) (hj : j < ps.length) :
    stepTx (j + 1) s = .next { s.send ps[j] with phase := .tx (j + 2) } := by
  have hlt : j < r.length := responsePayload_length hp ▸ hj
  simp only [stepTx, hr, if_pos hlt, respByte_payload hp hj]

/-- The end of the response (R89). -/
theorem stepTx_of_end (hr : s.resp = some r) (hj : r.length ≤ j) : stepTx (j + 1) s = .next (responseEnd s) := by
  simp only [stepTx, hr, if_neg (Nat.not_lt.2 hj)]

end

/-- The end of the response, the leave request consumed under `ON_FRAMED` (R89, D9). -/
theorem responseEnd_eq (s : State) :
    responseEnd s = { s with
      txs := s.txs ++ [.byte okByte, .release], phase := .idle
      inact := if s.cfg.leavePoint = .onFramed ∧ s.leaveReq = true then s.cfg.leaveDelay else s.inact
      leaveReq := if s.cfg.leavePoint = .onFramed then false else s.leaveReq } := by
  have htxs : s.txs ++ [.byte okByte] ++ [.release] = s.txs ++ [.byte okByte, .release] := List.append_assoc _ _ _
  simp only [responseEnd, State.release, State.send, htxs]
  by_cases hf : s.cfg.leavePoint = .onFramed <;> cases hr : s.leaveReq <;> simp [hf]

end Sys2Proof.Laws

/-! The engine's steps and the flash controller's operations (42_flash_engine.md). -/

namespace Sys2Proof.Laws

open Sys2Proof.Machine

section

variable {s : State} {got d : Nat} {count : Word}

/-- The page-data receive holds while no byte is there (R115). -/
theorem stepPgRx_of_empty (hc : s.byteCount = some count) (hg : got < count.toNat) (hq : s.rxq = []) :
    stepPgRx got s = .next s := by
  simp only [stepPgRx, hc, if_pos hg, hq]

/-- The page-data receive takes one byte into the next cell (R115). -/
theorem stepPgRx_of_byte {b : Byte} {q : List Byte} (hc : s.byteCount = some count) (hg : got < count.toNat)
    (hq : s.rxq = b :: q) (hb : got < s.cfg.bufBytes) :
    stepPgRx got s = .next { s with rxq := q, buf := Store.put got b s.buf, phase := .pgRx (got + 1) } := by
  have hput := putBuf_eq (s := s.consumed q) hb b
  simp only [stepPgRx, hc, if_pos hg, hq, hput, State.consumed_byteCount]
  rfl

/-- An unprotected page waits for its erase after the receive (R117). -/
theorem pageReceived_of_unprotected (h : s.prot = some false) (count : Word) :
    pageReceived count s = .next { s with phase := .pgWaitErase } := by
  simp only [pageReceived, h]

theorem stepPgWaitErase_of_busy (h : s.fcOp ≠ .none) : stepPgWaitErase s = .next s :=
  if_pos ((fcBusy_iff s).2 h)

theorem stepPgWaitErase_of_quiet (h : s.fcOp = .none) : stepPgWaitErase s = .next { s with phase := .pgFill 0 } :=
  if_neg fun hb => (fcBusy_iff s).1 hb h

/-- `CommitStart` with no operation outstanding (R125). -/
theorem commitStart_of_quiet (h : s.fcOp = .none) (p : Nat) (k : State → Out) :
    commitStart p s k = k { s with fcOp := .write p, rwwRd := false } := by
  rw [commitStart, whenFcIdle_eq, if_pos h]

/-- `Fill` at an even address with no operation outstanding (R123). -/
theorem fillWord_of_quiet (h : s.fcOp = .none) {a : Nat} (ha : a % 2 = 0) (w : Word) (k : State → Out) :
    fillWord a w s k = k { s with
      pageBuf := Store.put (s.cfg.pageOff a + 1) (hiByte w) (Store.put (s.cfg.pageOff a) (loByte w) s.pageBuf) } := by
  rw [fillWord, whenFcIdle_eq, if_pos h, if_pos ha]

/-- An operation started while one is outstanding raises `FC_BUSY` (R128). -/
theorem whenFcIdle_of_busy (h : s.fcOp ≠ .none) (k : State → Out) : whenFcIdle s k = .next (s.faulted .fcBusy) := by
  rw [whenFcIdle_eq, if_neg h]

/-- The fill of one word (R118, D14). -/
theorem stepPgFill_of_lt {lo hi : Byte} (hc : s.byteCount = some count) (hd : d < count.toNat / 2)
    (hlo : s.bufAt (2 * d) = some lo) (hhi : s.bufAt (2 * d + 1) = some hi) (hq : s.fcOp = .none)
    (ha : s.loadAddr % 2 = 0) :
    stepPgFill d s = .next { s with
      pageBuf := Store.put (s.cfg.pageOff (s.loadAddr + 2 * d) + 1) hi
        (Store.put (s.cfg.pageOff (s.loadAddr + 2 * d)) lo s.pageBuf)
      phase := .pgFill (d + 1) } := by
  have ha' : (s.loadAddr + 2 * d) % 2 = 0 := by omega
  simp only [stepPgFill, hc, if_pos hd, hlo, hhi, fillWord_of_quiet hq ha', hiByte_wordOf, loByte_wordOf]

/-- The commit after the last word (R119). -/
theorem stepPgFill_of_le (hc : s.byteCount = some count) (hd : count.toNat / 2 ≤ d) (hq : s.fcOp = .none) :
    stepPgFill d s = .next { s with
      fcOp := .write (s.cfg.pageBase s.loadAddr), rwwRd := false, phase := .pgWaitWrite } := by
  simp only [stepPgFill, hc, if_neg (Nat.not_lt.2 hd), commitStart_of_quiet hq]

end

/-- A read of the page buffer after one word is put at offset `o` (R123). -/
theorem read?_put_word (o : Nat) (lo hi : Byte) (m : Store) (i : Nat) :
    Store.read? (Store.put (o + 1) hi (Store.put o lo m)) i
      = if i = o + 1 then some hi else if i = o then some lo else Store.read? m i := by
  simp only [Store.read?_put, eq_comm (b := i)]

/-- Settles O30: the receive's cases, and its end by the protection. -/
theorem pageDataReceive : Obligations.PageDataReceive := by
  intro s ag got count prot hs hm hp hc hprot hle
  rw [step_of_pgRx hs hm hp]
  have hpage := bufBytes_ge_page s.cfg
  refine ⟨fun hg hq => stepPgRx_of_empty (s := { s with agenda := ag }) hc hg hq,
    fun b q hg hq => stepPgRx_of_byte (s := { s with agenda := ag }) hc hg hq
      (show got < s.cfg.bufBytes by omega), ?_, ?_⟩
  · rintro hg rfl
    rw [stepPgRx_of_le (s := { s with agenda := ag }) hc hg]
    exact pageReceived_of_unprotected (s := { s with agenda := ag }) hprot count
  · rintro hg rfl
    rw [stepPgRx_of_le (s := { s with agenda := ag }) hc hg]
    exact ⟨_, pageReceived_of_protected (s := { s with agenda := ag }) hprot count, rfl, rfl⟩

/-- Settles O32: the erase wait does one of two things, by whether an operation is outstanding. -/
theorem eraseWait : Obligations.EraseWait := by
  intro s ag hs hm hp
  rw [step_of_pgWaitErase hs hm hp]
  exact ⟨fun h => stepPgWaitErase_of_busy (s := { s with agenda := ag }) h,
    fun h => stepPgWaitErase_of_quiet (s := { s with agenda := ag }) h⟩

/-- Settles O33: the fill of one word, and the commit. -/
theorem fillThenCommit : Obligations.FillThenCommit := by
  intro s ag d count hs hm hp hc hq ha
  rw [step_of_pgFill hs hm hp]
  constructor
  · intro lo hi hd hlo hhi
    refine ⟨_, stepPgFill_of_lt (s := { s with agenda := ag }) hc hd hlo hhi hq ha, rfl, ?_, ?_, ?_⟩
    · rw [read?_put_word]
      simp [Cfg.pageOff]
    · rw [read?_put_word]
      simp [Cfg.pageOff]
    · intro o h0 h1
      rw [read?_put_word, Cfg.pageOff, if_neg h1, if_neg h0]
  · intro hd
    exact stepPgFill_of_le (s := { s with agenda := ag }) hc hd hq

/-- Settles O35: both operations run through `whenFcIdle`. -/
theorem commitAndEnableRead : Obligations.CommitAndEnableRead :=
  fun p _ => ⟨fun h => commitStart_of_quiet h p _, fun h => enableRead_of_quiet h _,
    fun h => ⟨whenFcIdle_of_busy h _, whenFcIdle_of_busy h _⟩⟩

/-- Settles O36: both operations run through `whenFcIdle`. -/
theorem eraseStartAndFill : Obligations.EraseStartAndFill := by
  intro p a w s
  refine ⟨fun h => eraseStart_of_quiet h p _, fun h => ⟨whenFcIdle_of_busy h _, whenFcIdle_of_busy h _⟩, ?_⟩
  intro h ha
  exact ⟨_, fillWord_of_quiet h ha w _, rfl, read?_put_word _ _ _ s.pageBuf⟩

theorem flashMove_of_erase {s : State} {p : Nat} (h : s.fcOp = .erase p)
    (hp : p + s.cfg.pageBytes ≤ s.cfg.flashBytes) : flashMove s = .next (eraseCompleted p s) := by
  simp only [flashMove, h, if_pos hp]

theorem flashMove_of_write {s : State} {p : Nat} (h : s.fcOp = .write p)
    (hp : p + s.cfg.pageBytes ≤ s.cfg.flashBytes) : flashMove s = .next (writeCompleted p s) := by
  simp only [flashMove, h, if_pos hp]

theorem flashMove_of_none {s : State} (h : s.fcOp = .none) : flashMove s = .next s := by
  simp only [flashMove, h]

/-- Settles O37: the erase fills the page with the erased pattern. -/
theorem eraseCompletion : Obligations.EraseCompletion := by
  intro s p hl hu ht hop hpage
  refine ⟨eraseCompleted p s.afterTurn, ?_, rfl, fun a => ?_⟩
  · rw [step_of_flash hl hu ht, flashMove_of_erase] <;> simpa
  · simp [Memory.read_fill]

/-- A byte of the page that the page buffer holds is stored by the commit (R126). -/
theorem committedByte_of_written {s : State} {o : Nat} {b : Byte} (h : Store.read? s.pageBuf o = some b) :
    committedByte s o = b := by
  simp only [committedByte, h, Option.getD_some]

/-- Settles O38: the commit fills the page from the page buffer. -/
theorem writeCompletion : Obligations.WriteCompletion := by
  intro s p hl hu ht hop hpage
  refine ⟨writeCompleted p s.afterTurn, ?_, rfl, fun o b ho hb => ?_, fun a ha => ?_⟩
  · rw [step_of_flash hl hu ht, flashMove_of_write] <;> simpa
  · have hb' : Store.read? s.afterTurn.pageBuf o = some b := by rwa [State.afterTurn_pageBuf]
    have hin : p ≤ p + o ∧ p + o < p + s.cfg.pageBytes := by omega
    rw [writeCompleted_flash, Memory.read_fill, State.afterTurn_cfg, if_pos hin, Nat.add_sub_cancel_left,
      committedByte_of_written hb']
  · rw [writeCompleted_flash, Memory.read_fill, State.afterTurn_cfg, State.afterTurn_flash, if_neg (by omega)]

/-- Settles O45: the three cases of a read. -/
theorem flashReadResult : Obligations.FlashReadResult := by
  intro a s
  refine ⟨fun hlt hread => ?_, fun hlt hb hr => ?_, fun hge => ⟨_, _, if_pos hge⟩⟩
  · have hn : ¬ (a < s.cfg.boundary ∧ s.rwwRd = false) := by
      rintro ⟨hb, hr⟩
      rcases hread with h | h
      · omega
      · rw [hr] at h; cases h
    rw [flashRead, if_neg (by omega), if_neg hn]
  · rw [flashRead, if_neg (by omega), if_pos ⟨hb, hr⟩]

end Sys2Proof.Laws

/-! The steps of the handoff sequence (43_handoff.md section 3). -/

namespace Sys2Proof.Laws

open Sys2Proof.Machine

theorem handoffRelocate_of_disabled {s : State} (h : s.irqEn = false) :
    handoffRelocate s = .next { s.emit .relocated with vtsel := .user, phase := .hoSeq .jump } :=
  if_neg (by simp [h])

theorem handoffRelocate_of_enabled {s : State} (h : s.irqEn = true) : handoffRelocate s = raise .relocIrq s :=
  if_pos h

/-- Settles O47: the interrupts-off step, and the relocation by `IRQ_EN`. -/
theorem relocationWithInterruptsOff : Obligations.RelocationWithInterruptsOff := by
  intro s ag hs hm
  refine ⟨fun hp => ?_, fun hp hi => ?_, fun hp hi => ?_⟩
  · rw [step_of_hoSeq hs hm hp]
    rfl
  · rw [step_of_hoSeq hs hm hp]
    exact handoffRelocate_of_disabled (s := { s with agenda := ag }) hi
  · rw [step_of_hoSeq hs hm hp]
    exact handoffRelocate_of_enabled (s := { s with agenda := ag }) hi

/-- The jump with the interrupt enable that `IRQ_AFTER_HANDOFF` leaves (R137, D18). -/
theorem handoffJump_of_saved {s : State} {saved : Bool} (h : s.irqSave = some saved) :
    handoffJump s
      = jumpWithIrq (match s.cfg.irqAfter with | .disabled => false | .restored => saved) s := by
  unfold handoffJump
  cases s.cfg.irqAfter with
  | disabled => rfl
  | restored => simp only [h]

end Sys2Proof.Laws

/-! Everything the sequencer's step can do in each phase (40_dispatcher.md, 42_flash_engine.md, 43_handoff.md), from
any state. -/

namespace Sys2Proof.Laws

open Sys2Proof.Machine

section

variable {s t : State} {got d sent : Nat}

theorem stepIdle_cases (h : stepIdle s = .next t) :
    (∃ b q, s.rxq = b :: q ∧ t = commandPoll b (s.consumed q)) ∨ (s.rxq = [] ∧ t = idleIteration s) := by
  unfold stepIdle at h
  split at h
  · cases h; exact .inl ⟨_, _, ‹_›, rfl⟩
  · cases h; exact .inr ⟨‹_›, rfl⟩

/-- A byte taken from `RXQ` into `BUF`. -/
theorem consumed_putBuf {q : List Byte} {b : Byte} {u : State} (h : (s.consumed q).putBuf got b = some u) :
    u = { s with rxq := q, buf := Store.put got b s.buf } := by
  unfold State.putBuf at h
  split at h
  · cases h; rfl
  · cases h

theorem stepRxPayload_cases (h : stepRxPayload got s = .next t) :
    t = s.faulted .unwrittenRead
      ∨ (s.rxq = [] ∧ got < s.plen.getD 0 ∧ t = s)
      ∨ (∃ b q, s.rxq = b :: q
        ∧ t = { s with rxq := q, buf := Store.put got b s.buf, phase := .rxPayload (got + 1) })
      ∨ t = { s with phase := .exec } := by
  unfold stepRxPayload at h
  split at h
  · cases h; exact .inl rfl
  · rename_i n hn
    split at h
    · rename_i hg
      split at h
      · cases h; exact .inr (.inl ⟨‹_›, by rwa [hn], rfl⟩)
      · split at h
        · rename_i hput
          cases h
          obtain rfl := consumed_putBuf hput
          exact .inr (.inr (.inl ⟨_, _, ‹_›, rfl⟩))
        · cases h
    · cases h; exact .inr (.inr (.inr rfl))

theorem stepExec_cases (h : stepExec s = .next t) :
    t = s.faulted .unwrittenRead ∨ ∃ i, fetch s = .ok i ∧ exec i s = .next t := by
  unfold stepExec at h
  split at h
  · rename_i f hf
    cases h
    have : f = .unwrittenRead := by
      unfold fetch at hf
      split at hf
      · cases hf; rfl
      · split at hf
        · cases hf
        · cases hf; rfl
    exact .inl (by rw [this])
  · exact .inr ⟨_, ‹_›, h⟩

theorem stepPgRx_cases (h : stepPgRx got s = .next t) :
    t = s.faulted .unwrittenRead
      ∨ (s.rxq = [] ∧ got < (s.byteCount.getD 0).toNat ∧ t = s)
      ∨ (∃ b q, s.rxq = b :: q
        ∧ t = { s with rxq := q, buf := Store.put got b s.buf, phase := .pgRx (got + 1) })
      ∨ (∃ count, t = (s.emit (.writeProtected s.loadAddr count)).toWaitTerm)
      ∨ t = { s with phase := .pgWaitErase } := by
  unfold stepPgRx at h
  split at h
  · cases h; exact .inl rfl
  · rename_i count hc
    split at h
    · rename_i hg
      split at h
      · cases h; exact .inr (.inl ⟨‹_›, by rwa [hc], rfl⟩)
      · split at h
        · rename_i hput
          cases h
          obtain rfl := consumed_putBuf hput
          exact .inr (.inr (.inl ⟨_, _, ‹_›, rfl⟩))
        · cases h
    · unfold pageReceived at h
      split at h
      · cases h; exact .inl rfl
      · cases h; exact .inr (.inr (.inr (.inl ⟨count, rfl⟩)))
      · cases h; exact .inr (.inr (.inr (.inr rfl)))

theorem stepPgWaitErase_cases (h : stepPgWaitErase s = .next t) :
    (s.fcBusy = true ∧ t = s) ∨ (s.fcBusy = false ∧ t = { s with phase := .pgFill 0 }) := by
  unfold stepPgWaitErase at h
  split at h
  · cases h; exact .inl ⟨‹_›, rfl⟩
  · cases h; exact .inr ⟨Bool.eq_false_iff.2 ‹_›, rfl⟩

/-- An operation of the flash controller either raises `FC_BUSY` or goes on. -/
theorem whenFcIdle_cases {k : State → Out} (h : whenFcIdle s k = .next t) :
    t = s.faulted .fcBusy ∨ (s.fcOp = .none ∧ k s = .next t) := by
  rw [whenFcIdle_eq] at h
  split at h
  · exact .inr ⟨‹_›, h⟩
  · cases h; exact .inl rfl

theorem stepPgFill_cases (h : stepPgFill d s = .next t) :
    (∃ f, t = s.faulted f)
      ∨ (∃ pb, t = { s with pageBuf := pb, phase := .pgFill (d + 1) })
      ∨ t = { s with fcOp := .write (s.cfg.pageBase s.loadAddr), rwwRd := false, phase := .pgWaitWrite } := by
  unfold stepPgFill at h
  split at h
  · cases h; exact .inl ⟨_, rfl⟩
  · split at h
    · split at h
      · obtain rfl | ⟨-, h⟩ := whenFcIdle_cases h
        · exact .inl ⟨_, rfl⟩
        · split at h
          · cases h; exact .inr (.inl ⟨_, rfl⟩)
          · cases h
      · cases h; exact .inl ⟨_, rfl⟩
    · obtain rfl | ⟨-, h⟩ := whenFcIdle_cases h
      · exact .inl ⟨_, rfl⟩
      · cases h; exact .inr (.inr rfl)

theorem stepPgWaitWrite_cases (h : stepPgWaitWrite s = .next t) :
    (s.fcOp ≠ .none ∧ t = s) ∨ (s.fcOp = .none ∧ t = ({ s with rwwRd := true } : State).toWaitTerm) := by
  by_cases hq : s.fcOp = .none
  · rw [stepPgWaitWrite_of_quiet hq] at h; cases h; exact .inr ⟨hq, rfl⟩
  · rw [stepPgWaitWrite_of_busy hq] at h; cases h; exact .inl ⟨hq, rfl⟩

theorem stepWaitTerm_cases (h : stepWaitTerm s = .next t) :
    (∃ rxq tries, t = ({ s with rxq := rxq, tries := tries } : State).faulted .unwrittenRead)
      ∨ (∃ q, s.rxq = terminator :: q ∧ t = { s with rxq := q, phase := .tx 0 })
      ∨ (∃ rxq tries e, t = endBroken (({ s with rxq := rxq, tries := tries } : State).emit e))
      ∨ (∃ n, s.tries = some n ∧ t = { s with tries := some (n + 1) }) := by
  unfold stepWaitTerm at h
  split at h
  · rename_i b q hq
    unfold terminatorByte at h
    split at h
    · rename_i hb
      subst hb
      cases h; exact .inr (.inl ⟨q, hq, rfl⟩)
    · split at h
      · cases h; exact .inl ⟨q, s.tries, rfl⟩
      · cases h; exact .inr (.inr (.inl ⟨q, s.tries, _, rfl⟩))
  · split at h
    · cases h; exact .inl ⟨s.rxq, s.tries, rfl⟩
    · rename_i n hn
      simp only [terminatorEmpty] at h
      split at h
      · split at h
        · cases h; exact .inl ⟨s.rxq, some (n + 1), rfl⟩
        · cases h; exact .inr (.inr (.inl ⟨s.rxq, some (n + 1), _, rfl⟩))
      · cases h; exact .inr (.inr (.inr ⟨n, hn, rfl⟩))

theorem stepTx_cases (h : stepTx sent s = .next t) :
    (∃ f, t = s.faulted f) ∨ (∃ txs n, t = { s with txs := txs, draws := n, phase := .tx (sent + 1) })
      ∨ t = responseEnd s := by
  unfold stepTx at h
  split at h
  · cases h; exact .inr (.inl ⟨_, s.draws, rfl⟩)
  · split at h
    · cases h; exact .inl ⟨_, rfl⟩
    · split at h
      · split at h
        · rename_i hb
          obtain ⟨n, rfl⟩ := respByte_ok hb
          cases h; exact .inr (.inl ⟨_, _, rfl⟩)
        · cases h; exact .inl ⟨_, rfl⟩
      · cases h; exact .inr (.inr rfl)

theorem stepHoCheck_cases (h : stepHoCheck s = .next t) :
    ∃ n, (∃ f, t = (s.afterDraws n).faulted f) ∨ t = handoffAbort (s.afterDraws n)
      ∨ t = handoffEnter (s.afterDraws n) := by
  unfold stepHoCheck at h
  split at h
  · cases h; exact ⟨0, .inl ⟨_, rfl⟩⟩
  · rename_i h0
    obtain ⟨n, rfl⟩ := flashRead_state h0
    split at h
    · cases h; exact ⟨n, .inl ⟨_, rfl⟩⟩
    · rename_i h1
      obtain ⟨m, rfl⟩ := flashRead_state h1
      cases h
      refine ⟨n + m, .inr ?_⟩
      split
      · left; simp only [State.afterDraws, Nat.add_assoc]
      · right; simp only [State.afterDraws, Nat.add_assoc]

/-- A step of the handoff sequence raises a fault or goes on to a phase other than its own, and writes the handoff's
registers and the trace only. -/
theorem stepHoSeq_cases {g : HoStage} (h : stepHoSeq g s = .next t) :
    (∃ f, t = s.faulted f) ∨ (t.phase ≠ .hoSeq g ∧ t.phase ≠ .hoCheck
      ∧ t = { s with
          ledEn := t.ledEn, xportAttached := t.xportAttached, irqSave := t.irqSave, irqEn := t.irqEn
          vtsel := t.vtsel, pc := t.pc, events := t.events, phase := t.phase }) := by
  cases g with
  | ledOff => cases h; exact .inr ⟨nofun, nofun, rfl⟩
  | detach => cases h; exact .inr ⟨nofun, nofun, rfl⟩
  | irqOff => cases h; exact .inr ⟨nofun, nofun, rfl⟩
  | relocate =>
    simp only [stepHoSeq, handoffRelocate] at h
    split at h
    · cases h; exact .inl ⟨_, rfl⟩
    · cases h; exact .inr ⟨nofun, nofun, rfl⟩
  | jump =>
    simp only [stepHoSeq, handoffJump] at h
    split at h
    · cases h; exact .inr ⟨nofun, nofun, rfl⟩
    · split at h
      · cases h; exact .inl ⟨_, rfl⟩
      · cases h; exact .inr ⟨nofun, nofun, rfl⟩

end

end Sys2Proof.Laws

/-! What a step of the sequencer leaves unchanged, from any state. -/

namespace Sys2Proof.Laws

open Sys2Proof.Machine

/-- The causes of a change of `INACT` by the sequencer (R81, R82, R89, R107). -/
def InactCause (s t : State) : Prop :=
  s.phase = .idle ∨ (s.phase = .exec ∧ fetch s = .ok .leave ∧ s.cfg.leavePoint = .onDispatch)
    ∨ ((∃ n, s.phase = .tx n) ∧ s.cfg.leavePoint = .onFramed ∧ s.leaveReq = true ∧ t.phase = .idle)

/-- What the sequencer's step from `s` to `t` leaves unchanged: the configuration, program memory and the schedule
always, and the sent bytes, `MODE`, `INACT` and the firmware check's phase but for the causes the spec names. -/
structure SeqFrame (s t : State) : Prop where
  cfg : t.cfg = s.cfg
  flash : t.flash = s.flash
  agenda : t.agenda = s.agenda
  txs : (∀ n, s.phase ≠ .tx n) → t.txs = s.txs
  mode : s.phase ≠ .hoCheck → t.mode = s.mode
  inact : t.inact ≠ s.inact → InactCause s t
  hoCheck : t.phase = .hoCheck → s.phase ≠ .hoCheck → s.phase = .idle ∧ s.rxq = []

/-- A step that leaves all of them unchanged. -/
theorem SeqFrame.of_eq {s t : State} (h : t = { s with
      phase := t.phase, pc := t.pc, cmd := t.cmd, plen := t.plen, buf := t.buf, loadAddr := t.loadAddr
      tries := t.tries, byteCount := t.byteCount, prot := t.prot, resp := t.resp, leaveReq := t.leaveReq
      pageBuf := t.pageBuf, fault := t.fault, fcOp := t.fcOp, rwwRd := t.rwwRd, vtsel := t.vtsel, irqEn := t.irqEn
      irqSave := t.irqSave, ledEn := t.ledEn, xportAttached := t.xportAttached, rxq := t.rxq, events := t.events
      draws := t.draws })
    (hp : t.phase = .hoCheck → s.phase = .hoCheck) : SeqFrame s t :=
  ⟨by rw [h], by rw [h], by rw [h], fun _ => by rw [h], fun _ => by rw [h], fun hi => absurd (by rw [h]) hi,
    fun ht hs => absurd (hp ht) hs⟩

/-- Raising a fault changes none of them. -/
theorem SeqFrame.faulted (s : State) (f : Fault) : SeqFrame s (s.faulted f) :=
  .of_eq rfl id

theorem seqFrame_stepIdle {s t : State} (hp : s.phase = .idle) (h : stepIdle s = .next t) : SeqFrame s t := by
  obtain ⟨b, q, -, rfl⟩ | ⟨hq, rfl⟩ := stepIdle_cases h
  · exact ⟨rfl, rfl, rfl, fun _ => rfl, fun _ => rfl, fun _ => .inl hp, nofun⟩
  · exact ⟨rfl, rfl, rfl, fun _ => rfl, fun _ => rfl, fun _ => .inl hp, fun _ _ => ⟨hp, hq⟩⟩

theorem seqFrame_stepRxPayload {s t : State} {got : Nat} (h : stepRxPayload got s = .next t) : SeqFrame s t := by
  obtain rfl | ⟨-, -, rfl⟩ | ⟨b, q, -, rfl⟩ | rfl := stepRxPayload_cases h
  · exact .faulted s _
  · exact .of_eq rfl id
  · exact .of_eq rfl nofun
  · exact .of_eq rfl nofun

/-- `INACT` changes in a command's execution only by LEAVE under `ON_DISPATCH` (R107). -/
theorem exec_inact {i : Instr} {s t : State} (h : exec i s = .next t) (hne : t.inact ≠ s.inact) :
    i = .leave ∧ s.cfg.leavePoint = .onDispatch := by
  obtain ⟨-, -, hother, -⟩ := commandFrame i s t h
  by_cases hi : i = .leave
  · subst hi
    refine ⟨rfl, ?_⟩
    cases hp : s.cfg.leavePoint with
    | onDispatch => rfl
    | onFramed =>
      rw [(leaveResult s).2 hp] at h
      cases h
      exact absurd rfl hne
  · exact absurd (hother hi).1 hne

theorem seqFrame_stepExec {s t : State} (hp : s.phase = .exec) (h : stepExec s = .next t) : SeqFrame s t := by
  obtain rfl | ⟨i, hf, hx⟩ := stepExec_cases h
  · exact .faulted s _
  · have hk := exec_keeps hx
    have hphase : t.phase ≠ .hoCheck := by
      obtain ⟨-, ht | ht | ⟨ht, -⟩⟩ := exec_phase hx <;> simp [ht, hp]
    refine ⟨by rw [hk], by rw [hk], by rw [hk], fun _ => by rw [hk], fun _ => by rw [hk], fun hi => ?_,
      fun ht => absurd ht hphase⟩
    obtain ⟨rfl, hd⟩ := exec_inact hx hi
    exact .inr (.inl ⟨hp, hf, hd⟩)

theorem seqFrame_stepPgRx {s t : State} {got : Nat} (h : stepPgRx got s = .next t) : SeqFrame s t := by
  obtain rfl | ⟨-, -, rfl⟩ | ⟨b, q, -, rfl⟩ | ⟨count, rfl⟩ | rfl := stepPgRx_cases h
  · exact .faulted s _
  · exact .of_eq rfl id
  · exact .of_eq rfl nofun
  · exact .of_eq rfl nofun
  · exact .of_eq rfl nofun

theorem seqFrame_stepPgWaitErase {s t : State} (h : stepPgWaitErase s = .next t) : SeqFrame s t := by
  obtain ⟨-, rfl⟩ | ⟨-, rfl⟩ := stepPgWaitErase_cases h
  · exact .of_eq rfl id
  · exact .of_eq rfl nofun

theorem seqFrame_stepPgFill {s t : State} {d : Nat} (h : stepPgFill d s = .next t) : SeqFrame s t := by
  obtain ⟨f, rfl⟩ | ⟨pb, rfl⟩ | rfl := stepPgFill_cases h
  · exact .faulted s f
  · exact .of_eq rfl nofun
  · exact .of_eq rfl nofun

theorem seqFrame_stepPgWaitWrite {s t : State} (h : stepPgWaitWrite s = .next t) : SeqFrame s t := by
  obtain ⟨-, rfl⟩ | ⟨-, rfl⟩ := stepPgWaitWrite_cases h
  · exact .of_eq rfl id
  · exact .of_eq rfl nofun

theorem seqFrame_stepWaitTerm {s t : State} (h : stepWaitTerm s = .next t) : SeqFrame s t := by
  obtain ⟨q, n, rfl⟩ | ⟨q, -, rfl⟩ | ⟨q, n, e, rfl⟩ | ⟨n, -, rfl⟩ := stepWaitTerm_cases h
  · exact .of_eq rfl id
  · exact .of_eq rfl nofun
  · exact .of_eq rfl nofun
  · exact .of_eq rfl id

theorem seqFrame_stepTx {s t : State} {sent : Nat} (hp : s.phase = .tx sent) (h : stepTx sent s = .next t) :
    SeqFrame s t := by
  obtain ⟨f, rfl⟩ | ⟨txs, n, rfl⟩ | rfl := stepTx_cases h
  · exact .faulted s f
  · exact ⟨rfl, rfl, rfl, fun hn => absurd hp (hn sent), fun _ => rfl, fun hi => absurd rfl hi, nofun⟩
  · rw [responseEnd_eq]
    refine ⟨rfl, rfl, rfl, fun hn => absurd hp (hn sent), fun _ => rfl, fun hi => ?_, nofun⟩
    by_cases hc : s.cfg.leavePoint = .onFramed ∧ s.leaveReq = true
    · exact .inr (.inr ⟨⟨sent, hp⟩, hc.1, hc.2, rfl⟩)
    · exact absurd (if_neg hc) hi

theorem seqFrame_stepHoCheck {s t : State} (hp : s.phase = .hoCheck) (h : stepHoCheck s = .next t) :
    SeqFrame s t := by
  obtain ⟨n, ⟨f, rfl⟩ | rfl | rfl⟩ := stepHoCheck_cases h
  · exact .of_eq rfl id
  · exact .of_eq rfl nofun
  · exact ⟨rfl, rfl, rfl, fun _ => rfl, fun hn => absurd hp hn, fun hi => absurd rfl hi, nofun⟩

theorem seqFrame_stepHoSeq {s t : State} {g : HoStage} (h : stepHoSeq g s = .next t) : SeqFrame s t := by
  obtain ⟨f, rfl⟩ | ⟨-, hne, heq⟩ := stepHoSeq_cases h
  · exact .faulted s f
  · exact .of_eq (by rw [heq]) fun ht => absurd ht hne

theorem seqFrame_stepPhase {s t : State} (h : stepPhase s = .next t) : SeqFrame s t := by
  unfold stepPhase at h
  cases hp : s.phase with
  | idle => rw [hp] at h; exact seqFrame_stepIdle hp h
  | rxPayload got => rw [hp] at h; exact seqFrame_stepRxPayload h
  | exec => rw [hp] at h; exact seqFrame_stepExec hp h
  | pgRx got => rw [hp] at h; exact seqFrame_stepPgRx h
  | pgWaitErase => rw [hp] at h; exact seqFrame_stepPgWaitErase h
  | pgFill d => rw [hp] at h; exact seqFrame_stepPgFill h
  | pgWaitWrite => rw [hp] at h; exact seqFrame_stepPgWaitWrite h
  | waitTerm => rw [hp] at h; exact seqFrame_stepWaitTerm h
  | tx sent => rw [hp] at h; exact seqFrame_stepTx hp h
  | hoCheck => rw [hp] at h; exact seqFrame_stepHoCheck hp h
  | hoSeq g => rw [hp] at h; exact seqFrame_stepHoSeq h
  | user => rw [hp] at h; cases h; exact .of_eq rfl id

theorem seqFrame_sequencerMove {s t : State} (h : sequencerMove s = .next t) : SeqFrame s t := by
  obtain ⟨-, ⟨-, hstep⟩ | ⟨-, rfl⟩⟩ := sequencerMove_cases h
  · exact seqFrame_stepPhase hstep
  · exact .of_eq rfl id

/-- A step of another agent than the sequencer, a reset excepted, leaves all of them but program memory unchanged. -/
theorem step_other_keeps {s t : State} (h : step s = .next t) (hr : s.nextTurn ≠ .reset)
    (hs : s.nextTurn ≠ .sequencer) :
    t.txs = s.txs ∧ t.inact = s.inact ∧ t.mode = s.mode ∧ t.phase = s.phase := by
  obtain ⟨-, ⟨ht, -⟩ | ⟨ht, -⟩ | ⟨-, -, hflash⟩ | ⟨b, -, -, rfl⟩⟩ := step_cases h
  · exact absurd ht hr
  · exact absurd ht hs
  · rw [flashMove_keeps hflash]; simp
  · simp

/-- A step of the sequencer, seen from the state before its move was taken off the schedule. -/
theorem step_seqFrame {s t : State} (h : step s = .next t) (hs : s.nextTurn = .sequencer) :
    SeqFrame s.afterTurn t := by
  obtain ⟨-, ⟨ht, -⟩ | ⟨-, -, hseq⟩ | ⟨ht, -⟩ | ⟨b, ht, -⟩⟩ := step_cases h
  · rw [hs] at ht; cases ht
  · exact seqFrame_sequencerMove hseq
  · rw [hs] at ht; cases ht
  · rw [hs] at ht; cases ht

/-- Settles O28: the sequencer sends in `TX` only, and the other agents do not send. -/
theorem sendsOnlyInTx : Obligations.SendsOnlyInTx := by
  intro s t h hp hr
  by_cases hs : s.nextTurn = .sequencer
  · rw [(step_seqFrame h hs).txs (by simpa using hp), State.afterTurn_txs]
  · exact (step_other_keeps h hr hs).1

/-- Settles O29: the sequencer's causes, and the reset. -/
theorem inactChangesOnlyHere : Obligations.InactChangesOnlyHere := by
  intro s t h hne
  by_cases hr : s.nextTurn = .reset
  · exact .inl hr
  by_cases hs : s.nextTurn = .sequencer
  · have hcause := (step_seqFrame h hs).inact (by simpa using hne)
    have hfetch : fetch s.afterTurn = fetch s := fetch_congr (by simp) (by simp) (by simp)
    simp only [InactCause, hfetch, State.afterTurn_phase, State.afterTurn_cfg, State.afterTurn_leaveReq] at hcause
    exact .inr ⟨hs, hcause⟩
  · exact absurd (step_other_keeps h hr hs).2.1 hne

/-- Settles O39: the sequencer's frame, the host's delivery and the reset. -/
theorem flashChangesOnlyByController : Obligations.FlashChangesOnlyByController := by
  intro s t h hf
  obtain ⟨-, ⟨-, rfl⟩ | ⟨-, -, hseq⟩ | ⟨ht, -⟩ | ⟨b, -, -, rfl⟩⟩ := step_cases h
  · simp
  · rw [(seqFrame_sequencerMove hseq).flash, State.afterTurn_flash]
  · exact absurd ht hf
  · simp

/-- Settles O50: the sequencer's frame; no other agent moves `PHASE` or `MODE` forward. -/
theorem handoffOnlyFromIdle : Obligations.HandoffOnlyFromIdle := by
  intro s t h
  by_cases hr : s.nextTurn = .reset
  · rw [step_of_reset h hr]
    exact ⟨nofun, nofun⟩
  by_cases hs : s.nextTurn = .sequencer
  · have hframe := step_seqFrame h hs
    constructor
    · intro ht hp
      obtain ⟨hidle, hq⟩ := hframe.hoCheck ht (by simpa using hp)
      exact ⟨hs, by simpa using hidle, by simpa using hq⟩
    · intro ht hm
      refine ⟨hs, ?_⟩
      by_contra hp
      have hmode := hframe.mode (by simpa using hp)
      rw [State.afterTurn_mode, ht, hm] at hmode
      cases hmode
  · obtain ⟨-, -, hmode, hphase⟩ := step_other_keeps h hr hs
    exact ⟨fun ht hp => absurd (hphase ▸ ht) hp, fun ht hm => by rw [hmode, hm] at ht; cases ht⟩

/-! The hold points (R146). -/

/-- At a hold point the step of the phase changes nothing. -/
theorem stepPhase_of_holdPoint {s : State} (h : s.holdPoint ≠ none) : stepPhase s = .next s := by
  unfold State.holdPoint at h
  split at h <;> rename_i hp
  · simp only [ne_eq, ite_eq_right_iff, reduceCtorEq, imp_false, not_not] at h
    rw [stepPhase_rxPayload hp]
    cases hn : s.plen with
    | none => simp [hn] at h
    | some n =>
      rw [hn] at h
      exact stepRxPayload_of_empty hn h.2 h.1
  · simp only [ne_eq, ite_eq_right_iff, reduceCtorEq, imp_false, not_not] at h
    rw [stepPhase_pgRx hp]
    cases hn : s.byteCount with
    | none => simp [hn] at h
    | some n =>
      rw [hn] at h
      exact stepPgRx_of_empty hn h.2 h.1
  · simp only [ne_eq, ite_eq_right_iff, reduceCtorEq, imp_false, not_not] at h
    rw [stepPhase_pgWaitErase hp]
    exact stepPgWaitErase_of_busy ((fcBusy_iff s).1 h)
  · simp only [ne_eq, ite_eq_right_iff, reduceCtorEq, imp_false, not_not] at h
    rw [stepPhase_pgWaitWrite hp]
    exact stepPgWaitWrite_of_busy ((fcBusy_iff s).1 h)
  · exact absurd rfl h

/-- The decremented counter is never what it was (D8). -/
theorem inactDecremented_ne {s : State} (hl : s.cfg.legal = true) : inactDecremented s ≠ s.inact := by
  have h2 := legal_two_le_inact hl
  by_cases hw : s.inact < 2 ^ s.cfg.inactBits
  · rw [inactDecremented_eq hw]
    split <;> omega
  · have hlt : inactDecremented s < 2 ^ s.cfg.inactBits := Nat.mod_lt _ (by omega)
    omega

/-- A state whose `FAULT` is not set differs from every state in which it is. -/
theorem ne_of_fault {s t : State} (hf : s.fault = none) (ht : t.fault.isSome = true) : s ≠ t := by
  rintro rfl
  rw [hf] at ht
  cases ht

theorem ne_of_phase {s t : State} (h : t.phase ≠ s.phase) : s ≠ t := by
  rintro rfl
  exact h rfl

/-- Where the sequencer runs without a fault and stands at no hold point, the step of the phase is not the state as it
is: it changes the phase, takes a byte, counts, or raises a fault. -/
theorem stepPhase_ne_self {s : State} (hl : s.cfg.legal = true) (hf : s.fault = none) (hu : s.phase ≠ .user)
    (hh : s.holdPoint = none) : stepPhase s ≠ .next s := by
  intro h
  unfold State.holdPoint at hh
  cases hp : s.phase with
  | idle =>
    rw [stepPhase_idle hp] at h
    obtain ⟨b, q, -, ht⟩ | ⟨-, ht⟩ := stepIdle_cases h
    · exact ne_of_phase (by simp [hp]) ht
    · exact inactDecremented_ne hl (congrArg State.inact ht).symm
  | rxPayload got =>
    rw [stepPhase_rxPayload hp] at h
    obtain ht | ⟨hq, hg, -⟩ | ⟨b, q, -, ht⟩ | ht := stepRxPayload_cases h
    · exact ne_of_fault hf rfl ht
    · simp [hp, hq, hg] at hh
    · exact ne_of_phase (by simp [hp]) ht
    · exact ne_of_phase (by simp [hp]) ht
  | exec =>
    rw [stepPhase_exec hp] at h
    obtain ht | ⟨i, -, hx⟩ := stepExec_cases h
    · exact ne_of_fault hf rfl ht
    · obtain ⟨-, ht | ht | ⟨-, ht⟩⟩ := exec_phase hx
      · simp [hp] at ht
      · simp [hp] at ht
      · simp [hf] at ht
  | pgRx got =>
    rw [stepPhase_pgRx hp] at h
    obtain ht | ⟨hq, hg, -⟩ | ⟨b, q, -, ht⟩ | ⟨count, ht⟩ | ht := stepPgRx_cases h
    · exact ne_of_fault hf rfl ht
    · have hle : (s.byteCount.getD 0).toNat ≤ got := by simpa [hp, hq] using hh
      omega
    · exact ne_of_phase (by simp [hp]) ht
    · exact ne_of_phase (by simp [hp]) ht
    · exact ne_of_phase (by simp [hp]) ht
  | pgWaitErase =>
    rw [stepPhase_pgWaitErase hp] at h
    obtain ⟨hb, -⟩ | ⟨-, ht⟩ := stepPgWaitErase_cases h
    · simp [hp, hb] at hh
    · exact ne_of_phase (by simp [hp]) ht
  | pgFill d =>
    rw [stepPhase_pgFill hp] at h
    obtain ⟨f, ht⟩ | ⟨pb, ht⟩ | ht := stepPgFill_cases h
    · exact ne_of_fault hf rfl ht
    · exact ne_of_phase (by simp [hp]) ht
    · exact ne_of_phase (by simp [hp]) ht
  | pgWaitWrite =>
    rw [stepPhase_pgWaitWrite hp] at h
    obtain ⟨hb, -⟩ | ⟨-, ht⟩ := stepPgWaitWrite_cases h
    · simp [hp, (fcBusy_iff s).2 hb] at hh
    · exact ne_of_phase (by simp [hp]) ht
  | waitTerm =>
    rw [stepPhase_waitTerm hp] at h
    obtain ⟨q, n, ht⟩ | ⟨q, -, ht⟩ | ⟨q, n, e, ht⟩ | ⟨n, hn, ht⟩ := stepWaitTerm_cases h
    · exact ne_of_fault hf rfl ht
    · exact ne_of_phase (by simp [hp]) ht
    · exact ne_of_phase (by simp [hp, endBroken]) ht
    · have htries := congrArg State.tries ht
      simp [hn] at htries
  | tx sent =>
    rw [stepPhase_tx hp] at h
    obtain ⟨f, ht⟩ | ⟨txs, n, ht⟩ | ht := stepTx_cases h
    · exact ne_of_fault hf rfl ht
    · exact ne_of_phase (by simp [hp]) ht
    · exact ne_of_phase (by simp [hp, responseEnd_eq]) ht
  | hoCheck =>
    rw [stepPhase_hoCheck hp] at h
    obtain ⟨n, ⟨f, ht⟩ | ht | ht⟩ := stepHoCheck_cases h
    · exact ne_of_fault hf rfl ht
    · exact ne_of_phase (by simp [hp]) ht
    · exact ne_of_phase (by simp [hp]) ht
  | hoSeq g =>
    rw [stepPhase_hoSeq hp] at h
    obtain ⟨f, ht⟩ | ⟨hne, -⟩ := stepHoSeq_cases h
    · exact ne_of_fault hf rfl ht
    · exact hne hp
  | user => exact hu hp

/-- Settles O56: each phase's step against the hold points. -/
theorem holdsExactlyAtHoldPoints : Obligations.HoldsExactlyAtHoldPoints := by
  intro s ag hs hr
  rw [step_of_sequencer hs hr]
  have hu : s.phase ≠ .user := by
    intro hp
    simp [State.sequencerRuns, hp] at hr
  exact ⟨fun hh => stepPhase_of_holdPoint (s := { s with agenda := ag }) hh,
    fun hh => stepPhase_ne_self (s := { s with agenda := ag }) hs.1 hs.2.1 hu hh⟩

end Sys2Proof.Laws

/-! The invariant (70_reset_and_hazards.md section 3): every agent's move answers a state that meets it. -/

namespace Sys2Proof.Laws

open Sys2Proof.Machine

/-- The mode, the vector table switch, the interrupt enable, the outputs and `pc` stand at their entry values, as they
do until the handoff sequence begins. -/
def AtEntry (s : State) : Prop :=
  s.mode = .armed ∧ s.vtsel = .boot ∧ s.ledEn = true ∧ s.xportAttached = true
    ∧ s.irqEn = s.cfg.irqEn0 ∧ s.irqSave = none ∧ s.pc = none

theorem handoffOk_iff_atEntry {s : State} (h1 : ∀ g, s.phase ≠ .hoSeq g) (h2 : s.phase ≠ .user) :
    HandoffOk s ↔ AtEntry s := by
  unfold HandoffOk
  cases hp : s.phase with
  | hoSeq g => exact absurd hp (h1 g)
  | user => exact absurd hp h2
  | _ => exact Iff.rfl

/-- The outcome is a next state that meets the invariant. -/
def AnswersInv (o : Out) : Prop := ∃ t, o = .next t ∧ Inv t

theorem AnswersInv.of_eq {o : Out} {t : State} (h : o = .next t) (ht : Inv t) : AnswersInv o := ⟨t, h, ht⟩

/-- A page that is not protected lies inside program memory. -/
theorem unprotected_page_inside {c : Cfg} {a : Nat} (hl : c.legal = true) (h : c.isProtected a = false) :
    c.pageBase a + c.pageBytes ≤ c.flashBytes :=
  (unprotected_iff.1 h).trans (legal_boundary hl).2.le

theorem legal_one_le_retries {c : Cfg} (h : c.legal = true) : 0 < c.syncRetries := by
  obtain ⟨-, -, -, -, -, -, -, hretries, -⟩ := legal_iff_parts h
  exact hretries

theorem legal_leaveDelay_lt {c : Cfg} (h : c.legal = true) : c.leaveDelay < 2 ^ c.inactBits := by
  obtain ⟨-, -, -, -, -, -, -, -, -, hlt⟩ := legal_iff_parts h
  exact hlt

/-- One more received byte: the cells up to it are written. -/
theorem isSome_read?_put {m : Store} {n : Nat} (h : ∀ j, j < n → (Store.read? m j).isSome = true) (b : Byte) :
    ∀ j, j < n + 1 → (Store.read? (Store.put n b m) j).isSome = true := by
  intro j hj
  rw [Store.read?_put]
  split
  · rfl
  · exact h j (by omega)

/-- A byte put into `BUF` keeps the form of the stores. -/
theorem storageOk_put_buf {s : State} {i : Nat} (h : StorageOk s) (hi : i < s.cfg.bufBytes) (b : Byte) :
    StorageOk { s with buf := Store.put i b s.buf } := by
  obtain ⟨hwf, hfb, hbs, hbb, hps, hpb⟩ := h
  exact ⟨hwf, hfb, Store.sorted_put hbs, Store.below_put hi hbb, hps, hpb⟩

/-- A page filled inside program memory keeps the form of the stores. -/
theorem storageOk_fill_page {s : State} {p : Nat} (h : StorageOk s) (hp : p + s.cfg.pageBytes ≤ s.cfg.flashBytes)
    (f : Nat → Byte) : StorageOk { s with flash := Memory.fill p f s.cfg.pageBytes s.flash } := by
  obtain ⟨hwf, hfb, hrest⟩ := h
  exact ⟨Memory.wf_fill hwf, Memory.below_fill hp hfb, hrest⟩

/-! The dispatcher. -/

section

variable {s : State} (h : Inv s) (hf : s.fault = none)

include h hf

theorem inv_stepIdle (hp : s.phase = .idle) : AnswersInv (stepIdle s) := by
  obtain ⟨hl, hst, ⟨haddr, -⟩, hph, hho, -⟩ := h
  have hat := (handoffOk_iff_atEntry (by simp [hp]) (by simp [hp])).1 hho
  simp only [PhaseOk, hp] at hph
  cases hq : s.rxq with
  | cons b q =>
    refine .of_eq (stepIdle_of_rxq_cons hq) ⟨hl, hst, ⟨haddr, Nat.two_pow_pos _⟩, ?_, hat, .inl hf⟩
    exact ⟨hph, b, rfl, rfl, Nat.zero_le _, nofun⟩
  | nil =>
    have hlt : inactDecremented s < 2 ^ s.cfg.inactBits := Nat.mod_lt _ (Nat.two_pow_pos _)
    refine .of_eq (stepIdle_of_rxq_nil hq) ?_
    by_cases hz : inactDecremented s = 0
    · rw [idleIteration, if_pos hz]
      exact ⟨hl, hst, ⟨haddr, hlt⟩, hph, hat, .inl hf⟩
    · rw [idleIteration, if_neg hz]
      exact ⟨hl, hst, ⟨haddr, hlt⟩, hph, hat, .inl hf⟩

theorem inv_stepRxPayload {got : Nat} (hp : s.phase = .rxPayload got) : AnswersInv (stepRxPayload got s) := by
  have hinv := h
  obtain ⟨hl, hst, hw, hph, hho, -⟩ := h
  have hat := (handoffOk_iff_atEntry (by simp [hp]) (by simp [hp])).1 hho
  simp only [PhaseOk, hp] at hph
  obtain ⟨hquiet, b, hc, hn, hle, hbuf⟩ := hph
  by_cases hg : got < payloadLen b
  · cases hq : s.rxq with
    | nil => exact .of_eq (stepRxPayload_of_empty hn hg hq) hinv
    | cons x q =>
      have hcell : got < s.cfg.bufBytes := by
        have := payloadLen_le b
        have := bufBytes_ge_twenty s.cfg
        omega
      refine .of_eq (stepRxPayload_of_byte hn hg hq hcell) ⟨hl, storageOk_put_buf hst hcell x, hw, ?_, hat, .inl hf⟩
      exact ⟨hquiet, b, hc, hn, hg, isSome_read?_put hbuf x⟩
  · obtain rfl : got = payloadLen b := by omega
    exact .of_eq (stepRxPayload_of_le hn le_rfl) ⟨hl, hst, hw, ⟨hquiet, b, hc, hbuf⟩, hat, .inl hf⟩

/-- A command that answers at once leads to the terminator wait with a readable response. -/
theorem inv_executed (hp : s.phase = .exec) {i : Instr} {r : Resp} {ps : List Byte} {buf : Store}
    (hans : Answered s i r ps buf) (d : Nat) : Inv (executed s i r buf d) := by
  obtain ⟨hl, ⟨hwf, hfb, hbs, hbb, hpages⟩, ⟨haddr, hin⟩, hph, hho, -⟩ := h
  have hat := (handoffOk_iff_atEntry (by simp [hp]) (by simp [hp])).1 hho
  simp only [PhaseOk, hp] at hph
  obtain ⟨hquiet, b, hc, -⟩ := hph
  have haddr' : loadAddrAfter s i < 2 ^ s.cfg.addrBits := by
    unfold loadAddrAfter
    split
    · exact Nat.mod_lt _ (Nat.two_pow_pos _)
    · exact Nat.mod_lt _ (Nat.two_pow_pos _)
    · exact haddr
  have hin' : inactExecuted s i < 2 ^ s.cfg.inactBits := by
    unfold inactExecuted
    split
    · exact legal_leaveDelay_lt hl
    · exact hin
  have hresp : responsePayload (executed s i r buf d) r = some ps :=
    (responsePayload_congr (by rfl) (by rfl) r).trans hans.payload
  refine ⟨hl, ⟨hwf, hfb, hans.sorted hbs, hans.below hbb, hpages⟩, ⟨haddr', hin'⟩, ?_, hat, .inl hf⟩
  exact ⟨hquiet, Option.isSome_iff_exists.2 ⟨b, hc⟩, ⟨r, rfl, by rw [hresp]; rfl⟩, 0, rfl, legal_one_le_retries hl⟩

omit hf in
/-- A breach of the host contract leaves the invariant as it was, with its fault set (R103, R104). -/
theorem inv_hostContract (hp : s.phase = .exec) (n : Word) :
    Inv { s with byteCount := some n, fault := some .hostContract } := by
  obtain ⟨hl, hst, hw, hph, hho, -⟩ := h
  have hat := (handoffOk_iff_atEntry (by simp [hp]) (by simp [hp])).1 hho
  simp only [PhaseOk, hp] at hph
  refine ⟨hl, hst, hw, ?_, ?_, .inr ⟨rfl, hp⟩⟩
  · simp only [PhaseOk, hp]
    exact hph
  · exact (handoffOk_iff_atEntry (by simp [hp]) (by simp [hp])).2 hat

theorem inv_execProgPage (hp : s.phase = .exec) (x : Byte) (n : Word) : AnswersInv (exec (.progPage x n) s) := by
  by_cases hb : s.cfg.pageBytes < n.toNat ∨ n.toNat % 2 ≠ 0 ∨ s.loadAddr % 2 ≠ 0
  · exact .of_eq ((hostContractBreachFaults x n s).1 hb) (inv_hostContract h hp n)
  obtain ⟨hl, hst, hw, hph, hho, -⟩ := h
  have hat := (handoffOk_iff_atEntry (by simp [hp]) (by simp [hp])).1 hho
  simp only [PhaseOk, hp] at hph
  obtain ⟨⟨hq, hread, hpb⟩, b, hc, -⟩ := hph
  have hcmd : s.cmd.isSome = true := Option.isSome_iff_exists.2 ⟨b, hc⟩
  obtain ⟨hn, h2, ha⟩ : n.toNat ≤ s.cfg.pageBytes ∧ n.toNat % 2 = 0 ∧ s.loadAddr % 2 = 0 := by omega
  cases hprot : s.cfg.isProtected s.loadAddr with
  | true =>
    refine .of_eq (progPageProtectedStartsNothing x n s hn h2 ha hprot) ⟨hl, hst, hw, ?_, hat, .inl hf⟩
    exact ⟨n, ⟨rfl, hn, h2, ha, rfl, hcmd, congrArg some hprot.symm⟩, Nat.zero_le _, nofun, hpb,
      .inl ⟨hprot, hq, hread⟩⟩
  | false =>
    refine .of_eq (progPageStartsErase x n s hn h2 ha hprot hq) ⟨hl, hst, hw, ?_, hat, .inl hf⟩
    exact ⟨n, ⟨rfl, hn, h2, ha, rfl, hcmd, congrArg some hprot.symm⟩, Nat.zero_le _, nofun, hpb,
      .inr ⟨⟨hprot, rfl⟩, .inr rfl⟩⟩

/-- Every command answers a state that meets the invariant, whatever its operands. -/
theorem inv_exec (hp : s.phase = .exec) (i : Instr) : AnswersInv (exec i s) := by
  by_cases ha : AnswersAtOnce s i
  · obtain ⟨r, ps, buf, d, he, hans⟩ := exec_answers ha
    exact .of_eq he (inv_executed h hf hp hans d)
  cases i with
  | progPage x n => exact inv_execProgPage h hf hp x n
  | readPage x n =>
    have hread : s.rwwRd = true := by
      obtain ⟨-, -, -, hph, -⟩ := h
      simp only [PhaseOk, hp] at hph
      exact hph.1.2.1
    have hn : s.cfg.pageBytes < n.toNat := Nat.not_le.1 fun hn => ha ⟨hn, hread⟩
    exact .of_eq ((hostContractBreachFaults x n s).2 hn) (inv_hostContract h hp n)
  | _ => exact absurd trivial ha

theorem inv_stepExec (hp : s.phase = .exec) : AnswersInv (stepExec s) := by
  have hph : PhaseOk s := by
    obtain ⟨-, -, -, hph, -⟩ := h
    exact hph
  simp only [PhaseOk, hp] at hph
  obtain ⟨-, b, hc, hbuf⟩ := hph
  have hsome : (s.bufBytes 0 (payloadLen b)).isSome = true := by
    rw [bufBytes_isSome]
    intro j hj
    rw [Nat.zero_add]
    exact hbuf j hj
  obtain ⟨p, hb⟩ := Option.isSome_iff_exists.1 hsome
  rw [stepExec_of_fetch (fetch_of_payload hc hb)]
  exact inv_exec h hf hp _

theorem inv_stepWaitTerm (hp : s.phase = .waitTerm) : AnswersInv (stepWaitTerm s) := by
  obtain ⟨hl, hst, hw, hph, hho, -⟩ := h
  have hat := (handoffOk_iff_atEntry (by simp [hp]) (by simp [hp])).1 hho
  simp only [PhaseOk, hp] at hph
  obtain ⟨hquiet, hcmd, ⟨r, hr, hps⟩, t, ht, hlt⟩ := hph
  obtain ⟨c, hc⟩ := Option.isSome_iff_exists.1 hcmd
  cases hq : s.rxq with
  | cons b q =>
    by_cases hb : b = terminator
    · subst hb
      refine .of_eq (stepWaitTerm_of_terminator hq) ⟨hl, hst, hw, ?_, hat, .inl hf⟩
      refine ⟨hquiet, r, hr, ?_, Nat.zero_le _⟩
      rwa [responsePayload_congr (s := s) (by rfl) (by rfl)]
    · exact .of_eq (stepWaitTerm_of_mismatch hc hq hb) ⟨hl, hst, hw, hquiet, hat, .inl hf⟩
  | nil =>
    by_cases hlast : t + 1 = s.cfg.syncRetries
    · exact .of_eq (stepWaitTerm_of_last_empty hc ht hq hlast) ⟨hl, hst, hw, hquiet, hat, .inl hf⟩
    · refine .of_eq (stepWaitTerm_of_empty ht hq hlast) ⟨hl, hst, hw, ?_, ?_, .inl hf⟩
      · simp only [PhaseOk, hp]
        refine ⟨hquiet, hcmd, ⟨r, hr, ?_⟩, t + 1, rfl, by omega⟩
        rwa [responsePayload_congr (s := s) (by rfl) (by rfl)]
      · exact (handoffOk_iff_atEntry (by simp [hp]) (by simp [hp])).2 hat

theorem inv_stepTx {sent : Nat} (hp : s.phase = .tx sent) : AnswersInv (stepTx sent s) := by
  obtain ⟨hl, hst, ⟨haddr, hin⟩, hph, hho, -⟩ := h
  have hat := (handoffOk_iff_atEntry (by simp [hp]) (by simp [hp])).1 hho
  simp only [PhaseOk, hp] at hph
  obtain ⟨hquiet, r, hr, hsome, hle⟩ := hph
  obtain ⟨ps, hps⟩ := Option.isSome_iff_exists.1 hsome
  have hlen := responsePayload_length hps
  cases sent with
  | zero =>
    refine .of_eq rfl ⟨hl, hst, ⟨haddr, hin⟩, ⟨hquiet, r, hr, ?_, by omega⟩, hat, .inl hf⟩
    rwa [responsePayload_congr (s := s) (by rfl) (by rfl)]
  | succ j =>
    by_cases hj : j < ps.length
    · refine .of_eq (stepTx_of_payload hr hps hj)
        ⟨hl, hst, ⟨haddr, hin⟩, ⟨hquiet, r, hr, ?_, by omega⟩, hat, .inl hf⟩
      rwa [responsePayload_congr (s := s) (by rfl) (by rfl)]
    · refine .of_eq (stepTx_of_end hr (by omega)) ?_
      rw [responseEnd_eq]
      refine ⟨hl, hst, ⟨haddr, ?_⟩, hquiet, hat, .inl hf⟩
      dsimp only
      split
      · exact legal_leaveDelay_lt hl
      · exact hin

end

/-! The engine. -/

/-- An empty page buffer holds no received byte. -/
theorem pageFilled_zero {s : State} (h : s.pageBuf = []) : PageFilled s 0 :=
  ⟨nofun, fun o _ => by rw [h, Store.read?_nil]⟩

/-- The fill of the word at an even index puts two more received bytes at their page offsets (R118, R123). -/
theorem pageFilled_put_word {s : State} {n : Nat} {lo hi : Byte} (hl : s.cfg.legal = true)
    (ha : (s.loadAddr + n) % 2 = 0) (hn : n + 1 < s.cfg.pageBytes) (hlo : s.bufAt n = some lo)
    (hhi : s.bufAt (n + 1) = some hi) (h : PageFilled s n) (ph : Phase) :
    PageFilled { s with
      pageBuf := Store.put (s.cfg.pageOff (s.loadAddr + n) + 1) hi
        (Store.put (s.cfg.pageOff (s.loadAddr + n)) lo s.pageBuf)
      phase := ph } (n + 2) := by
  obtain ⟨hin, hout⟩ := h
  have hnext : s.cfg.pageOff (s.loadAddr + (n + 1)) = s.cfg.pageOff (s.loadAddr + n) + 1 := pageOff_succ hl ha
  constructor
  · intro j hj
    simp only [read?_put_word]
    obtain hlt | rfl | rfl : j < n ∨ j = n ∨ j = n + 1 := by omega
    · have h0 : s.cfg.pageOff (s.loadAddr + j) ≠ s.cfg.pageOff (s.loadAddr + n) := fun he => by
        have := pageOff_inj (by omega) (by omega) he
        omega
      have h1 : s.cfg.pageOff (s.loadAddr + j) ≠ s.cfg.pageOff (s.loadAddr + n) + 1 := fun he => by
        have := pageOff_inj (by omega) (by omega) (he.trans hnext.symm)
        omega
      rw [if_neg h1, if_neg h0]
      exact hin j hlt
    · rw [if_neg (by omega), if_pos rfl]
      exact hlo.symm
    · rw [if_pos hnext]
      exact hhi.symm
  · intro o ho
    have h0 : o ≠ s.cfg.pageOff (s.loadAddr + n) := (ho n (by omega)).symm
    have h1 : o ≠ s.cfg.pageOff (s.loadAddr + n) + 1 := fun he => ho (n + 1) (by omega) (hnext.trans he.symm)
    simp only [read?_put_word]
    rw [if_neg h1, if_neg h0]
    exact hout o fun j hj => ho j (by omega)

section

variable {s : State} (h : Inv s) (hf : s.fault = none)

include h hf

theorem inv_stepPgRx {got : Nat} (hp : s.phase = .pgRx got) : AnswersInv (stepPgRx got s) := by
  have hinv := h
  obtain ⟨hl, hst, hw, hph, hho, -⟩ := h
  have hat := (handoffOk_iff_atEntry (by simp [hp]) (by simp [hp])).1 hho
  simp only [PhaseOk, hp] at hph
  obtain ⟨n, heng, hle, hbuf, hpb, hcase⟩ := hph
  have ⟨hc, hn, _, _, hresp, hcmd, hprot⟩ := heng
  by_cases hg : got < n.toNat
  · cases hq : s.rxq with
    | nil => exact .of_eq (stepPgRx_of_empty hc hg hq) hinv
    | cons x q =>
      have hcell : got < s.cfg.bufBytes := by
        have := bufBytes_ge_page s.cfg
        omega
      refine .of_eq (stepPgRx_of_byte hc hg hq hcell) ⟨hl, storageOk_put_buf hst hcell x, hw, ?_, hat, .inl hf⟩
      exact ⟨n, heng, hg, isSome_read?_put hbuf x, hpb, hcase⟩
  · obtain rfl : got = n.toNat := by omega
    rw [stepPgRx_of_le hc le_rfl]
    obtain ⟨hprotected, hq, hread⟩ | ⟨hopen, hop⟩ := hcase
    · rw [hprotected] at hprot
      refine .of_eq (pageReceived_of_protected hprot n) ⟨hl, hst, hw, ?_, hat, .inl hf⟩
      exact ⟨⟨hq, hread, hpb⟩, hcmd, ⟨.none, hresp, rfl⟩, 0, rfl, legal_one_le_retries hl⟩
    · have hprot' := hprot
      rw [hopen.1] at hprot'
      exact .of_eq (pageReceived_of_unprotected hprot' n)
        ⟨hl, hst, hw, ⟨n, heng, hbuf, hopen, hpb, hop⟩, hat, .inl hf⟩

theorem inv_stepPgWaitErase (hp : s.phase = .pgWaitErase) : AnswersInv (stepPgWaitErase s) := by
  by_cases hq : s.fcOp = .none
  · obtain ⟨hl, hst, hw, hph, hho, -⟩ := h
    have hat := (handoffOk_iff_atEntry (by simp [hp]) (by simp [hp])).1 hho
    simp only [PhaseOk, hp] at hph
    obtain ⟨n, heng, hbuf, hopen, hpb, -⟩ := hph
    refine .of_eq (stepPgWaitErase_of_quiet hq) ⟨hl, hst, hw, ?_, hat, .inl hf⟩
    exact ⟨n, heng, hbuf, hopen, hq, Nat.zero_le _, pageFilled_zero hpb⟩
  · exact .of_eq (stepPgWaitErase_of_busy hq) h

theorem inv_stepPgFill {d : Nat} (hp : s.phase = .pgFill d) : AnswersInv (stepPgFill d s) := by
  obtain ⟨hl, hst, hw, hph, hho, -⟩ := h
  have hat := (handoffOk_iff_atEntry (by simp [hp]) (by simp [hp])).1 hho
  simp only [PhaseOk, hp] at hph
  obtain ⟨n, heng, hbuf, hopen, hq, hle, hfill⟩ := hph
  have ⟨hc, hn, h2, ha, _⟩ := heng
  by_cases hd : d < n.toNat / 2
  · obtain ⟨lo, hlo⟩ := Option.isSome_iff_exists.1 (hbuf (2 * d) (by omega))
    obtain ⟨hi, hhi⟩ := Option.isSome_iff_exists.1 (hbuf (2 * d + 1) (by omega))
    have ha' : (s.loadAddr + 2 * d) % 2 = 0 := by omega
    have hoff : s.cfg.pageOff (s.loadAddr + 2 * d) + 1 < s.cfg.pageBytes := by
      rw [← pageOff_succ hl ha']
      exact pageOff_lt hl _
    have hoff' := Nat.lt_of_succ_lt hoff
    obtain ⟨hwf, hfb, hbs, hbb, hps, hpb⟩ := hst
    refine .of_eq (stepPgFill_of_lt hc hd hlo hhi hq ha) ⟨hl, ⟨hwf, hfb, hbs, hbb, ?_, ?_⟩, hw, ?_, hat, .inl hf⟩
    · exact Store.sorted_put (Store.sorted_put hps)
    · exact Store.below_put hoff (Store.below_put hoff' hpb)
    · exact ⟨n, heng, hbuf, hopen, hq, hd, pageFilled_put_word hl ha' (by omega) hlo hhi hfill _⟩
  · have hall : 2 * d = n.toNat := by omega
    rw [hall] at hfill
    refine .of_eq (stepPgFill_of_le hc (by omega) hq) ⟨hl, hst, hw, ?_, hat, .inl hf⟩
    exact ⟨n, heng, hbuf, ⟨hopen.1, rfl⟩, .inl ⟨rfl, hfill⟩⟩

theorem inv_stepPgWaitWrite (hp : s.phase = .pgWaitWrite) : AnswersInv (stepPgWaitWrite s) := by
  by_cases hq : s.fcOp = .none
  · obtain ⟨hl, hst, hw, hph, hho, -⟩ := h
    have hat := (handoffOk_iff_atEntry (by simp [hp]) (by simp [hp])).1 hho
    simp only [PhaseOk, hp] at hph
    obtain ⟨n, ⟨-, -, -, -, hresp, hcmd, -⟩, -, -, ⟨hwrite, -⟩ | ⟨-, hpb, -⟩⟩ := hph
    · rw [hq] at hwrite; cases hwrite
    · refine .of_eq (stepPgWaitWrite_of_quiet hq) ⟨hl, hst, hw, ?_, hat, .inl hf⟩
      exact ⟨⟨hq, rfl, hpb⟩, hcmd, ⟨.none, hresp, rfl⟩, 0, rfl, legal_one_le_retries hl⟩
  · exact .of_eq (stepPgWaitWrite_of_busy hq) h

/-! The handoff controller. -/

theorem inv_stepHoCheck (hp : s.phase = .hoCheck) : AnswersInv (stepHoCheck s) := by
  obtain ⟨hl, hst, hw, hph, hho, -⟩ := h
  have hat := (handoffOk_iff_atEntry (by simp [hp]) (by simp [hp])).1 hho
  simp only [PhaseOk, hp] at hph
  refine .of_eq (stepHoCheck_of_readable hl hph.2.1) ?_
  split
  · exact ⟨hl, hst, hw, hph, hat, .inl hf⟩
  · exact ⟨hl, hst, hw, hph, ⟨rfl, hat.2⟩, .inl hf⟩

theorem inv_stepHoSeq {g : HoStage} (hp : s.phase = .hoSeq g) : AnswersInv (stepHoSeq g s) := by
  obtain ⟨hl, hst, hw, hph, hho, -⟩ := h
  simp only [PhaseOk, hp] at hph
  cases g with
  | ledOff =>
    simp only [HandoffOk, hp] at hho
    obtain ⟨hm, hv, -, hx, hi, hs, hpc⟩ := hho
    exact .of_eq rfl ⟨hl, hst, hw, hph, ⟨hm, hv, rfl, hx, hi, hs, hpc⟩, .inl hf⟩
  | detach =>
    simp only [HandoffOk, hp] at hho
    obtain ⟨hm, hv, hled, -, hi, hs, hpc⟩ := hho
    exact .of_eq rfl ⟨hl, hst, hw, hph, ⟨hm, hv, hled, rfl, hi, hs, hpc⟩, .inl hf⟩
  | irqOff =>
    simp only [HandoffOk, hp] at hho
    obtain ⟨hm, hv, hled, hx, hi, -, hpc⟩ := hho
    exact .of_eq rfl ⟨hl, hst, hw, hph, ⟨hm, hv, hled, hx, rfl, congrArg some hi, hpc⟩, .inl hf⟩
  | relocate =>
    simp only [HandoffOk, hp] at hho
    obtain ⟨hm, -, hled, hx, hi, hs, hpc⟩ := hho
    exact .of_eq (handoffRelocate_of_disabled hi)
      ⟨hl, hst, hw, hph, ⟨hm, rfl, hled, hx, hi, hs, hpc⟩, .inl hf⟩
  | jump =>
    simp only [HandoffOk, hp] at hho
    obtain ⟨hm, hv, hled, hx, -, hs, -⟩ := hho
    exact .of_eq (handoffJump_of_saved hs) ⟨hl, hst, hw, hph, ⟨hm, hv, hled, hx, rfl, hs, rfl⟩, .inl hf⟩

/-! One move of each agent. -/

/-- From every state that meets the invariant without a fault, before the jump, the sequencer's step answers a state
that meets it. -/
theorem inv_stepPhase (hu : s.phase ≠ .user) : AnswersInv (stepPhase s) := by
  cases hp : s.phase with
  | idle => rw [stepPhase_idle hp]; exact inv_stepIdle h hf hp
  | rxPayload got => rw [stepPhase_rxPayload hp]; exact inv_stepRxPayload h hf hp
  | exec => rw [stepPhase_exec hp]; exact inv_stepExec h hf hp
  | pgRx got => rw [stepPhase_pgRx hp]; exact inv_stepPgRx h hf hp
  | pgWaitErase => rw [stepPhase_pgWaitErase hp]; exact inv_stepPgWaitErase h hf hp
  | pgFill d => rw [stepPhase_pgFill hp]; exact inv_stepPgFill h hf hp
  | pgWaitWrite => rw [stepPhase_pgWaitWrite hp]; exact inv_stepPgWaitWrite h hf hp
  | waitTerm => rw [stepPhase_waitTerm hp]; exact inv_stepWaitTerm h hf hp
  | tx sent => rw [stepPhase_tx hp]; exact inv_stepTx h hf hp
  | hoCheck => rw [stepPhase_hoCheck hp]; exact inv_stepHoCheck h hf hp
  | hoSeq g => rw [stepPhase_hoSeq hp]; exact inv_stepHoSeq h hf hp
  | user => exact absurd hp hu

theorem inv_sequencerMove (hu : s.phase ≠ .user) : AnswersInv (sequencerMove s) := by
  unfold sequencerMove
  rw [hf]
  by_cases hr : s.sequencerRuns = true
  · simpa only [if_pos hr] using inv_stepPhase h hf hu
  · simpa only [if_neg hr] using AnswersInv.of_eq rfl h

end

/-- An operation is under way only while the page data is received or the engine waits for it; it is the erase or the
write of the unprotected page of `LOAD_ADDR` (R114, R119). -/
theorem inv_busy {s : State} (h : Inv s) (hb : s.fcOp ≠ .none) :
    s.cfg.isProtected s.loadAddr = false
      ∧ ((((∃ got, s.phase = .pgRx got) ∨ s.phase = .pgWaitErase) ∧ s.fcOp = .erase (s.cfg.pageBase s.loadAddr))
        ∨ (s.phase = .pgWaitWrite ∧ s.fcOp = .write (s.cfg.pageBase s.loadAddr))) := by
  obtain ⟨-, -, -, hph, -⟩ := h
  unfold PhaseOk at hph
  cases hp : s.phase with
  | pgRx got =>
    simp only [hp] at hph
    obtain ⟨n, -, -, -, -, ⟨-, hq, -⟩ | ⟨hopen, hq | hop⟩⟩ := hph
    · exact absurd hq hb
    · exact absurd hq hb
    · exact ⟨hopen.1, .inl ⟨.inl ⟨got, rfl⟩, hop⟩⟩
  | pgWaitErase =>
    simp only [hp] at hph
    obtain ⟨n, -, -, hopen, -, hq | hop⟩ := hph
    · exact absurd hq hb
    · exact ⟨hopen.1, .inl ⟨.inr rfl, hop⟩⟩
  | pgFill d =>
    simp only [hp] at hph
    obtain ⟨n, -, -, -, hq, -⟩ := hph
    exact absurd hq hb
  | pgWaitWrite =>
    simp only [hp] at hph
    obtain ⟨n, -, -, hopen, ⟨hop, -⟩ | ⟨hq, -⟩⟩ := hph
    · exact ⟨hopen.1, .inr ⟨rfl, hop⟩⟩
    · exact absurd hq hb
  | rxPayload got => simp only [hp] at hph; exact absurd hph.1.1 hb
  | exec => simp only [hp] at hph; exact absurd hph.1.1 hb
  | waitTerm => simp only [hp] at hph; exact absurd hph.1.1 hb
  | tx sent => simp only [hp] at hph; exact absurd hph.1.1 hb
  | idle => simp only [hp] at hph; exact absurd hph.1 hb
  | hoCheck => simp only [hp] at hph; exact absurd hph.1 hb
  | hoSeq g => simp only [hp] at hph; exact absurd hph.1 hb
  | user => simp only [hp] at hph; exact absurd hph.1 hb

/-- While an operation is under way no fault is set and the sequencer runs. -/
theorem inv_busy_runs {s : State} (h : Inv s) (hb : s.fcOp ≠ .none) :
    s.fault = none ∧ s.phase ≠ .user ∧ s.sequencerRuns = true := by
  obtain ⟨-, hwhere⟩ := inv_busy h hb
  obtain ⟨-, -, -, -, hho, hfo⟩ := h
  have hp : (∃ got, s.phase = .pgRx got) ∨ s.phase = .pgWaitErase ∨ s.phase = .pgWaitWrite := by tauto
  have hne : s.phase ≠ .exec ∧ s.phase ≠ .user ∧ ∀ g, s.phase ≠ .hoSeq g := by
    obtain ⟨got, hp⟩ | hp | hp := hp <;> simp [hp]
  obtain ⟨hx, hu, hho'⟩ := hne
  have hat := (handoffOk_iff_atEntry hho' hu).1 hho
  refine ⟨?_, hu, sequencerRuns_armed hat.1 hho' hu⟩
  obtain hf | ⟨-, hp⟩ := hfo
  · exact hf
  · exact absurd hp hx

/-- The erase of the page completes in the receive or in the erase wait. -/
theorem inv_eraseCompleted {s : State} (h : Inv s) (hop : s.fcOp = .erase (s.cfg.pageBase s.loadAddr)) :
    Inv (eraseCompleted (s.cfg.pageBase s.loadAddr) s) := by
  have hb : s.fcOp ≠ .none := by simp [hop]
  obtain ⟨hprot, hwhere⟩ := inv_busy h hb
  obtain ⟨hf, -⟩ := inv_busy_runs h hb
  obtain ⟨hl, hst, hw, hph, hho, -⟩ := h
  have hst' := storageOk_fill_page hst (unprotected_page_inside hl hprot) fun _ => 0xFF
  refine ⟨hl, hst', hw, ?_, hho, .inl hf⟩
  simp only [PhaseOk, eraseCompleted_phase] at hph ⊢
  obtain ⟨⟨got, hp⟩ | hp, -⟩ | ⟨-, hwr⟩ := hwhere
  · simp only [hp] at hph ⊢
    obtain ⟨n, heng, hle, hbuf, hpb, ⟨hprotected, -⟩ | ⟨hopen, -⟩⟩ := hph
    · rw [hprot] at hprotected; cases hprotected
    · exact ⟨n, heng, hle, hbuf, hpb, .inr ⟨hopen, .inl rfl⟩⟩
  · simp only [hp] at hph ⊢
    obtain ⟨n, heng, hbuf, hopen, hpb, -⟩ := hph
    exact ⟨n, heng, hbuf, hopen, hpb, .inl rfl⟩
  · rw [hop] at hwr; cases hwr

/-- A page buffer that holds the received bytes is committed into the page (R126). -/
theorem pageStored_writeCompleted {s : State} {n : Nat} (hl : s.cfg.legal = true) (hbuf : BufWritten s n)
    (hfill : PageFilled s n) : PageStored (writeCompleted (s.cfg.pageBase s.loadAddr) s) n := by
  intro j hj
  obtain ⟨b, hb⟩ := Option.isSome_iff_exists.1 (hbuf j hj)
  have hlt := pageOff_lt hl (s.loadAddr + j)
  have hin : s.cfg.pageBase s.loadAddr ≤ s.cfg.pageBase s.loadAddr + s.cfg.pageOff (s.loadAddr + j)
      ∧ s.cfg.pageBase s.loadAddr + s.cfg.pageOff (s.loadAddr + j) < s.cfg.pageBase s.loadAddr + s.cfg.pageBytes := by
    omega
  simp only [writeCompleted_flash, writeCompleted_cfg, writeCompleted_loadAddr, State.bufAt, writeCompleted_buf,
    Memory.read_fill, if_pos hin, Nat.add_sub_cancel_left]
  rw [committedByte_of_written ((hfill.1 j hj).trans hb)]
  exact hb.symm

/-- The write of the page completes in the write wait, and the page then holds the received bytes. -/
theorem inv_writeCompleted {s : State} (h : Inv s) (hop : s.fcOp = .write (s.cfg.pageBase s.loadAddr)) :
    Inv (writeCompleted (s.cfg.pageBase s.loadAddr) s) := by
  have hb : s.fcOp ≠ .none := by simp [hop]
  obtain ⟨hprot, hwhere⟩ := inv_busy h hb
  obtain ⟨hf, -⟩ := inv_busy_runs h hb
  obtain ⟨hl, hst, hw, hph, hho, -⟩ := h
  obtain ⟨hwf, hfb, hbs, hbb, -⟩ := storageOk_fill_page hst (unprotected_page_inside hl hprot) (committedByte s)
  refine ⟨hl, ⟨hwf, hfb, hbs, hbb, rfl, rfl⟩, hw, ?_, hho, .inl hf⟩
  simp only [PhaseOk, writeCompleted_phase] at hph ⊢
  obtain ⟨-, her⟩ | ⟨hp, -⟩ := hwhere
  · rw [hop] at her; cases her
  · simp only [hp] at hph ⊢
    obtain ⟨n, heng, hbuf, hopen, ⟨-, hfill⟩ | ⟨hq, -⟩⟩ := hph
    · exact ⟨n, heng, hbuf, hopen, .inr ⟨rfl, rfl, pageStored_writeCompleted hl hbuf hfill⟩⟩
    · exact absurd hq hb

/-- The flash controller's move answers a state that meets the invariant, and leaves the controller idle. -/
theorem inv_flashMove {s : State} (h : Inv s) : ∃ t, flashMove s = .next t ∧ Inv t ∧ t.fcOp = .none := by
  by_cases hb : s.fcOp = .none
  · exact ⟨s, flashMove_of_none hb, h, hb⟩
  obtain ⟨hprot, ⟨-, hop⟩ | ⟨-, hop⟩⟩ := inv_busy h hb
  · exact ⟨_, flashMove_of_erase hop (unprotected_page_inside h.1 hprot), inv_eraseCompleted h hop, rfl⟩
  · exact ⟨_, flashMove_of_write hop (unprotected_page_inside h.1 hprot), inv_writeCompleted h hop, rfl⟩

/-- Taking a move off the schedule keeps the invariant. -/
theorem inv_afterTurn {s : State} (h : Inv s) : Inv s.afterTurn := by
  rw [afterTurn_eq]
  exact inv_schedule h s.afterTurn.agenda s.afterTurn.turns s.rxq

theorem inv_hostDeliver {s : State} (h : Inv s) (b : Byte) : Inv (hostDeliver b s) := by
  rw [hostDeliver_eq]
  exact inv_schedule h s.agenda s.turns _

/-- The entry state over program memory in its form meets the invariant, whatever the schedule and the draws (R40). -/
theorem inv_entry {c : Cfg} {flash : Memory} (hl : c.legal = true) (hwf : Memory.wf flash = true)
    (hb : Store.below c.flashBytes flash = true) (ag : List Turn) (n d : Nat) :
    Inv { State.launch c flash with agenda := ag, turns := n, draws := d } :=
  ⟨hl, ⟨hwf, hb, rfl, rfl, rfl, rfl⟩, ⟨Nat.two_pow_pos _, Nat.two_pow_pos _⟩, ⟨rfl, rfl, rfl⟩,
    ⟨rfl, rfl, rfl, rfl, rfl, rfl, rfl⟩, .inl rfl⟩

theorem inv_deviceReset {s : State} (h : Inv s) : Inv (deviceReset s) := by
  obtain ⟨hl, ⟨hwf, hb, -⟩, -⟩ := h
  exact inv_entry hl hwf hb s.agenda s.turns s.draws

/-- Settles O52: the entry state, and CFG-A with nothing listed as one. -/
theorem entryStateMeetsInv : Obligations.EntryStateMeetsInv :=
  ⟨fun _ _ hl hwf hb => inv_entry hl hwf hb [] 0 0, inv_entry (by decide) rfl rfl [] 0 0⟩

/-- A fault under the invariant is the host's breach of contract. -/
theorem inv_fault {s : State} {f : Fault} (h : Inv s) (hf : s.fault = some f) : f = .hostContract := by
  obtain ⟨-, -, -, -, -, hn | ⟨hc, -⟩⟩ := h
  · rw [hf] at hn; cases hn
  · rw [hf] at hc; cases hc; rfl

/-- Everything a step can do under the invariant: keep it, stop with the host's breach of contract, or be refused after
the jump. -/
theorem inv_step {s : State} (h : Inv s) :
    AnswersInv (step s) ∨ (step s = .fault .hostContract ∧ s.fault = some .hostContract)
      ∨ (step s = .refused .userFirmware ∧ s.phase = .user) := by
  have hl := h.1
  have h' := inv_afterTurn h
  by_cases hr : s.nextTurn = .reset
  · exact .inl (.of_eq (step_of_nextTurn_reset hl hr) (inv_deviceReset h'))
  by_cases hu : s.phase = .user
  · exact .inr (.inr ⟨(refusedSteps s).2 hl hu hr, hu⟩)
  have hu' : s.afterTurn.phase ≠ .user := by rwa [State.afterTurn_phase]
  cases ht : s.nextTurn with
  | reset => exact absurd ht hr
  | sequencer =>
    cases hf : s.fault with
    | none =>
      rw [step_of_nextTurn_sequencer hl hu ht]
      exact .inl (inv_sequencerMove h' (by rwa [State.afterTurn_fault]) hu')
    | some f =>
      obtain rfl := inv_fault h hf
      exact .inr (.inl ⟨(faultIsSticky s _ hf).2 hl hu ht, rfl⟩)
  | flash =>
    obtain ⟨t, hm, hi, -⟩ := inv_flashMove h'
    exact .inl (.of_eq ((step_of_flash hl hu ht).trans hm) hi)
  | host b => exact .inl (.of_eq (step_of_host hl hu ht) (inv_hostDeliver h' b))

/-- Settles O53: of the three things a step can do, the one that answers a next state keeps the invariant. -/
theorem stepKeepsInv : Obligations.StepKeepsInv := by
  intro s t h hst
  obtain ⟨u, hu, hi⟩ | ⟨hu, -⟩ | ⟨hu, -⟩ := inv_step h
  · rw [hst] at hu
    cases hu
    exact hi
  · rw [hst] at hu; cases hu
  · rw [hst] at hu; cases hu

/-- Settles O54: the three things a step can do under the invariant, and the faults it allows. -/
theorem onlyHostContractFaults : Obligations.OnlyHostContractFaults := by
  intro s h
  refine ⟨fun f hst => ?_, fun r hst => ?_, fun t hst => ?_⟩
  · obtain ⟨u, hu, -⟩ | ⟨hu, hf⟩ | ⟨hu, -⟩ := inv_step h <;> rw [hst] at hu <;> cases hu
    exact ⟨rfl, hf⟩
  · obtain ⟨u, hu, -⟩ | ⟨hu, -⟩ | ⟨hu, hp⟩ := inv_step h <;> rw [hst] at hu <;> cases hu
    exact ⟨rfl, hp⟩
  · cases hf : t.fault with
    | none => exact .inl rfl
    | some f => exact .inr (congrArg some (inv_fault (stepKeepsInv s t h hst) hf))

/-- The operation under way under the invariant is on a page that ends at or below the boundary. -/
theorem inv_operation_below_boundary {s : State} {p : Nat} (h : Inv s) (hop : s.fcOp = .erase p ∨ s.fcOp = .write p) :
    p + s.cfg.pageBytes ≤ s.cfg.boundary := by
  have hb : s.fcOp ≠ .none := by obtain hop | hop := hop <;> simp [hop]
  obtain ⟨hprot, ⟨-, hpage⟩ | ⟨-, hpage⟩⟩ := inv_busy h hb
  all_goals
    rw [hpage] at hop
    obtain hop | hop := hop <;> cases hop
    exact unprotected_iff.1 hprot

/-- A completed operation changes bytes of its own page only. -/
theorem flashMove_read {s t : State} {a : Nat} (h : flashMove s = .next t)
    (ha : ∀ p, s.fcOp = .erase p ∨ s.fcOp = .write p → p + s.cfg.pageBytes ≤ a) :
    Memory.read t.flash a = Memory.read s.flash a := by
  obtain ⟨-, rfl⟩ | ⟨p, hop, -, rfl⟩ | ⟨p, hop, -, rfl⟩ := flashMove_cases h
  · rfl
  · have := ha p (.inl hop)
    rw [eraseCompleted_flash, Memory.read_fill, if_neg (by omega)]
  · have := ha p (.inr hop)
    rw [writeCompleted_flash, Memory.read_fill, if_neg (by omega)]

/-- Settles O41: only the flash controller writes, and under the invariant it works on an unprotected page. -/
theorem protectedRegionNeverChanges : Obligations.ProtectedRegionNeverChanges := by
  intro s t h hst a ha
  by_cases hn : s.nextTurn = .flash
  · obtain ⟨-, ⟨ht, -⟩ | ⟨ht, -⟩ | ⟨-, -, hflash⟩ | ⟨b, ht, -⟩⟩ := step_cases hst
    · rw [hn] at ht; cases ht
    · rw [hn] at ht; cases ht
    · rw [flashMove_read hflash, State.afterTurn_flash]
      intro p hop
      have hle := inv_operation_below_boundary (inv_afterTurn h) hop
      rw [State.afterTurn_cfg] at hle ⊢
      exact hle.trans ha
    · rw [hn] at ht; cases ht
  · rw [flashChangesOnlyByController s t hst hn]

/-- The step from the write wait to the terminator wait is the sequencer's, with the flash controller idle (R120,
R121). -/
theorem step_pgWaitWrite_to_waitTerm {s t : State} (hp : s.phase = .pgWaitWrite) (h : step s = .next t)
    (ht : t.phase = .waitTerm) : s.fcOp = .none ∧ t = ({ s.afterTurn with rwwRd := true } : State).toWaitTerm := by
  obtain ⟨-, ⟨-, rfl⟩ | ⟨-, -, hseq⟩ | ⟨-, -, hflash⟩ | ⟨b, -, -, rfl⟩⟩ := step_cases h
  · cases ht
  · have hp' : s.afterTurn.phase = .pgWaitWrite := by rw [State.afterTurn_phase, hp]
    obtain ⟨-, ⟨-, hstep⟩ | ⟨-, rfl⟩⟩ := sequencerMove_cases hseq
    · rw [stepPhase_pgWaitWrite hp'] at hstep
      obtain ⟨-, rfl⟩ | ⟨hq, rfl⟩ := stepPgWaitWrite_cases hstep
      · rw [hp'] at ht; cases ht
      · exact ⟨by rwa [State.afterTurn_fcOp] at hq, rfl⟩
    · rw [hp'] at ht; cases ht
  · rw [flashMove_keeps hflash, State.afterTurn_phase, hp] at ht; cases ht
  · rw [hostDeliver_phase, State.afterTurn_phase, hp] at ht; cases ht

/-- In the write wait with the flash controller idle, the page holds the received bytes (R121). -/
theorem inv_pageStored {s : State} (h : Inv s) (hp : s.phase = .pgWaitWrite) (hq : s.fcOp = .none) :
    ∃ n, s.byteCount = some n ∧ n.toNat ≤ s.cfg.pageBytes ∧ PageStored s n.toNat := by
  obtain ⟨-, -, -, hph, -⟩ := h
  simp only [PhaseOk, hp] at hph
  obtain ⟨n, ⟨hc, hn, -⟩, -, -, ⟨hop, -⟩ | ⟨-, -, hstored⟩⟩ := hph
  · rw [hq] at hop; cases hop
  · exact ⟨n, hc, hn, hstored⟩

/-- Settles O42: the invariant in the write wait, read after the engine's return. -/
theorem pageHoldsReceivedBytes : Obligations.PageHoldsReceivedBytes := by
  intro s t h hp hst ht
  obtain ⟨hq, rfl⟩ := step_pgWaitWrite_to_waitTerm hp hst ht
  obtain ⟨n, hc, hn, hstored⟩ := inv_pageStored h hp hq
  have hbyte : ∀ j, j < n.toNat → s.bufAt j = some (Memory.read s.flash
      (s.loadAddr - s.loadAddr % s.cfg.pageBytes + (s.loadAddr + j) % s.cfg.pageBytes)) :=
    fun j hj => (hstored j hj).symm
  refine ⟨n, hc, rfl, by simpa using hq, fun j hj => ?_, fun j hj halign => ?_⟩
  · simpa [State.bufAt] using hbyte j hj
  · have halign' : s.loadAddr % s.cfg.pageBytes = 0 := by simpa using halign
    have hoff : s.loadAddr - s.loadAddr % s.cfg.pageBytes + (s.loadAddr + j) % s.cfg.pageBytes = s.loadAddr + j := by
      rw [Nat.add_mod, halign', Nat.zero_add, Nat.mod_mod, Nat.mod_eq_of_lt (by omega), Nat.sub_zero]
    have := hbyte j hj
    rw [hoff] at this
    simpa [State.bufAt] using this

end Sys2Proof.Laws

/-! The weak fairness of the flash controller (70_reset_and_hazards.md section 4, R177). -/

namespace Sys2Proof.Laws

open Sys2Proof.Machine

/-- A step that is no reset leaves the rest of the schedule to come (R15). -/
theorem step_agenda {s t : State} (h : step s = .next t) : t.agenda = s.afterTurn.agenda := by
  obtain ⟨-, ⟨-, rfl⟩ | ⟨-, -, hseq⟩ | ⟨-, -, hflash⟩ | ⟨b, -, -, rfl⟩⟩ := step_cases h
  · rfl
  · exact (seqFrame_sequencerMove hseq).agenda
  · rw [flashMove_keeps hflash]
  · rw [hostDeliver_agenda]

/-- The moves to come: the agenda, or the free schedule behind an empty one. -/
theorem nextTurn_cons_agenda (s : State) :
    s.nextTurn :: s.afterTurn.agenda = if s.agenda = [] then s.freeSchedule else s.agenda := by
  cases ha : s.agenda with
  | nil => simpa using (State.afterTurn_nil ha).1
  | cons u us =>
    obtain ⟨ht, hs⟩ := State.afterTurn_cons ha
    simp [ht, hs]

section

/-! A run goes on while `P` holds and `Q` does not; `Q` holds at every move of the flash controller. -/

variable {P Q : State → Prop} (hgo : ∀ s, P s → ¬ Q s → ∃ t, step s = .next t ∧ P t)
  (hstop : ∀ s, s.nextTurn = .flash → Q s)

include hgo hstop

omit hstop in
/-- One step closer to `Q`: what a run from the next state reaches, a run from this one reaches. -/
theorem run_until_of_step {s : State} (hP : P s)
    (hnext : ∀ t, t.agenda = s.afterTurn.agenda → P t → ∃ n u, runFor n t = .next u ∧ P u ∧ Q u) :
    ∃ n u, runFor n s = .next u ∧ P u ∧ Q u := by
  by_cases hQ : Q s
  · exact ⟨0, s, rfl, hP, hQ⟩
  · obtain ⟨t, hst, hPt⟩ := hgo s hP hQ
    obtain ⟨n, u, hrun, hu⟩ := hnext t (step_agenda hst) hPt
    exact ⟨n + 1, u, (runFor_succ hst).trans hrun, hu⟩

/-- A run whose moves to come hold one of the flash controller's reaches `Q`. -/
theorem run_until_of_mem {moves : List Turn} (hmem : Turn.flash ∈ moves) :
    ∀ s, P s → s.nextTurn :: s.afterTurn.agenda = moves → ∃ n u, runFor n s = .next u ∧ P u ∧ Q u := by
  induction moves with
  | nil => cases hmem
  | cons m ms ih =>
    intro s hP heq
    obtain ⟨hm, hms⟩ := List.cons.inj heq
    by_cases hflash : s.nextTurn = .flash
    · exact ⟨0, s, rfl, hP, hstop s hflash⟩
    · have hmem' : Turn.flash ∈ ms := by
        obtain h | h := List.mem_cons.1 hmem
        · exact absurd (hm.trans h.symm) hflash
        · exact h
      refine run_until_of_step hgo hP fun t ht hPt => ih hmem' t hPt ?_
      rw [nextTurn_cons_agenda, ht, hms, if_neg (List.ne_nil_of_mem hmem')]

/-- Every run reaches `Q`: behind the agenda comes a free schedule, which holds a flash controller move (R177). -/
theorem run_until {agenda : List Turn} :
    ∀ s, P s → s.agenda = agenda → ∃ n u, runFor n s = .next u ∧ P u ∧ Q u := by
  induction agenda with
  | nil =>
    intro s hP ha
    refine run_until_of_mem hgo hstop (State.flash_mem_freeSchedule s) s hP ?_
    rw [nextTurn_cons_agenda, if_pos ha]
  | cons m ms ih =>
    intro s hP ha
    refine run_until_of_step hgo hP fun t ht hPt => ih t hPt ?_
    rw [ht, (State.afterTurn_cons ha).2]

end

/-- The invariant with operation `op` under way. -/
def Working (op : FcOp) (s : State) : Prop := Inv s ∧ s.fcOp = op

/-- While an operation is under way, every move but the flash controller's and a reset leaves it under way (R124,
R126). -/
theorem working_step {op : FcOp} (hop : op ≠ .none) (s : State) (h : Working op s)
    (hother : ¬ (s.nextTurn = .flash ∨ s.nextTurn = .reset)) : ∃ t, step s = .next t ∧ Working op t := by
  obtain ⟨hinv, rfl⟩ := h
  obtain ⟨hf, hu, -⟩ := inv_busy_runs hinv hop
  obtain ⟨t, hst, ht⟩ : AnswersInv (step s) := by
    obtain h | ⟨-, h⟩ | ⟨-, h⟩ := inv_step hinv
    · exact h
    · rw [hf] at h; cases h
    · exact absurd h hu
  refine ⟨t, hst, ht, ?_⟩
  obtain ⟨-, ⟨hn, -⟩ | ⟨-, -, hseq⟩ | ⟨hn, -⟩ | ⟨b, -, -, rfl⟩⟩ := step_cases hst
  · exact absurd (.inr hn) hother
  · have hkeep : t.fcOp = s.afterTurn.fcOp := by
      obtain ⟨-, ⟨-, hstep⟩ | ⟨-, rfl⟩⟩ := sequencerMove_cases hseq
      · have hop' : s.afterTurn.fcOp ≠ .none := by rwa [State.afterTurn_fcOp]
        obtain ⟨-, ⟨⟨got, hp⟩ | hp, -⟩ | ⟨hp, -⟩⟩ := inv_busy (inv_afterTurn hinv) hop'
        · rw [stepPhase_pgRx hp] at hstep
          obtain rfl | ⟨-, -, rfl⟩ | ⟨b, q, -, rfl⟩ | ⟨n, rfl⟩ | rfl := stepPgRx_cases hstep <;> rfl
        · rw [stepPhase_pgWaitErase hp, stepPgWaitErase_of_busy hop'] at hstep
          cases hstep
          rfl
        · rw [stepPhase_pgWaitWrite hp, stepPgWaitWrite_of_busy hop'] at hstep
          cases hstep
          rfl
      · rfl
    rw [hkeep, State.afterTurn_fcOp]
  · exact absurd (.inl hn) hother
  · rw [hostDeliver_fcOp, State.afterTurn_fcOp]

/-- The flash controller's move and a device reset leave the controller idle. -/
theorem step_fcOp_none {s : State} (h : Inv s) (hb : s.fcOp ≠ .none)
    (hn : s.nextTurn = .flash ∨ s.nextTurn = .reset) : ∃ t, step s = .next t ∧ t.fcOp = .none := by
  obtain ⟨-, hu, -⟩ := inv_busy_runs h hb
  obtain hn | hn := hn
  · obtain ⟨t, hm, -, hq⟩ := inv_flashMove (inv_afterTurn h)
    exact ⟨t, (step_of_flash h.1 hu hn).trans hm, hq⟩
  · exact ⟨_, step_of_nextTurn_reset h.1 hn, rfl⟩

/-- Settles O57: a run until the flash controller moves, and one in which the operation stays under way until then. -/
theorem flashControllerFair : Obligations.FlashControllerFair := by
  constructor
  · intro s
    have hgo : ∀ s : State, True → ¬ (s.nextTurn = .flash ∨ ∀ u, step s ≠ .next u) →
        ∃ t, step s = .next t ∧ True := by
      intro s _ hn
      obtain ⟨-, hstep⟩ := not_or.1 hn
      obtain ⟨t, ht⟩ := not_forall.1 hstep
      exact ⟨t, not_not.1 ht, trivial⟩
    obtain ⟨n, t, hrun, -, ht⟩ := run_until hgo (fun _ h => .inl h) s trivial rfl
    exact ⟨n, t, hrun, ht⟩
  · intro s h hb
    obtain ⟨n, t, hrun, ⟨ht, hop⟩, hn⟩ := run_until (working_step hb) (fun _ h => .inl h) s ⟨h, rfl⟩ rfl
    obtain ⟨u, hu, hq⟩ := step_fcOp_none ht (hop ▸ hb) hn
    exact ⟨n, t, u, hrun, hop, hn, hu, hq⟩

end Sys2Proof.Laws

/-! Runs of the sequencer's moves: the idle period, the receives, the terminator wait, the response and the handoff
(40_dispatcher.md, 43_handoff.md section 3). -/

namespace Sys2Proof.Laws

open Sys2Proof.Machine

theorem runFor_one (s : State) : runFor 1 s = step s := by
  rw [runFor]
  cases step s <;> rfl

/-! The idle period. -/

/-- Settles O21: each idle iteration brings the period one move closer to its end, by induction on the period. -/
theorem idleTimeoutPeriod : Obligations.IdleTimeoutPeriod := by
  intro s ag n hn hw hr hm hp hq
  induction n generalizing s with
  | zero =>
    have := Nat.two_pow_pos s.cfg.inactBits
    split at hn <;> omega
  | succ n ih =>
    have h2 := legal_two_le_inact hr.1
    have hstep := idleIterationCountsDown s _ (sequencerRunsFor_head hr) hm hp hq hw
    have hleft : (if s.inact = 0 then 2 ^ s.cfg.inactBits - 1 else s.inact - 1) = n := by
      split at hn <;> simp only [*, if_true, if_false] <;> omega
    rw [hleft] at hstep
    by_cases h1 : s.inact = 1
    · obtain rfl : n = 0 := by simp only [h1, one_ne_zero, if_false] at hn; omega
      rw [if_pos h1] at hstep
      refine ⟨(runFor_one s).trans hstep, fun k hk => ?_⟩
      obtain rfl : k = 0 := by omega
      exact ⟨s, rfl, hp⟩
    · rw [if_neg h1] at hstep
      have hn0 : n ≠ 0 := by
        rintro rfl
        split at hn <;> omega
      obtain ⟨hrun, hbefore⟩ := ih { s with agenda := List.replicate n .sequencer ++ ag, inact := n, phase := .idle }
        (by simp only [if_neg hn0]) (by dsimp only; split at hn <;> omega) ⟨hr.1, hr.2.1, rfl⟩ hm rfl hq
      refine ⟨(runFor_succ hstep).trans hrun, fun k hk => ?_⟩
      cases k with
      | zero => exact ⟨s, rfl, hp⟩
      | succ k =>
        obtain ⟨t, ht, hphase⟩ := hbefore k (by omega)
        exact ⟨t, (runFor_succ hstep).trans ht, hphase⟩

/-! The receives. -/

/-- A read of the buffer after a payload was put into it from cell `i` on. -/
theorem read?_payloadInto (i : Nat) (p : List Byte) (m : Store) (j : Nat) :
    Store.read? (payloadInto i p m) j = if i ≤ j ∧ j < i + p.length then p[j - i]? else Store.read? m j := by
  induction p generalizing i m with
  | nil => rw [if_neg (by simp)]; rfl
  | cons b p ih =>
    rw [payloadInto, ih, Store.read?_put, List.length_cons]
    by_cases hij : i = j
    · subst hij
      rw [if_neg (by omega), if_pos rfl, if_pos (by omega), Nat.sub_self, List.getElem?_cons_zero]
    · by_cases hin : i + 1 ≤ j ∧ j < i + 1 + p.length
      · have hsub : j - i = j - (i + 1) + 1 := by omega
        rw [if_pos hin, if_pos (by omega), hsub, List.getElem?_cons_succ]
      · rw [if_neg hin, if_neg hij, if_neg (by omega)]

/-- The cells a payload was put into hold it in order. -/
theorem read?_payloadInto_zero {p : List Byte} {j : Nat} (hj : j < p.length) (m : Store) :
    Store.read? (payloadInto 0 p m) j = p[j]? := by
  rw [read?_payloadInto, if_pos (by omega), Nat.sub_zero]

theorem bufBytes_payloadInto {s : State} {p : List Byte} {m : Store} (h : s.buf = payloadInto 0 p m) :
    s.bufBytes 0 p.length = some p := by
  refine (bufBytes_eq_some s 0 p.length p).2 ⟨rfl, fun j hj => ?_⟩
  rw [State.bufAt, h, Nat.zero_add, read?_payloadInto_zero hj]

/-- A receive that takes one byte a move into the next cell of `BUF` takes a whole list of bytes: shared by the payload
receive and the page-data receive (R84, R115). -/
theorem run_receives {s : State} {ph : Nat → Phase} {n : Nat}
    (hstep : ∀ ag b q buf got, got < n →
      step { s with agenda := .sequencer :: ag, rxq := b :: q, buf := buf, phase := ph got }
        = .next { s with agenda := ag, rxq := q, buf := Store.put got b buf, phase := ph (got + 1) })
    (ag : List Turn) (rest p : List Byte) (got : Nat) (buf : Store) (hle : got + p.length ≤ n) :
    runFor p.length
        { s with
          agenda := List.replicate p.length .sequencer ++ ag, rxq := p ++ rest, buf := buf, phase := ph got }
      = .next { s with agenda := ag, rxq := rest, buf := payloadInto got p buf, phase := ph (got + p.length) } := by
  induction p generalizing got buf with
  | nil => rfl
  | cons b p ih =>
    rw [List.length_cons] at hle ⊢
    have hnext := ih (got + 1) (Store.put got b buf) (by omega)
    rw [Nat.add_right_comm, Nat.add_assoc] at hnext
    exact (runFor_succ (hstep _ b _ buf got (by omega))).trans hnext

/-- The whole payload receive, up to the execution (R84). -/
theorem run_payload {s : State} {ag : List Turn} {p rest : List Byte} (hr : SequencerRunsFor (p.length + 1) s ag)
    (hm : s.mode = .armed) (hp : s.phase = .rxPayload 0) (hn : s.plen = some p.length) (hle : p.length ≤ 20)
    (hq : s.rxq = p ++ rest) :
    runFor (p.length + 1) s
      = .next { s with agenda := ag, rxq := rest, buf := payloadInto 0 p s.buf, phase := .exec } := by
  obtain ⟨hl, hf, ha⟩ := sequencerRunsFor_prefix hr
  have hs : s = { s with
      agenda := List.replicate p.length .sequencer ++ .sequencer :: ag, rxq := p ++ rest
      phase := .rxPayload 0 } := by
    rw [← hq, ← hp]
    exact congrArg (fun a => { s with agenda := a }) ha
  have hreceive := run_receives (s := s) (ph := .rxPayload) (n := p.length)
    (fun ag b q buf got hg =>
      (payloadReceiveStep { s with agenda := .sequencer :: ag, rxq := b :: q, buf := buf, phase := .rxPayload got } ag
        got p.length ⟨hl, hf, rfl⟩ hm rfl hn hle).2.1 b q hg rfl)
    (.sequencer :: ag) rest p 0 s.buf (by omega)
  rw [Nat.zero_add, ← hs] at hreceive
  rw [runFor_after hreceive, runFor_one]
  exact (payloadReceiveStep { s with
      agenda := .sequencer :: ag, rxq := rest, buf := payloadInto 0 p s.buf, phase := .rxPayload p.length } ag
    p.length p.length ⟨hl, hf, rfl⟩ hm rfl hn hle).2.2 le_rfl

/-- Settles O23: the receive's run, and what the buffer then holds. -/
theorem payloadReceiveRun : Obligations.PayloadReceiveRun := by
  intro s ag p rest hr hm hp hn hle hq
  refine ⟨_, run_payload hr hm hp hn hle hq, rfl, bufBytes_payloadInto rfl, fun j hj => ?_⟩
  simp only [State.bufAt]
  rw [read?_payloadInto, if_neg (by omega)]

/-! The terminator wait and the response. -/

/-- The empty polls from the one after `n` on, up to the last. -/
theorem run_empty_polls {s : State} {ag : List Turn} {c : Byte} {k n : Nat} (hr : SequencerRunsFor (k + 1) s ag)
    (hm : s.mode = .armed) (hp : s.phase = .waitTerm) (hc : s.cmd = some c) (hn : s.tries = some n)
    (hq : s.rxq = []) (hk : n + (k + 1) = s.cfg.syncRetries) :
    runFor (k + 1) s = .next { s with
      agenda := ag, tries := some s.cfg.syncRetries, events := s.events ++ [.frameTimeout c], phase := .idle
      leaveReq := if s.cfg.leavePoint = .onFramed then false else s.leaveReq } := by
  induction k generalizing s n with
  | zero =>
    obtain ⟨-, -, -, hlast⟩ := terminatorPoll s ag c n (sequencerRunsFor_head hr) hm hp hc hn
    rw [runFor_one, hlast hq hk, ← hk]
  | succ k ih =>
    obtain ⟨-, -, hempty, -⟩ := terminatorPoll s _ c n (sequencerRunsFor_head hr) hm hp hc hn
    refine (runFor_succ (hempty hq (by omega))).trans ?_
    exact ih (s := { s with agenda := List.replicate (k + 1) .sequencer ++ ag, tries := some (n + 1) })
      ⟨hr.1, hr.2.1, rfl⟩ hm hp hc rfl hq (show n + 1 + (k + 1) = s.cfg.syncRetries by omega)

/-- Settles O25: the wait from its first poll on; a legal configuration has a poll. -/
theorem terminatorTimeoutRun : Obligations.TerminatorTimeoutRun := by
  intro s ag c hr hm hp hc hn hq
  obtain ⟨k, hk⟩ : ∃ k, s.cfg.syncRetries = k + 1 := Nat.exists_eq_succ_of_ne_zero (legal_one_le_retries hr.1).ne'
  rw [hk] at hr
  have hrun := run_empty_polls hr hm hp hc hn hq (by omega)
  rwa [← hk] at hrun

/-- The move that sends payload byte `j` (R89). -/
theorem step_tx_payload {s : State} {ag : List Turn} {r : Resp} {ps : List Byte} {j : Nat} (h : SequencerNext s ag)
    (hm : s.mode = .armed) (hp : s.phase = .tx (j + 1)) (hresp : s.resp = some r)
    (hps : responsePayload s r = some ps) (hj : j < ps.length) :
    step s = .next { s with agenda := ag, txs := s.txs ++ [.byte ps[j]], phase := .tx (j + 2) } :=
  (step_of_tx h hm hp).trans (stepTx_of_payload (s := { s with agenda := ag }) hresp
    ((responsePayload_congr (by rfl) (by rfl) r).trans hps) hj)

/-- The move that ends the response (R89). -/
theorem step_tx_end {s : State} {ag : List Turn} {r : Resp} {j : Nat} (h : SequencerNext s ag)
    (hm : s.mode = .armed) (hp : s.phase = .tx (j + 1)) (hresp : s.resp = some r) (hj : r.length ≤ j) :
    step s = .next { s with
      agenda := ag, txs := s.txs ++ [.byte okByte, .release], phase := .idle
      inact := if s.cfg.leavePoint = .onFramed ∧ s.leaveReq = true then s.cfg.leaveDelay else s.inact
      leaveReq := if s.cfg.leavePoint = .onFramed then false else s.leaveReq } :=
  (step_of_tx h hm hp).trans ((stepTx_of_end (s := { s with agenda := ag }) hresp hj).trans
    (congrArg _ (responseEnd_eq _)))

/-- The rest of a response from payload byte `j` on, with its end (R89). -/
theorem run_response {s : State} {ag : List Turn} {r : Resp} {ps : List Byte} {k j : Nat}
    (hr : SequencerRunsFor (k + 1) s ag) (hm : s.mode = .armed) (hp : s.phase = .tx (j + 1)) (hresp : s.resp = some r)
    (hps : responsePayload s r = some ps) (hk : j + k = ps.length) :
    runFor (k + 1) s = .next { s with
      agenda := ag, txs := s.txs ++ ((ps.drop j).map .byte ++ [.byte okByte, .release]), phase := .idle
      inact := if s.cfg.leavePoint = .onFramed ∧ s.leaveReq = true then s.cfg.leaveDelay else s.inact
      leaveReq := if s.cfg.leavePoint = .onFramed then false else s.leaveReq } := by
  have hlen := responsePayload_length hps
  induction k generalizing s j with
  | zero =>
    rw [runFor_one, List.drop_eq_nil_of_le (by omega)]
    exact step_tx_end (sequencerRunsFor_head hr) hm hp hresp (by omega)
  | succ k ih =>
    have hj : j < ps.length := by omega
    have hstep := step_tx_payload (sequencerRunsFor_head hr) hm hp hresp hps hj
    have hrest := ih (s := { s with
        agenda := List.replicate (k + 1) .sequencer ++ ag, txs := s.txs ++ [.byte ps[j]], phase := .tx (j + 2) })
      (j := j + 1) ⟨hr.1, hr.2.1, rfl⟩ hm rfl hresp ((responsePayload_congr (by rfl) (by rfl) r).trans hps) (by omega)
    refine (runFor_succ hstep).trans (hrest.trans ?_)
    rw [List.drop_eq_getElem_cons hj, List.map_cons]
    simp only [List.append_assoc, List.cons_append, List.nil_append]

/-- A framed response, from its in-sync byte to its end (R89). -/
theorem run_framed {s : State} {ag : List Turn} {r : Resp} {ps : List Byte}
    (hr : SequencerRunsFor (ps.length + 2) s ag) (hm : s.mode = .armed) (hp : s.phase = .tx 0)
    (hresp : s.resp = some r) (hps : responsePayload s r = some ps) :
    runFor (ps.length + 2) s = .next { s with
      agenda := ag, txs := s.txs ++ framed ps, phase := .idle
      inact := if s.cfg.leavePoint = .onFramed ∧ s.leaveReq = true then s.cfg.leaveDelay else s.inact
      leaveReq := if s.cfg.leavePoint = .onFramed then false else s.leaveReq } := by
  have hrest := run_response (s := { s with
      agenda := List.replicate (ps.length + 1) .sequencer ++ ag, txs := s.txs ++ [.byte inSync], phase := .tx 1 })
    (ag := ag) (j := 0) ⟨hr.1, hr.2.1, rfl⟩ hm rfl hresp
    ((responsePayload_congr (s := s) (by rfl) (by rfl) r).trans hps) (Nat.zero_add _)
  refine (runFor_succ (step_of_tx (sequencerRunsFor_head hr) hm hp)).trans (hrest.trans ?_)
  simp only [List.append_assoc, List.drop_zero, framed, List.cons_append, List.nil_append]

/-- Settles O26: the framed response, and the two ways an exchange breaks. -/
theorem responseFrame : Obligations.ResponseFrame := by
  intro s ag
  refine ⟨fun r ps hr hm hp hresp hps => run_framed hr hm hp hresp hps, fun b c q hs hm hp hc hq hb => ?_,
    fun c hr hm hp hc hn hq => ⟨_, terminatorTimeoutRun s ag c hr hm hp hc hn hq, rfl, rfl⟩⟩
  exact ⟨_, (step_of_waitTerm hs hm hp).trans
    (stepWaitTerm_of_mismatch (s := { s with agenda := ag }) hc hq hb), rfl, rfl⟩

/-- From a matched terminator to the end of the framed response (R87, R89). -/
theorem run_answer {s : State} {ag : List Turn} {r : Resp} {ps rest : List Byte}
    (hr : SequencerRunsFor (ps.length + 3) s ag) (hm : s.mode = .armed) (hp : s.phase = .waitTerm)
    (hq : s.rxq = terminator :: rest) (hresp : s.resp = some r) (hps : responsePayload s r = some ps) :
    runFor (ps.length + 3) s = .next { s with
      agenda := ag, rxq := rest, txs := s.txs ++ framed ps, phase := .idle
      inact := if s.cfg.leavePoint = .onFramed ∧ s.leaveReq = true then s.cfg.leaveDelay else s.inact
      leaveReq := if s.cfg.leavePoint = .onFramed then false else s.leaveReq } := by
  have hstep := (step_of_waitTerm (sequencerRunsFor_head hr) hm hp).trans (stepWaitTerm_of_terminator (q := rest) hq)
  refine (runFor_succ hstep).trans ?_
  exact run_framed (s := { s with
      agenda := List.replicate (ps.length + 2) .sequencer ++ ag, rxq := rest, phase := .tx 0 })
    ⟨hr.1, hr.2.1, rfl⟩ hm rfl hresp ((responsePayload_congr (s := s) (by rfl) (by rfl) r).trans hps)

/-! The handoff. -/

/-- Settles O48: the five steps of the sequence one after the other. -/
theorem handoffRun : Obligations.HandoffRun := by
  intro s ag hr hm hp
  have ⟨hl, hf, _⟩ := hr
  have hled := step_of_hoSeq (sequencerRunsFor_head hr) hm hp
  have hdetach := step_of_hoSeq
    (s := { s with agenda := List.replicate 4 .sequencer ++ ag, ledEn := false, phase := .hoSeq .detach })
    ⟨hl, hf, rfl⟩ hm rfl
  have hirqOff := step_of_hoSeq
    (s := { s with
      agenda := List.replicate 3 .sequencer ++ ag, ledEn := false, xportAttached := false
      events := s.events ++ [.detach], phase := .hoSeq .irqOff })
    ⟨hl, hf, rfl⟩ hm rfl
  have hrelocate := step_of_hoSeq
    (s := { s with
      agenda := List.replicate 2 .sequencer ++ ag, ledEn := false, xportAttached := false
      irqSave := some s.irqEn, irqEn := false, events := s.events ++ [.detach], phase := .hoSeq .relocate })
    ⟨hl, hf, rfl⟩ hm rfl
  have hjump := step_of_hoSeq
    (s := { s with
      agenda := .sequencer :: ag, ledEn := false, xportAttached := false, irqSave := some s.irqEn
      irqEn := false, vtsel := .user, events := s.events ++ [.detach] ++ [.relocated], phase := .hoSeq .jump })
    ⟨hl, hf, rfl⟩ hm rfl
  have hsaved := hjump.trans (handoffJump_of_saved (saved := s.irqEn) rfl)
  have hevents : s.events ++ [.detach, .relocated, .jump 0]
      = s.events ++ [.detach] ++ [.relocated] ++ [.jump 0] := by
    simp only [List.append_assoc, List.cons_append, List.nil_append]
  rw [hevents]
  exact (runFor_succ hled).trans <| (runFor_succ hdetach).trans <| (runFor_succ hirqOff).trans <|
    (runFor_succ hrelocate).trans <| (runFor_one _).trans hsaved

end Sys2Proof.Laws

/-! Whole exchanges under `HOST_PROMPT` (40_dispatcher.md section 5, 42_flash_engine.md section 1). -/

namespace Sys2Proof.Laws

open Sys2Proof.Machine

/-! From the command poll to the execution. -/

/-- The state about to execute the command byte `b` with payload `p`, both taken from `RXQ`, with `rest` left there and
`ag` on the agenda. -/
def fetched (s : State) (b : Byte) (p rest : List Byte) (ag : List Turn) : State :=
  { s with
    agenda := ag, rxq := rest, inact := 0, cmd := some b, plen := some p.length
    buf := payloadInto 0 p s.buf, phase := .exec }

/-- The poll, the payload receive and the execution of a command whose encoding waits in `RXQ` (R82 to R85). -/
theorem run_command {s : State} {ag : List Turn} {i : Instr} {rest : List Byte}
    (hr : SequencerRunsFor ((encode s.cfg i).length + 2) s ag) (hw : i.wf s.cfg = true) (hm : s.mode = .armed)
    (hp : s.phase = .idle) (hq : s.rxq = encode s.cfg i ++ rest) :
    ∃ b p, runFor ((encode s.cfg i).length + 2) s = exec i (fetched s b p rest ag) := by
  have hl := hr.1
  have hcmd : s.cfg.commandBytesOk = true := by
    obtain ⟨-, -, -, -, -, -, hcmd, -⟩ := legal_iff_parts hl
    exact hcmd
  obtain ⟨b, p, he, hlen, hi⟩ := encode_eq_cons hcmd hw
  rw [he] at hr hq ⊢
  refine ⟨b, p, ?_⟩
  have hpoll := (polledByteStartsExchange s _ b (p ++ rest) (sequencerRunsFor_head hr) hm hp hq).1
  have hreceive := run_payload (s := { s with
      agenda := List.replicate (p.length + 1 + 1) .sequencer ++ ag, rxq := p ++ rest, inact := 0, cmd := some b
      plen := some (payloadLen b), phase := .rxPayload 0 }) (ag := .sequencer :: ag)
    (sequencerRunsFor_prefix (b := 1) ⟨hl, hr.2.1, rfl⟩) hm rfl (congrArg some hlen.symm) (hlen ▸ payloadLen_le b) rfl
  have hfetch : fetch (fetched s b p rest ag) = .ok i := by
    have hb : (fetched s b p rest ag).bufBytes 0 (payloadLen b) = some p := hlen ▸ bufBytes_payloadInto rfl
    rw [fetch_of_payload (s := fetched s b p rest ag) rfl hb]
    exact congrArg _ hi
  have hexec := (step_of_exec
    (s := { fetched s b p rest (.sequencer :: ag) with plen := some (payloadLen b) }) (ag := ag)
    ⟨hl, hr.2.1, rfl⟩ hm rfl)
  rw [← hlen] at hexec
  refine (runFor_succ hpoll).trans <| (runFor_after hreceive).trans <| (runFor_one _).trans <| ?_
  rw [← hlen]
  exact hexec.trans (stepExec_of_fetch hfetch)

theorem responseBytes_fetched (s : State) (b : Byte) (p rest : List Byte) (ag : List Turn) (i : Instr)
    (ps : List Byte) : ResponseBytes (fetched s b p rest ag) i ps = ResponseBytes s i ps := by
  cases i <;> rfl

theorem loadAddrAfter_fetched (s : State) (b : Byte) (p rest : List Byte) (ag : List Turn) (i : Instr) :
    loadAddrAfter (fetched s b p rest ag) i = loadAddrAfter s i := by
  cases i <;> rfl

theorem answersAtOnce_fetched {s : State} {i : Instr} (h : AnswersAtOnce s i) (b : Byte) (p rest : List Byte)
    (ag : List Turn) : AnswersAtOnce (fetched s b p rest ag) i := by
  cases i <;> exact h

/-- `INACT` at the end of an exchange (R82, R89, R107): 0 from the poll, or the delay that the exchange armed. -/
theorem inactAfter_of_fetched (s : State) (b : Byte) (p rest : List Byte) (ag : List Turn) (i : Instr) :
    (if s.cfg.leavePoint = .onFramed ∧ leaveReqExecuted (fetched s b p rest ag) i = true then s.cfg.leaveDelay
      else inactExecuted (fetched s b p rest ag) i) = inactAfter s i := by
  by_cases hi : i = .leave
  · subst hi
    cases hpoint : s.cfg.leavePoint <;> simp [leaveReqExecuted, inactExecuted, inactAfter, fetched, hpoint]
  · rw [leaveReqExecuted_of_ne_leave hi, inactExecuted_of_ne_leave hi, inactAfter]
    exact if_congr (by simp [hi, fetched]) rfl rfl

/-- `LEAVE_REQ` at the end of an exchange (R89, R107). -/
theorem leaveReqAfter_of_fetched (s : State) (b : Byte) (p rest : List Byte) (ag : List Turn) (i : Instr) :
    (if s.cfg.leavePoint = .onFramed then false else leaveReqExecuted (fetched s b p rest ag) i)
      = if s.cfg.leavePoint = .onFramed then false else s.leaveReq := by
  by_cases hi : i = .leave
  · subst hi
    cases hpoint : s.cfg.leavePoint <;> simp [leaveReqExecuted, fetched, hpoint]
  · rw [leaveReqExecuted_of_ne_leave hi]
    rfl

/-- Settles O27: poll, receive and execution, then the answer of the executed command. -/
theorem exchangeAnswered : Obligations.ExchangeAnswered := by
  intro s ag i rest hw ha hr hm hp hq
  have hmoves : exchangeMoves s.cfg i = (encode s.cfg i).length + 2 + (responseLength i + 3) := by
    rw [exchangeMoves]; omega
  rw [hmoves] at hr ⊢
  have hframe : s.rxq = encode s.cfg i ++ (terminator :: rest) := by
    rw [hq, requestFrame, List.append_nil, List.append_assoc, List.singleton_append]
  obtain ⟨b, p, hrun⟩ := run_command (sequencerRunsFor_prefix hr) hw hm hp hframe
  obtain ⟨r, ps, buf, d, he, hans⟩ := exec_answers (answersAtOnce_fetched ha b p (terminator :: rest)
    (List.replicate (responseLength i + 3) .sequencer ++ ag))
  rw [he] at hrun
  have hanswer := run_answer (s := executed (fetched s b p (terminator :: rest)
      (List.replicate (responseLength i + 3) .sequencer ++ ag)) i r buf d) (ag := ag) (rest := rest)
    ⟨hr.1, hr.2.1, by rw [hans.length]; rfl⟩ hm rfl rfl rfl
    ((responsePayload_congr (by rfl) (by rfl) r).trans hans.payload)
  rw [hans.length] at hanswer
  refine ⟨_, ps, (runFor_after hrun).trans hanswer, ?_, rfl, rfl, rfl, hm, hr.2.1, rfl, rfl, rfl, ?_, ?_, ?_⟩
  · rw [← responseBytes_fetched]
    exact hans.bytes
  · exact loadAddrAfter_fetched s b p _ _ i
  · exact inactAfter_of_fetched s b p _ _ i
  · exact leaveReqAfter_of_fetched s b p _ _ i

/-! The page-data receive and the protected write. -/

/-- The receive of all page data, up to the move that ends it (R115). -/
theorem run_pageData {s : State} {ag : List Turn} {count : Word} {data rest : List Byte}
    (hr : SequencerRunsFor count.toNat s ag) (hm : s.mode = .armed) (hp : s.phase = .pgRx 0)
    (hc : s.byteCount = some count) (hlen : data.length = count.toNat) (hn : count.toNat ≤ s.cfg.pageBytes)
    (hq : s.rxq = data ++ rest) :
    runFor count.toNat s
      = .next { s with
          agenda := ag, rxq := rest, buf := payloadInto 0 data s.buf, phase := .pgRx count.toNat } := by
  obtain ⟨hl, hf, ha⟩ := hr
  have hpage := bufBytes_ge_page s.cfg
  have hs : s = { s with
      agenda := List.replicate data.length .sequencer ++ ag, rxq := data ++ rest, phase := .pgRx 0 } := by
    rw [← hq, ← hp, hlen]
    exact congrArg (fun a => { s with agenda := a }) ha
  have hreceive := run_receives (s := s) (ph := .pgRx) (n := count.toNat)
    (fun ag b q buf got hg =>
      (step_of_pgRx (s := { s with agenda := .sequencer :: ag, rxq := b :: q, buf := buf, phase := .pgRx got })
        ⟨hl, hf, rfl⟩ hm rfl).trans
        (stepPgRx_of_byte (s := { s with agenda := ag, rxq := b :: q, buf := buf, phase := .pgRx got })
          hc hg rfl (show got < s.cfg.bufBytes by omega)))
    ag rest data 0 s.buf (by omega)
  rwa [Nat.zero_add, ← hs, hlen] at hreceive

/-- The frame of PROG_PAGE, its page data and the terminator apart (R64). -/
theorem requestFrame_append (c : Cfg) (i : Instr) (data rest : List Byte) :
    requestFrame c i data ++ rest = encode c i ++ (data ++ terminator :: rest) := by
  simp only [requestFrame, List.append_assoc, List.singleton_append]

/-- From the page-data receive on a protected page to the end of the exchange (R115, R116). -/
theorem run_protected_page {s : State} {ag : List Turn} {count : Word} {data rest : List Byte}
    (hr : SequencerRunsFor (count.toNat + 4) s ag) (hm : s.mode = .armed) (hp : s.phase = .pgRx 0)
    (hc : s.byteCount = some count) (hlen : data.length = count.toNat) (hn : count.toNat ≤ s.cfg.pageBytes)
    (hprot : s.prot = some true) (hresp : s.resp = some .none) (hq : s.rxq = data ++ terminator :: rest) :
    ∃ t, runFor (count.toNat + 4) s = .next t ∧ t.txs = s.txs ++ framed []
      ∧ t.events = s.events ++ [.writeProtected s.loadAddr count] ∧ t.flash = s.flash ∧ t.fcOp = s.fcOp
      ∧ t.rwwRd = s.rwwRd ∧ t.rxq = rest ∧ t.phase = .idle ∧ t.fault = none := by
  have ⟨hl, hf, _⟩ := hr
  have hdata := run_pageData (sequencerRunsFor_prefix hr) hm hp hc hlen hn hq
  have hstop := protectedStop
    { s with
      agenda := List.replicate 4 .sequencer ++ ag, rxq := terminator :: rest, buf := payloadInto 0 data s.buf
      phase := .pgRx count.toNat }
    (List.replicate 3 .sequencer ++ ag) count.toNat count ⟨hl, hf, rfl⟩ hm rfl hc hprot le_rfl
  have hanswer := run_answer
    (s := { s with
      agenda := List.replicate 3 .sequencer ++ ag, rxq := terminator :: rest, buf := payloadInto 0 data s.buf
      events := s.events ++ [.writeProtected s.loadAddr count], tries := some 0, phase := .waitTerm })
    (ag := ag) (ps := []) ⟨hl, hf, rfl⟩ hm rfl rfl hresp rfl
  exact ⟨_, (runFor_after hdata).trans ((runFor_succ hstop).trans hanswer), rfl, rfl, rfl, rfl, rfl, rfl, rfl, hf⟩

/-- Settles O43: the engine's start on a protected page, then the rest of its exchange. -/
theorem protectedWriteExchange : Obligations.ProtectedWriteExchange := by
  intro s ag x count data rest hlen hn h2 ha hprot hr hm hp hq
  have ⟨hl, hf, _⟩ := hr
  have hmoves : count.toNat + 10 = 4 + 2 + (count.toNat + 4) := by omega
  rw [hmoves] at hr ⊢
  rw [requestFrame_append] at hq
  obtain ⟨b, p, hrun⟩ := run_command (i := .progPage x count) (sequencerRunsFor_prefix hr) rfl hm hp hq
  have hstart := hrun.trans (progPageProtectedStartsNothing x count _ hn h2 ha hprot)
  obtain ⟨t, ht, hrest⟩ := run_protected_page (ag := ag)
    (s := { fetched s b p (data ++ terminator :: rest) (List.replicate (count.toNat + 4) .sequencer ++ ag) with
      byteCount := some count, resp := some .none, prot := some true, phase := .pgRx 0 })
    ⟨hl, hf, rfl⟩ hm rfl rfl hlen hn rfl rfl rfl
  exact ⟨t, (runFor_after hstart).trans ht, hrest⟩

/-! The unprotected write. -/

theorem inv_runFor {n : Nat} {s t : State} (h : Inv s) (hrun : runFor n s = .next t) : Inv t := by
  induction n generalizing s with
  | zero => cases hrun; exact h
  | succ n ih =>
    rw [runFor] at hrun
    split at hrun
    · rename_i u hu
      exact ih (stepKeepsInv s u h hu) hrun
    · cases hrun
    · cases hrun

/-- The flash controller's move from the head of the agenda. -/
theorem step_of_agenda_flash {s : State} {ag : List Turn} (hl : s.cfg.legal = true) (hu : s.phase ≠ .user)
    (ha : s.agenda = .flash :: ag) : step s = flashMove { s with agenda := ag } := by
  obtain ⟨ht, hs⟩ := State.afterTurn_cons ha
  rw [step_of_flash hl hu ht, hs]

/-- The fills of `k` words from word `d` on write nothing but the page buffer (R118). -/
theorem run_fills {s : State} {ag : List Turn} {count : Word} {k d : Nat} (hr : SequencerRunsFor k s ag)
    (hm : s.mode = .armed) (hp : s.phase = .pgFill d) (hc : s.byteCount = some count) (hq : s.fcOp = .none)
    (ha : s.loadAddr % 2 = 0) (hbuf : BufWritten s count.toNat) (hk : d + k ≤ count.toNat / 2) :
    ∃ pb, runFor k s = .next { s with agenda := ag, pageBuf := pb, phase := .pgFill (d + k) } := by
  induction k generalizing s d with
  | zero =>
    have hs : s = { s with agenda := ag, phase := .pgFill d } := by
      rw [← hp]
      exact congrArg (fun a => { s with agenda := a }) hr.2.2
    exact ⟨s.pageBuf, congrArg _ hs⟩
  | succ k ih =>
    obtain ⟨lo, hlo⟩ := Option.isSome_iff_exists.1 (hbuf (2 * d) (by omega))
    obtain ⟨hi, hhi⟩ := Option.isSome_iff_exists.1 (hbuf (2 * d + 1) (by omega))
    obtain ⟨t, hst, ht, -⟩ := (fillThenCommit s _ d count (sequencerRunsFor_head hr) hm hp hc hq ha).1 lo hi
      (by omega) hlo hhi
    rw [ht] at hst
    obtain ⟨pb, hrun⟩ := ih (d := d + 1) (s := { s with
        agenda := List.replicate k .sequencer ++ ag, pageBuf := t.pageBuf, phase := .pgFill (d + 1) })
      ⟨hr.1, hr.2.1, rfl⟩ hm rfl hc hq ha hbuf (by omega)
    rw [Nat.add_right_comm, Nat.add_assoc] at hrun
    exact ⟨pb, (runFor_succ hst).trans hrun⟩

/-- From the erase wait to the write wait, the flash controller's move first: the page is erased and its write started
(R117 to R119, R124). -/
theorem run_erase_fill_commit {s : State} {ag : List Turn} {count : Word} (hl : s.cfg.legal = true)
    (hf : s.fault = none) (hm : s.mode = .armed) (hp : s.phase = .pgWaitErase) (hc : s.byteCount = some count)
    (hop : s.fcOp = .erase (s.cfg.pageBase s.loadAddr)) (hprot : s.cfg.isProtected s.loadAddr = false)
    (ha : s.loadAddr % 2 = 0) (hbuf : BufWritten s count.toNat)
    (hag : s.agenda = .flash :: (List.replicate (count.toNat / 2 + 2) .sequencer ++ ag)) :
    ∃ pb, runFor (count.toNat / 2 + 3) s = .next { s with
      agenda := ag, flash := Memory.fill (s.cfg.pageBase s.loadAddr) (fun _ => 0xFF) s.cfg.pageBytes s.flash
      pageBuf := pb, fcOp := .write (s.cfg.pageBase s.loadAddr), rwwRd := false, phase := .pgWaitWrite } := by
  have herase := (step_of_agenda_flash hl (by simp [hp]) hag).trans (flashMove_of_erase hop
    (unprotected_page_inside hl hprot))
  have hwait := (eraseWait (eraseCompleted (s.cfg.pageBase s.loadAddr)
      { s with agenda := List.replicate (count.toNat / 2 + 2) .sequencer ++ ag })
    (List.replicate (count.toNat / 2 + 1) .sequencer ++ ag) ⟨hl, hf, rfl⟩ hm hp).2 rfl
  obtain ⟨pb, hfills⟩ := run_fills (ag := .sequencer :: ag) (k := count.toNat / 2) (d := 0)
    (s := { eraseCompleted (s.cfg.pageBase s.loadAddr) s with
      agenda := List.replicate (count.toNat / 2 + 1) .sequencer ++ ag, phase := .pgFill 0 })
    (sequencerRunsFor_prefix (b := 1) ⟨hl, hf, rfl⟩) hm rfl hc rfl ha hbuf (by omega)
  have hcommit := (fillThenCommit { eraseCompleted (s.cfg.pageBase s.loadAddr) s with
      agenda := .sequencer :: ag, pageBuf := pb, phase := .pgFill (0 + count.toNat / 2) } ag (0 + count.toNat / 2) count
    ⟨hl, hf, rfl⟩ hm rfl hc rfl ha).2 (by omega)
  exact ⟨pb, (runFor_succ herase).trans <| (runFor_succ hwait).trans <| (runFor_after hfills).trans <|
    (runFor_one _).trans hcommit⟩

/-- From the write wait to the terminator wait, the flash controller's move first: the page holds the received bytes,
and no byte outside it has changed (R120, R121, R126). -/
theorem run_write_return {s : State} {ag : List Turn} {count : Word} (h : Inv s) (hf : s.fault = none)
    (hm : s.mode = .armed) (hp : s.phase = .pgWaitWrite) (hc : s.byteCount = some count)
    (hop : s.fcOp = .write (s.cfg.pageBase s.loadAddr)) (hag : s.agenda = .flash :: .sequencer :: ag) :
    ∃ flash d, runFor 2 s = .next { s with
        agenda := ag, flash := flash, pageBuf := [], fcOp := .none, draws := d, rwwRd := true, tries := some 0
        phase := .waitTerm }
      ∧ (∀ j, j < count.toNat →
        some (Memory.read flash (s.cfg.pageBase s.loadAddr + s.cfg.pageOff (s.loadAddr + j))) = s.bufAt j)
      ∧ ∀ a, (a < s.cfg.pageBase s.loadAddr ∨ s.cfg.pageBase s.loadAddr + s.cfg.pageBytes ≤ a) →
        Memory.read flash a = Memory.read s.flash a := by
  have hl := h.1
  obtain ⟨hprot, -⟩ := inv_busy h (by simp [hop])
  have hwrite := (step_of_agenda_flash hl (by simp [hp]) hag).trans (flashMove_of_write hop
    (unprotected_page_inside hl hprot))
  have hreturn := (writeWaitThenReturn (writeCompleted (s.cfg.pageBase s.loadAddr)
      { s with agenda := .sequencer :: ag }) ag ⟨hl, hf, rfl⟩ hm hp).2 rfl
  refine ⟨_, _, (runFor_succ hwrite).trans ((runFor_one _).trans hreturn), fun j hj => ?_, fun a ha => ?_⟩
  · obtain ⟨n, hn, -, hstored⟩ := inv_pageStored (stepKeepsInv s _ h hwrite) hp rfl
    obtain rfl : count = n := by
      rw [writeCompleted_byteCount, hc] at hn
      cases hn
      rfl
    exact hstored j hj
  · rw [writeCompleted_flash, Memory.read_fill]
    exact if_neg fun ⟨hge, hlt⟩ => ha.elim (Nat.not_lt.2 hge) (Nat.not_le.2 hlt)

/-- From the page-data receive on an unprotected page to the erase wait (R115, R117). -/
theorem run_to_eraseWait {s : State} {ag : List Turn} {count : Word} {data rest : List Byte}
    (hr : SequencerRunsFor (count.toNat + 1) s ag) (hm : s.mode = .armed) (hp : s.phase = .pgRx 0)
    (hc : s.byteCount = some count) (hlen : data.length = count.toNat) (hn : count.toNat ≤ s.cfg.pageBytes)
    (hprot : s.prot = some false) (hq : s.rxq = data ++ rest) :
    runFor (count.toNat + 1) s = .next { s with
      agenda := ag, rxq := rest, buf := payloadInto 0 data s.buf, phase := .pgWaitErase } := by
  have ⟨hl, hf, _⟩ := hr
  have hdata := run_pageData (sequencerRunsFor_prefix hr) hm hp hc hlen hn hq
  have hend := (pageDataReceive
    { s with
      agenda := .sequencer :: ag, rxq := rest, buf := payloadInto 0 data s.buf, phase := .pgRx count.toNat }
    ag count.toNat count false ⟨hl, hf, rfl⟩ hm rfl hc hprot hn).2.2.1 le_rfl rfl
  exact (runFor_after hdata).trans ((runFor_one _).trans hend)

/-- From the write wait to the end of the exchange, the flash controller's move first (R120, R121, R126, R89). -/
theorem run_write_answer {s : State} {ag : List Turn} {count : Word} {rest : List Byte} (h : Inv s)
    (hf : s.fault = none) (hm : s.mode = .armed) (hp : s.phase = .pgWaitWrite) (hc : s.byteCount = some count)
    (hop : s.fcOp = .write (s.cfg.pageBase s.loadAddr)) (hresp : s.resp = some .none)
    (hq : s.rxq = terminator :: rest) (hag : s.agenda = .flash :: (List.replicate 4 .sequencer ++ ag)) :
    ∃ t, runFor (2 + 3) s = .next t ∧ t.txs = s.txs ++ framed []
      ∧ (∀ j, j < count.toNat →
        some (Memory.read t.flash (s.cfg.pageBase s.loadAddr + s.cfg.pageOff (s.loadAddr + j))) = s.bufAt j)
      ∧ (∀ a, (a < s.cfg.pageBase s.loadAddr ∨ s.cfg.pageBase s.loadAddr + s.cfg.pageBytes ≤ a) →
        Memory.read t.flash a = Memory.read s.flash a)
      ∧ t.rwwRd = true ∧ t.fcOp = .none ∧ t.loadAddr = s.loadAddr ∧ t.rxq = rest ∧ t.phase = .idle
      ∧ t.fault = none ∧ t.events = s.events := by
  obtain ⟨flash, d, hreturn, hdata, hout⟩ := run_write_return h hf hm hp hc hop hag
  have hanswer := run_answer
    (s := { s with
      agenda := List.replicate 3 .sequencer ++ ag, flash := flash, pageBuf := [], fcOp := .none, draws := d
      rwwRd := true, tries := some 0, phase := .waitTerm })
    (ag := ag) (ps := []) ⟨h.1, hf, rfl⟩ hm rfl hq hresp rfl
  exact ⟨_, (runFor_after hreturn).trans hanswer, rfl, hdata, hout, rfl, rfl, rfl, rfl, rfl, hf, rfl⟩

/-- The state in which the engine waits for the erase of the page of `LOAD_ADDR`, the command byte `b` with payload `p`
and the page data taken from `RXQ`. -/
def eraseWaiting (s : State) (count : Word) (b : Byte) (p data rest : List Byte) (ag : List Turn) : State :=
  { fetched s b p rest ag with
    byteCount := some count, resp := some .none, prot := some false
    fcOp := .erase (s.cfg.pageBase s.loadAddr), rwwRd := false
    buf := payloadInto 0 data (payloadInto 0 p s.buf), phase := .pgWaitErase }

/-- From the command poll of PROG_PAGE on an unprotected page to the erase wait. -/
theorem run_to_eraseWaiting {s : State} {ag : List Turn} {x : Byte} {count : Word} {data rest : List Byte}
    (hr : SequencerRunsFor (4 + 2 + (count.toNat + 1)) s ag) (hm : s.mode = .armed) (hp : s.phase = .idle)
    (hquiet : s.fcOp = .none) (hlen : data.length = count.toNat) (hn : count.toNat ≤ s.cfg.pageBytes)
    (h2 : count.toNat % 2 = 0) (ha : s.loadAddr % 2 = 0) (hprot : s.cfg.isProtected s.loadAddr = false)
    (hq : s.rxq = requestFrame s.cfg (.progPage x count) data ++ rest) :
    ∃ b p, runFor (4 + 2 + (count.toNat + 1)) s
      = .next (eraseWaiting s count b p data (terminator :: rest) ag) := by
  have ⟨hl, hf, _⟩ := hr
  rw [requestFrame_append] at hq
  obtain ⟨b, p, hrun⟩ := run_command (i := .progPage x count) (sequencerRunsFor_prefix hr) rfl hm hp hq
  have hstart := hrun.trans (progPageStartsErase x count _ hn h2 ha hprot hquiet)
  have hreceive := run_to_eraseWait (ag := ag)
    (s := { fetched s b p (data ++ terminator :: rest) (List.replicate (count.toNat + 1) .sequencer ++ ag) with
      byteCount := some count, resp := some .none, prot := some false
      fcOp := .erase (s.cfg.pageBase s.loadAddr), rwwRd := false, phase := .pgRx 0 })
    ⟨hl, hf, rfl⟩ hm rfl rfl hlen hn rfl rfl
  exact ⟨b, p, (runFor_after hstart).trans hreceive⟩

/-- The buffer of the erase wait holds the page data. -/
theorem bufAt_eraseWaiting {data : List Byte} {j : Nat} (hj : j < data.length) (s : State) (count : Word) (b : Byte)
    (p rest : List Byte) (ag : List Turn) : (eraseWaiting s count b p data rest ag).bufAt j = data[j]? :=
  read?_payloadInto_zero hj _

/-- Settles O44: the engine's start and receive, the erase, fill and commit, the write, and the empty response; that the
page then holds the data is the invariant in the write wait. -/
theorem pageWriteExchange : Obligations.PageWriteExchange := by
  intro s ag x count data rest hinv hf hlen hn h2 ha hprot hp hq hag
  have hl := hinv.1
  obtain ⟨hm, hquiet⟩ : s.mode = .armed ∧ s.fcOp = .none := by
    obtain ⟨-, -, -, hph, hho, -⟩ := hinv
    simp only [PhaseOk, hp] at hph
    exact ⟨((handoffOk_iff_atEntry (by simp [hp]) (by simp [hp])).1 hho).1, hph.1⟩
  have hmoves : count.toNat + count.toNat / 2 + 15
      = 4 + 2 + (count.toNat + 1) + ((count.toNat / 2 + 3) + (2 + 3)) := by omega
  have hfirst : count.toNat + 7 = 4 + 2 + (count.toNat + 1) := by omega
  rw [hfirst] at hag
  obtain ⟨b, p, hreceive⟩ := run_to_eraseWaiting ⟨hl, hf, hag⟩ hm hp hquiet hlen hn h2 ha hprot hq
  have hbuf := fun (j : Nat) (hj : j < count.toNat) => bufAt_eraseWaiting (hlen ▸ hj) s count b p (terminator :: rest)
    (.flash :: (List.replicate (count.toNat / 2 + 2) .sequencer ++ .flash :: (List.replicate 4 .sequencer ++ ag)))
  obtain ⟨pb, hcommit⟩ := run_erase_fill_commit (count := count) (s := eraseWaiting s count b p data _ _) hl hf hm rfl
    rfl rfl hprot ha (fun j hj => by rw [hbuf j hj]; simp [hlen, hj]) rfl
  have hinv' := inv_runFor (inv_runFor hinv hreceive) hcommit
  obtain ⟨t, hwrite, htxs, hdata, hout, hrest⟩ := run_write_answer hinv' hf hm rfl rfl rfl rfl rfl rfl
  refine ⟨t, ?_, htxs, fun j hj => ?_, fun a hpage => ?_, hrest⟩
  · rw [hmoves]
    exact (runFor_after hreceive).trans ((runFor_after hcommit).trans hwrite)
  · exact ((hdata j hj).trans (hbuf j hj)).symm
  · refine (hout a hpage).trans ?_
    rw [Memory.read_fill]
    exact if_neg fun ⟨hge, hlt⟩ => hpage.elim (Nat.not_lt.2 hge) (Nat.not_le.2 hlt)

end Sys2Proof.Laws
